-- ==== Sys2Proof/Word.lean ====
section
/-! DEFINITION. The value types of the block and their widths (00_scope.md R7, 10_state.md R10). -/

namespace Sys2Proof

/-- One byte of the event buffer `EB` (10_state.md R33). -/
abbrev Byte := BitVec 8

/-- A level, one bit per channel: LEVEL_W = 4 (00_scope.md R7). -/
abbrev Level := BitVec 4

/-- A duration in samples: DUR_W = 60 (00_scope.md R7, decision D5). -/
abbrev Duration := BitVec 60

/-- The value a record carries: VALUE_W = 64 (30_encoding.md R64). -/
abbrev Value := BitVec 64

/-- A sample word, an unsigned number below `2^W`. The width `W` is an open parameter
(00_scope.md R7), so a sample word is a number and `W` bounds it where it enters the block. -/
abbrev SampleWord := Nat

/-- The number of bits needed to write `n`: the smallest `b` with `2^b > n`. -/
def bitLen (n : Nat) : Nat := if n = 0 then 0 else Nat.log2 n + 1

/-- Bit `i` of a number, as 0 or 1. -/
def bitOf (n i : Nat) : Nat := (n >>> i) &&& 1

end Sys2Proof
end

