-- ==== Sys2Proof/Config.lean ====
section
/-! DEFINITION. The configuration constants of 00_scope.md R7 as plain data, the three test
configurations of R8, and the free values the spec leaves unspecified (93 U2, U5). -/

namespace Sys2Proof

/-- The implementation parameters of 00_scope.md R7 that the spec leaves OPEN. They are fixed for
the life of the hardware and no operation writes them. `EDGE_MASK` and `BUF_LEN` are derived. -/
structure Config where
  /-- `W`, bits of a sample word. -/
  w : Nat
  /-- `CH_POS[0]`, sample bit of channel 0. -/
  ch0 : Nat
  /-- `CH_POS[1]`. -/
  ch1 : Nat
  /-- `CH_POS[2]`. -/
  ch2 : Nat
  /-- `CH_POS[3]`. -/
  ch3 : Nat
  /-- `SYNC_POS`, sample bit of the synchronization bit. -/
  syncPos : Nat
  /-- `RESERVED_MASK`, the bits that must be zero in an edge sample. -/
  reservedMask : Nat
  /-- `H`, sample words in one half of the ping-pong buffer. -/
  h : Nat
  /-- `C`, bytes of the event buffer. -/
  c : Nat
  /-- `F_S`, samples per second. Timing only, no rule depends on it (70 R221). -/
  fS : Nat
  deriving DecidableEq, Repr

/-- `EDGE_MASK`, the OR of the four channel bits (00_scope.md R7, decision D3). -/
def Config.edgeMask (c : Config) : Nat :=
  (1 <<< c.ch0) ||| (1 <<< c.ch1) ||| (1 <<< c.ch2) ||| (1 <<< c.ch3)

/-- `BUF_LEN = 2 * H` (00_scope.md R7). -/
def Config.bufLen (c : Config) : Nat := 2 * c.h

/-- `POS_W`, the smallest `n` with `2^n > H` (10_state.md R10). -/
def Config.posW (c : Config) : Nat := bitLen c.h

/-- `PTR_W`, the smallest `n` with `2^n >= 2*H` (10_state.md R10). -/
def Config.ptrW (c : Config) : Nat := bitLen (2 * c.h - 1)

/-- `BYTES_W`, the smallest `n` with `2^n > C` (00_scope.md R7). -/
def Config.bytesW (c : Config) : Nat := bitLen c.c

/-- Width of `fatal_ctx` (10_state.md R28). -/
def Config.ctxW (c : Config) : Nat := 1 + c.posW + c.w

/-- `CFG_T` of 00_scope.md R8. R8 gives no `F_S`; the source's example 500,000 stands there. -/
def Config.cfgT : Config :=
  { w := 16, ch0 := 0, ch1 := 1, ch2 := 2, ch3 := 3, syncPos := 4, reservedMask := 0xFFE0,
    h := 4, c := 32, fS := 500000 }

/-- `CFG_U` of 00_scope.md R8. -/
def Config.cfgU : Config :=
  { w := 16, ch0 := 4, ch1 := 5, ch2 := 8, ch3 := 9, syncPos := 0, reservedMask := 0xF000,
    h := 4, c := 32, fS := 500000 }

/-- `CFG_S` of 00_scope.md R8: `CFG_T` with `C = 12`. -/
def Config.cfgS : Config := { Config.cfgT with c := 12 }

/-- FREE VALUE (93 U2, log 6): the word a cell of `PP` holds that no `SMP` has written since the
last `RESET`, by reset epoch and index. Reduced modulo `2^W` where it is read. -/
opaque Config.unspecifiedWord (epoch index : Nat) : SampleWord

/-- FREE VALUE (93 U2, U5, logs 6 and 7): the byte `RDEB` returns where the spec fixes none, by
reset epoch, address and what the storage was last given there (nothing, if unwritten). -/
opaque Config.unspecifiedByte (epoch address : Nat) (stored : Option Byte) : Byte

end Sys2Proof
end

