-- ==== Sys2Proof/Syntax.lean ====
section
/-! DEFINITION. The operations of the block, one constructor of `Instr` per row of
spec/opcode_table.json, and the items a stimulus is made of (30_encoding.md R70 to R76). -/

namespace Sys2Proof

/-- One half of the ping-pong buffer (45 R166); the value of `cur_half` (10 R16). -/
inductive Half where
  | half0
  | half1
  deriving DecidableEq, Repr

/-- `fatal_reason` (10 R27). -/
inductive FatalReason where
  | none
  | syncLoss
  | dmaError
  | overrun
  deriving DecidableEq, Repr

/-- The operations (00_scope.md R5, opcode_table.json). -/
inductive Instr where
  /- events, 30 R71 -/
  | nop
  | arm
  | smp (word : SampleWord)
  | dmaerr
  | seq
  | rd (field : Nat)
  | rdeb (address : Nat)
  | reset
  | reservedEv8 (arg : Nat)
  | reservedEv9 (arg : Nat)
  | reservedEv10 (arg : Nat)
  | reservedEv11 (arg : Nat)
  | reservedEv12 (arg : Nat)
  | reservedEv13 (arg : Nat)
  | reservedEv14 (arg : Nat)
  | reservedEv15 (arg : Nat)
  /- sequencer steps, selected by the key of 30 R69 -/
  | dispErr
  | dispHalf
  | dispFull
  | seqNone
  | encStep
  | seqClear
  | seqCheck
  /- pure functions, sub-steps, composites and outcomes -/
  | scan (data stop mask reference : Nat)
  | level (word : SampleWord)
  | deposit (l : Level)
  | vlen (v : Value)
  | venc (v : Value)
  | vdec (bs : List Byte) (a n : Nat)
  | parse (bs : List Byte) (n : Nat)
  | ebappend (bs : List Byte)
  | encodeHalf (half : Half)
  | seqEnter
  | dispatch
  | throttle
  | fatal (reason : FatalReason) (half : Half) (pos word : Nat)
  /- record formats, 30 R66: the groups of a record of k bytes, least significant first -/
  | rec1 (v : BitVec 7)
  | rec2 (v : BitVec 14)
  | rec3 (v : BitVec 21)
  | rec4 (v : BitVec 28)
  | rec5 (v : BitVec 35)
  | rec6 (v : BitVec 42)
  | rec7 (v : BitVec 49)
  | rec8 (v : BitVec 56)
  | rec9 (v : BitVec 63)
  | rec10 (v : BitVec 63)
  deriving DecidableEq, Repr

/-- The seven rows of the key table of 30 R69. -/
inductive KeyOp where
  | dispErr
  | dispHalf
  | dispFull
  | seqNone
  | encStep
  | seqClear
  | seqCheck
  deriving DecidableEq, Repr

/-- The operation of a key row. -/
def KeyOp.instr : KeyOp → Instr
  | .dispErr => .dispErr
  | .dispHalf => .dispHalf
  | .dispFull => .dispFull
  | .seqNone => .seqNone
  | .encStep => .encStep
  | .seqClear => .seqClear
  | .seqCheck => .seqCheck

/-- One item of a stimulus (30 R70: "one event is one step of one agent").
`event` is the hardware's own form, the event word of 30 R71. The other four are the model's
(logs 4 and 13), so that every encoded row can be fetched and any step of HOST and DMA can fall
between two visible writes of one `ENC_STEP` (20 R49, R50). -/
inductive Fetch where
  /-- an event word, 30 R71. -/
  | event (e : Nat)
  /-- a sequencer key, 30 R69. -/
  | key (k : BitVec 5)
  /-- the bytes of one record, 30 R65. -/
  | record (bs : List Byte)
  /-- an operation that has no encoding. -/
  | call (i : Instr)
  /-- SEQ makes the next visible write of its step (20 R49). -/
  | seqWrite
  deriving DecidableEq, Repr

/-- Why a stimulus item is no instruction; the decoder's rejections, by name. -/
inductive DecodeError where
  /-- an event other than `SMP`, `RD`, `RDEB` with a non-zero `arg` (30 R71). -/
  | argNotZero (op : Nat)
  /-- bytes that fit no row `REC1` to `REC10` (30 R66). -/
  | noRecord
  /-- a direct call of a row that is encoded or that only another step performs. -/
  | notCallable
  /-- a visible write, which is part of an instruction. -/
  | partOfStep
  deriving DecidableEq, Repr

end Sys2Proof
end

