-- ==== Sys2Proof/WellFormed.lean ====
section
/-! DEFINITION. Well-formed configurations (00_scope.md R7) and well-formed operands. -/

namespace Sys2Proof

/-- `WF(cfg)` of 00_scope.md R7: all constraints of the value column hold. `RESERVED_MASK` is a
"`W`-bit mask", hence below `2^W`. -/
abbrev Config.WF (c : Config) : Prop :=
  5 ≤ c.w ∧
  (c.ch0 < c.w ∧ c.ch1 < c.w ∧ c.ch2 < c.w ∧ c.ch3 < c.w) ∧
  (c.ch0 ≠ c.ch1 ∧ c.ch0 ≠ c.ch2 ∧ c.ch0 ≠ c.ch3 ∧ c.ch1 ≠ c.ch2 ∧ c.ch1 ≠ c.ch3 ∧ c.ch2 ≠ c.ch3) ∧
  (c.syncPos < c.w ∧ c.syncPos ≠ c.ch0 ∧ c.syncPos ≠ c.ch1 ∧ c.syncPos ≠ c.ch2 ∧ c.syncPos ≠ c.ch3) ∧
  (c.reservedMask < 2 ^ c.w ∧ c.reservedMask &&& (c.edgeMask ||| (1 <<< c.syncPos)) = 0) ∧
  1 ≤ c.h

/-- The operands each operation admits, under a configuration: the ranges of 30 R71 (arguments
of events), 40 R82 (`SCAN`), 42 R113 (`EBAPPEND`), 60 R181 (`FATAL`), 30 R66 (minimum length of a
record). A reserved event is never well-formed (30 R75). -/
def Instr.wf (c : Config) : Instr → Bool
  | .nop => true
  | .arm => true
  | .smp word => decide (word < 2 ^ c.w)
  | .dmaerr => true
  | .seq => true
  | .rd field => decide (field < 5)
  | .rdeb address => decide (address < c.c)
  | .reset => true
  | .reservedEv8 _ => false
  | .reservedEv9 _ => false
  | .reservedEv10 _ => false
  | .reservedEv11 _ => false
  | .reservedEv12 _ => false
  | .reservedEv13 _ => false
  | .reservedEv14 _ => false
  | .reservedEv15 _ => false
  | .dispErr => true
  | .dispHalf => true
  | .dispFull => true
  | .seqNone => true
  | .encStep => true
  | .seqClear => true
  | .seqCheck => true
  | .scan data stop mask reference =>
      decide (data ≤ stop) && decide (stop ≤ 2 * c.h) && decide (mask < 2 ^ c.w) &&
        decide (reference < 2 ^ c.w)
  | .level word => decide (word < 2 ^ c.w)
  | .deposit _ => true
  | .vlen _ => true
  | .venc _ => true
  | .vdec bs _ n => decide (n ≤ bs.length)
  | .parse bs n => decide (n ≤ bs.length)
  | .ebappend bs => decide (1 ≤ bs.length) && decide (bs.length ≤ 10)
  | .encodeHalf _ => true
  | .seqEnter => true
  | .dispatch => true
  | .throttle => true
  | .fatal reason _ pos word =>
      decide (reason ≠ .none) && decide (pos < 2 ^ c.posW) && decide (word < 2 ^ c.w)
  | .rec1 _ => true
  | .rec2 v => decide (2 ^ 7 ≤ v.toNat)
  | .rec3 v => decide (2 ^ 14 ≤ v.toNat)
  | .rec4 v => decide (2 ^ 21 ≤ v.toNat)
  | .rec5 v => decide (2 ^ 28 ≤ v.toNat)
  | .rec6 v => decide (2 ^ 35 ≤ v.toNat)
  | .rec7 v => decide (2 ^ 42 ≤ v.toNat)
  | .rec8 v => decide (2 ^ 49 ≤ v.toNat)
  | .rec9 v => decide (2 ^ 56 ≤ v.toNat)
  | .rec10 _ => true

/-- The rows that another step performs inside itself and nothing selects alone: the sub-step
`EBAPPEND` and the outcomes `THROTTLE`, `FATAL` (00_scope.md R5, 30 R76, log 14). -/
def Instr.isInner : Instr → Bool
  | .ebappend _ => true
  | .throttle => true
  | .fatal _ _ _ _ => true
  | .nop | .arm | .smp _ | .dmaerr | .seq | .rd _ | .rdeb _ | .reset => false
  | .reservedEv8 _ | .reservedEv9 _ | .reservedEv10 _ | .reservedEv11 _ => false
  | .reservedEv12 _ | .reservedEv13 _ | .reservedEv14 _ | .reservedEv15 _ => false
  | .dispErr | .dispHalf | .dispFull | .seqNone | .encStep | .seqClear | .seqCheck => false
  | .scan _ _ _ _ | .level _ | .deposit _ | .vlen _ | .venc _ | .vdec _ _ _ | .parse _ _ => false
  | .encodeHalf _ | .seqEnter | .dispatch => false
  | .rec1 _ | .rec2 _ | .rec3 _ | .rec4 _ | .rec5 _ | .rec6 _ | .rec7 _ | .rec8 _ | .rec9 _ => false
  | .rec10 _ => false

/-- The rows with neither an event word, a key nor record bytes that a stimulus may call: the
pure functions and the composites (30 R76, log 4). -/
def Instr.isCallable : Instr → Bool
  | .scan _ _ _ _ | .level _ | .deposit _ | .vlen _ | .venc _ | .vdec _ _ _ | .parse _ _ => true
  | .encodeHalf _ | .seqEnter | .dispatch => true
  | .ebappend _ | .throttle | .fatal _ _ _ _ => false
  | .nop | .arm | .smp _ | .dmaerr | .seq | .rd _ | .rdeb _ | .reset => false
  | .reservedEv8 _ | .reservedEv9 _ | .reservedEv10 _ | .reservedEv11 _ => false
  | .reservedEv12 _ | .reservedEv13 _ | .reservedEv14 _ | .reservedEv15 _ => false
  | .dispErr | .dispHalf | .dispFull | .seqNone | .encStep | .seqClear | .seqCheck => false
  | .rec1 _ | .rec2 _ | .rec3 _ | .rec4 _ | .rec5 _ | .rec6 _ | .rec7 _ | .rec8 _ | .rec9 _ => false
  | .rec10 _ => false

end Sys2Proof
end

