-- ==== Sys2Proof/Decode.lean ====
section
/-! DEFINITION. Decoding: event words (30_encoding.md R71), sequencer keys (R69) and record bytes
(R65, R66) to instructions, total, each rejection with a name; then the encoder. -/

namespace Sys2Proof

/-- Event words, 30 R71: `op = e & 0xF`, `arg = e >> 4`. A non-zero `arg` where the table says 0
is rejected. Bounds that depend on the configuration (`SMP`, `RDEB`) and the reserved field
numbers are the meaning's to refuse (log 11). -/
def decodeEvent (e : Nat) : Except DecodeError Instr :=
  let op := e &&& 0xF
  let arg := e >>> 4
  let plain (i : Instr) : Except DecodeError Instr :=
    if arg = 0 then .ok i else .error (.argNotZero op)
  match op with
  | 0 => plain .nop
  | 1 => plain .arm
  | 2 => .ok (.smp arg)
  | 3 => plain .dmaerr
  | 4 => plain .seq
  | 5 => .ok (.rd arg)
  | 6 => .ok (.rdeb arg)
  | 7 => plain .reset
  | 8 => .ok (.reservedEv8 arg)
  | 9 => .ok (.reservedEv9 arg)
  | 10 => .ok (.reservedEv10 arg)
  | 11 => .ok (.reservedEv11 arg)
  | 12 => .ok (.reservedEv12 arg)
  | 13 => .ok (.reservedEv13 arg)
  | 14 => .ok (.reservedEv14 arg)
  | _ => .ok (.reservedEv15 arg)

/-- One row of the key table of 30 R69: the key `k` selects the row when `k & mask = pat`. -/
structure KeyRow where
  pat : BitVec 5
  mask : BitVec 5
  op : KeyOp
  deriving DecidableEq, Repr

/-- The table of 30 R69, match and mask as printed there. -/
def keyRows : List KeyRow :=
  [ { pat := 0b00100, mask := 0b11100, op := .dispErr },
    { pat := 0b00001, mask := 0b11101, op := .dispHalf },
    { pat := 0b00010, mask := 0b11111, op := .dispFull },
    { pat := 0b00000, mask := 0b11111, op := .seqNone },
    { pat := 0b01000, mask := 0b11000, op := .encStep },
    { pat := 0b10000, mask := 0b11000, op := .seqClear },
    { pat := 0b11000, mask := 0b11000, op := .seqCheck } ]

/-- Does the row match the key? -/
def KeyRow.hit (r : KeyRow) (k : BitVec 5) : Bool := k &&& r.mask == r.pat

/-- The row a key selects (30 R69: "The patterns are disjoint and cover all 32 keys"). -/
def decodeKeyOp (k : BitVec 5) : KeyOp :=
  match keyRows.find? (fun r => r.hit k) with
  | some r => r.op
  | none => .seqNone

/-- The operation a key selects. -/
def decodeKey (k : BitVec 5) : Instr := (decodeKeyOp k).instr

/-- 30 R65: every byte but the last has bit 7 set, the last has it clear. -/
def recordShape : List Byte → Bool
  | [] => false
  | [b] => decide (b.toNat < 128)
  | b :: b' :: bs => decide (128 ≤ b.toNat) && recordShape (b' :: bs)

/-- 30 R65: byte `i` carries bits `7i+6 .. 7i` of the value. -/
def recordValue : List Byte → Nat
  | [] => 0
  | b :: bs => b.toNat % 128 + 128 * recordValue bs

/-- The row `REC1` to `REC10` that fits the bytes of one record (30 R66). The minimum-length
constraint on the last byte is the well-formedness of the operand. -/
def decodeRecord (bs : List Byte) : Except DecodeError Instr :=
  let v := recordValue bs
  if recordShape bs then
    match bs.length with
    | 1 => .ok (.rec1 (BitVec.ofNat 7 v))
    | 2 => .ok (.rec2 (BitVec.ofNat 14 v))
    | 3 => .ok (.rec3 (BitVec.ofNat 21 v))
    | 4 => .ok (.rec4 (BitVec.ofNat 28 v))
    | 5 => .ok (.rec5 (BitVec.ofNat 35 v))
    | 6 => .ok (.rec6 (BitVec.ofNat 42 v))
    | 7 => .ok (.rec7 (BitVec.ofNat 49 v))
    | 8 => .ok (.rec8 (BitVec.ofNat 56 v))
    | 9 => .ok (.rec9 (BitVec.ofNat 63 v))
    | 10 => if v / 2 ^ 63 = 1 then .ok (.rec10 (BitVec.ofNat 63 v)) else .error .noRecord
    | _ => .error .noRecord
  else .error .noRecord

/-- The instruction a stimulus item stands for. `seqWrite` is a part of an instruction: `step`
takes it (log 13). -/
def decode : Fetch → Except DecodeError Instr
  | .event e => decodeEvent e
  | .key k => .ok (decodeKey k)
  | .record bs => decodeRecord bs
  | .call i => if i.isCallable then .ok i else .error .notCallable
  | .seqWrite => .error .partOfStep

/-! ## The encoder -/

/-- 30 R71: `(arg << 4) | op`. -/
def encodeEvent (op arg : Nat) : Fetch := .event ((arg <<< 4) ||| op)

/-- The `k` bytes of a record of value `v`, lowest group first, continuation bit in all but the
last (30 R65). -/
def recordBytes : Nat → Nat → List Byte
  | 0, _ => []
  | 1, v => [BitVec.ofNat 8 (v % 128)]
  | k + 2, v => BitVec.ofNat 8 (128 + v % 128) :: recordBytes (k + 1) (v / 128)

/-- The stimulus item that stands for an instruction: its event word (30 R71), a key that selects
it (30 R69, don't-care bits 0), its record bytes (30 R66), or a call of a row with no encoding. -/
def encode : Instr → Fetch
  | .nop => encodeEvent 0 0
  | .arm => encodeEvent 1 0
  | .smp word => encodeEvent 2 word
  | .dmaerr => encodeEvent 3 0
  | .seq => encodeEvent 4 0
  | .rd field => encodeEvent 5 field
  | .rdeb address => encodeEvent 6 address
  | .reset => encodeEvent 7 0
  | .reservedEv8 arg => encodeEvent 8 arg
  | .reservedEv9 arg => encodeEvent 9 arg
  | .reservedEv10 arg => encodeEvent 10 arg
  | .reservedEv11 arg => encodeEvent 11 arg
  | .reservedEv12 arg => encodeEvent 12 arg
  | .reservedEv13 arg => encodeEvent 13 arg
  | .reservedEv14 arg => encodeEvent 14 arg
  | .reservedEv15 arg => encodeEvent 15 arg
  | .dispErr => .key 0b00100
  | .dispHalf => .key 0b00001
  | .dispFull => .key 0b00010
  | .seqNone => .key 0b00000
  | .encStep => .key 0b01000
  | .seqClear => .key 0b10000
  | .seqCheck => .key 0b11000
  | .scan data stop mask reference => .call (.scan data stop mask reference)
  | .level word => .call (.level word)
  | .deposit l => .call (.deposit l)
  | .vlen v => .call (.vlen v)
  | .venc v => .call (.venc v)
  | .vdec bs a n => .call (.vdec bs a n)
  | .parse bs n => .call (.parse bs n)
  | .ebappend bs => .call (.ebappend bs)
  | .encodeHalf half => .call (.encodeHalf half)
  | .seqEnter => .call .seqEnter
  | .dispatch => .call .dispatch
  | .throttle => .call .throttle
  | .fatal reason half pos word => .call (.fatal reason half pos word)
  | .rec1 v => .record (recordBytes 1 v.toNat)
  | .rec2 v => .record (recordBytes 2 v.toNat)
  | .rec3 v => .record (recordBytes 3 v.toNat)
  | .rec4 v => .record (recordBytes 4 v.toNat)
  | .rec5 v => .record (recordBytes 5 v.toNat)
  | .rec6 v => .record (recordBytes 6 v.toNat)
  | .rec7 v => .record (recordBytes 7 v.toNat)
  | .rec8 v => .record (recordBytes 8 v.toNat)
  | .rec9 v => .record (recordBytes 9 v.toNat)
  | .rec10 v => .record (recordBytes 10 (2 ^ 63 + v.toNat))

/-! ## Words numbered as spec/opcode_table.json numbers them -/

/-- The `n` bytes of a number, lowest byte first. -/
def bytesLow : Nat → Nat → List Byte
  | 0, _ => []
  | n + 1, w => BitVec.ofNat 8 w :: bytesLow n (w / 256)

/-- Is the event word one of the codes 8 to 15 that carry no meaning (30 R71)? -/
def reservedOp (w : Nat) : Bool := decide (8 ≤ w &&& 0xF)

/-- Does the decoder take the item? -/
def Fetch.decodes (f : Fetch) : Bool :=
  match decode f with
  | .ok _ => true
  | .error _ => false

/-- The stimulus item an opcode-table word stands for. The table numbers events (4 bits), keys
(5 bits) and records (8 bits a byte, the first byte of the pattern the HIGHEST) as bare numbers,
so in one byte the three overlap: an event word whose op is not reserved, or which is a bare op,
is the event; otherwise a number below 32 is a key, one below 128 is `REC1`; else it is the
event. For more than one byte the record is tried first, high byte first as the table's `fixed`
numbers it, then low byte first (log 4). -/
def fetchOfTableWord (nbits w : Nat) : Fetch :=
  if nbits = 5 then .key (BitVec.ofNat 5 w)
  else if nbits ≤ 8 then
    let ev := Fetch.event w
    if w < 16 then ev
    else if ev.decodes && !reservedOp w then ev
    else if w < 32 then .key (BitVec.ofNat 5 w)
    else if w < 128 then .record [BitVec.ofNat 8 w]
    else ev
  else
    let low := bytesLow (nbits / 8) w
    if (Fetch.record low.reverse).decodes then .record low.reverse
    else if (Fetch.record low).decodes then .record low
    else .event w

/-- The instruction the decoder reads from an opcode-table word of `nbits` bits. -/
def decodeTableWord (nbits w : Nat) : Option Instr :=
  match decode (fetchOfTableWord nbits w) with
  | .ok i => some i
  | .error _ => none

end Sys2Proof
end

