-- ==== Sys2Proof/Machine/State.lean ====
section
/-! DEFINITION. The state of the block (10_state.md R10), the reasons a step can stop, and the state after reset
(10_state.md R36). -/

namespace Sys2Proof.Machine

/-- `seq_state` (10 R17). -/
inductive SeqState where
  /-- 0, no dispatch in progress. -/
  | idle
  /-- 1, the encoder is processing half `cur_half` from `scan_pos`. -/
  | encode
  /-- 2, the half is processed, its own flag not yet cleared. -/
  | clear
  /-- 3, the own flag is cleared, the other flag not yet inspected. -/
  | check
  deriving DecidableEq, Repr

/-- `mode` (10 R26). The codes 5 to 7 are reserved and never produced. -/
inductive Mode where
  | idle
  | armed
  | running
  | suspended
  | fatal
  deriving DecidableEq, Repr

/-- How one `ENCODE_HALF` ends (41 R90). -/
inductive EncodeOutcome where
  | done
  | throttled
  | fatalSyncLoss
  deriving DecidableEq, Repr

/-- How one `DISPATCH` ends (44 R145). -/
inductive DispatchOutcome where
  | normal
  | suspended
  | fatal (reason : FatalReason)
  deriving DecidableEq, Repr

/-- MODEL'S OWN (log 5): what the last step put out. -/
inductive Answer where
  /-- nothing. -/
  | none
  /-- the port `arm_ack` was high: the `ARM` step has been taken (43 R134). -/
  | armAck
  /-- `rd_data` for field `f` (43 R132). -/
  | field (f value : Nat)
  /-- `eb_data` (43 R133). -/
  | byte (b : Byte)
  /-- the position `SCAN` returns (40 R80). -/
  | position (p : Nat)
  /-- the level `LEVEL` returns (30 R62). -/
  | level (l : Level)
  /-- the word `DEPOSIT` returns (30 R63). -/
  | word (w : SampleWord)
  /-- the length `VLEN` returns (42 R111). -/
  | length (n : Nat)
  /-- the bytes `VENC` returns (42 R110). -/
  | bytes (bs : List Byte)
  /-- the value and next index `VDEC` returns (42 R117). -/
  | value (v : Value) (next : Nat)
  /-- the intervals `PARSE` returns, each a duration and a level (42 R118). -/
  | intervals (l : List (Duration × Level))
  /-- `VDEC` or `PARSE` refuses its bytes (42 R117); the machine goes on. -/
  | corrupt
  /-- how `ENCODE_HALF` ended. -/
  | encoded (o : EncodeOutcome)
  /-- how `DISPATCH` ended. -/
  | dispatched (o : DispatchOutcome)
  deriving DecidableEq, Repr

/-- MODEL'S OWN (log 13): the record of an `ENC_STEP` whose visible writes (20 R49) have begun and
not ended. HOST sees the first `seen` of them. -/
structure Emission where
  /-- the bytes of the record, the first visible writes. -/
  record : List Byte
  /-- the level written last. -/
  level : Level
  /-- how many writes HOST sees, 1 up to all but the last. -/
  seen : Nat
  deriving DecidableEq, Repr

/-- The state. `cfg`, `emission`, `epoch`, `stimulus` and `out` are the model's own fields (logs 1,
13, 6, 3, 5); all the others are the spec's, 10 R10. -/
structure State where
  /-- the configuration constants (00 R7); no step changes them. -/
  cfg : Config
  /-- `last_value`, the level of the currently open interval (10 R11). -/
  lastValue : Level
  /-- `last_duration` (10 R12). -/
  lastDuration : Duration
  /-- `bytes`, the append cursor of `EB` (10 R13). -/
  bytes : Nat
  /-- `dur_acc`, the accumulating duration counter (10 R14). -/
  durAcc : Duration
  /-- `scan_pos`, 0..H (10 R15). -/
  scanPos : Nat
  /-- `cur_half` (10 R16). -/
  curHalf : Half
  /-- `seq_state` (10 R17). -/
  seqState : SeqState
  /-- `wr_ptr`, 0..2H-1 (10 R18). -/
  wrPtr : Nat
  /-- `sync_out` (10 R19). -/
  syncOut : Bool
  /-- `HT`, half-complete (10 R21). -/
  ht : Bool
  /-- `TC`, full-complete (10 R22). -/
  tc : Bool
  /-- `ERR`, transfer error (10 R23). -/
  err : Bool
  /-- `IRQ_EN` (10 R24). -/
  irqEn : Bool
  /-- `mode` (10 R26). -/
  mode : Mode
  /-- `fatal_reason` (10 R27). -/
  fatalReason : FatalReason
  /-- `fatal_ctx`, packed as 10 R28 lays it out. -/
  fatalCtx : Nat
  /-- `PP`, the words written since the last `RESET`, by index (10 R32). -/
  pp : List (Nat × SampleWord)
  /-- `EB`, the bytes written since the last `RESET`, by address (10 R33). -/
  eb : List Host.Cell
  /-- the `ENC_STEP` whose writes are becoming visible to HOST, if one is. -/
  emission : Option Emission
  /-- the number of `RESET`s, the argument of the free values. -/
  epoch : Nat
  /-- the events still to come (30 R70). -/
  stimulus : List Fetch
  /-- what the last step put out. -/
  out : Answer
  deriving DecidableEq, Repr

/-- The reasons a step faults. -/
inductive Fault where
  /-- `SMP` with `wr_ptr` outside `0 .. 2H-1`, an index of `PP` that does not exist (20 R48:
  "Out-of-range accesses cannot be produced by SEQ or DMA"). Only states no run reaches
  raise it. Safe: the model stops where the spec gives no effect. -/
  | ppIndex (index : Nat)
  deriving DecidableEq, Repr

/-- The reasons the machine refuses an input. -/
inductive Refusal where
  /-- an instruction without a meaning; raised by no arm of this model. Safe. -/
  | notModelled (mnemonic : String)
  /-- a stimulus item that is no instruction (30 R71, 93 U9); raised by `step`. Safe. -/
  | undecodable (e : DecodeError)
  /-- an event with a reserved op 8..15 (30 R75, 93 U9); raised by the reserved rows. Safe. -/
  | reservedEvent (op : Nat)
  /-- `RD` of a field 5 and above (10 R31, 93 U9). Safe. -/
  | reservedField (f : Nat)
  /-- `RDEB` of an address `C` and above (20 R48, 93 U9). Safe. -/
  | ebAddress (a : Nat)
  /-- a sample word of `2^W` and above (30 R71, 93 U9). Safe. -/
  | wordTooWide (word : Nat)
  /-- `SCAN` with `data > end` or `end > 2H` (40 R82, 93 U8); raised by `SCAN`, and by `ENC_STEP`
  and `ENCODE_HALF` in states no run reaches. Safe. -/
  | scanRange (data stop : Nat)
  /-- a duration sum that would reach `2^60` (10 R14, 41 R91 corner case 3, 93 U3: a model refuses
  the run); raised by the `ENC_STEP` that adds it, and by `SEQ`, `ENCODE_HALF` and `DISPATCH` where
  they take that step. Safe. -/
  | durationOverflow
  /-- `EBAPPEND` outside its precondition `C - bytes >= 10`, `1 <= L <= 10` (42 R113). Safe. -/
  | appendPrecondition
  /-- `FATAL` with the reason `NONE` or a context wider than its fields (60 R181). Safe. -/
  | fatalOperand
  deriving DecidableEq, Repr

/-- The RESET column of 10 R36 (70 R210) for one configuration. -/
def State.resetFor (cfg : Config) : State :=
  { cfg := cfg
    lastValue := 0
    lastDuration := 0
    bytes := 0
    durAcc := 0
    scanPos := 0
    curHalf := .half0
    seqState := .idle
    wrPtr := 0
    syncOut := false
    ht := false
    tc := false
    err := false
    irqEn := false
    mode := .idle
    fatalReason := .none
    fatalCtx := 0
    pp := []
    eb := []
    emission := none
    epoch := 0
    stimulus := []
    out := .none }

/-- The machine right after reset. The configuration is the spec's test configuration `CFG_T`
(00 R8), DESIGN CHOICE, log 1: the spec leaves the parameters open. -/
def State.reset : State := State.resetFor Config.cfgT

end Sys2Proof.Machine
end

