-- ==== Sys2Proof/Machine/Memory.lean ====
section
/-! DEFINITION. A sparse memory as a list of (address, value) pairs in one canonical form: addresses
strictly rising. A cell that is not listed has no value (70 R211); every list of that form is the
one list of its contents, so equal memories are equal data. -/

namespace Sys2Proof.Machine

/-- The canonical form: addresses strictly rising. -/
abbrev Memory.wf {α : Type} (m : List (Nat × α)) : Prop :=
  m.Pairwise (fun a b => a.1 < b.1)

/-- The value at an address, if one is listed. -/
def Memory.read {α : Type} : List (Nat × α) → Nat → Option α
  | [], _ => none
  | (a, v) :: m, i => if i = a then some v else Memory.read m i

/-- Write one cell, keeping the canonical form. -/
def Memory.write {α : Type} : List (Nat × α) → Nat → α → List (Nat × α)
  | [], i, x => [(i, x)]
  | (a, v) :: m, i, x =>
      if i < a then (i, x) :: (a, v) :: m
      else if i = a then (a, x) :: m
      else (a, v) :: Memory.write m i x

/-- Write consecutive cells in ascending address order (42 R113, `MemWrite` of 00 section 6). -/
def Memory.writeList {α : Type} : List (Nat × α) → Nat → List α → List (Nat × α)
  | m, _, [] => m
  | m, i, x :: xs => Memory.writeList (Memory.write m i x) (i + 1) xs

end Sys2Proof.Machine
end

