-- ==== Sys2Proof/Machine/Operands.lean ====
section
/-! DEFINITION. Operand assembly: the codes of the enumerated registers, the level and its
placement (30_encoding.md R62, R63), the record value (R64), the layout of `fatal_ctx` (10 R28). -/

namespace Sys2Proof.Machine

/-- The bit `cur_half` holds (10 R16). -/
def halfCode : Half → Nat
  | .half0 => 0
  | .half1 => 1

/-- The bits `seq_state` holds (10 R17). -/
def seqStateCode : SeqState → Nat
  | .idle => 0
  | .encode => 1
  | .clear => 2
  | .check => 3

/-- The bits `mode` holds (10 R26). -/
def modeCode : Mode → Nat
  | .idle => 0
  | .armed => 1
  | .running => 2
  | .suspended => 3
  | .fatal => 4

/-- The bits `fatal_reason` holds (10 R27, 60 R181). -/
def reasonCode : FatalReason → Nat
  | .none => 0
  | .syncLoss => 1
  | .dmaError => 2
  | .overrun => 3

/-- `LEVEL(s)`: bit `i` of the result is bit `CH_POS[i]` of the sample (30 R62). -/
def levelOf (c : Config) (s : SampleWord) : Level :=
  BitVec.ofNat 4 (bitOf s c.ch0 + 2 * bitOf s c.ch1 + 4 * bitOf s c.ch2 + 8 * bitOf s c.ch3)

/-- `DEPOSIT(l)`: the sum over `i` of `l[i] << CH_POS[i]` (30 R63). -/
def depositOf (c : Config) (l : Level) : SampleWord :=
  (bitOf l.toNat 0 <<< c.ch0) + (bitOf l.toNat 1 <<< c.ch1) +
    (bitOf l.toNat 2 <<< c.ch2) + (bitOf l.toNat 3 <<< c.ch3)

/-- The record value `(duration << 4) | level` at 64 bits (30 R64). -/
def recordValueOf (d : Duration) (l : Level) : Value :=
  (d.setWidth 64 <<< 4) ||| l.setWidth 64

/-- The duration of a record value, `value >> 4` (30 R64). -/
def durationOf (v : Value) : Duration := (v >>> 4).setWidth 60

/-- The level of a record value, `value & 0xF` (30 R64). -/
def levelOfValue (v : Value) : Level := v.setWidth 4

/-- `fatal_ctx` from its fields: `half` in bit 0, `pos` in bits `[POS_W:1]`, `word` in bits
`[POS_W+W:POS_W+1]` (10 R28). -/
def packCtx (c : Config) (half : Half) (pos word : Nat) : Nat :=
  halfCode half + 2 * pos + 2 ^ (1 + c.posW) * word

/-- Field `half` of `fatal_ctx`. -/
def ctxHalf (ctx : Nat) : Nat := ctx % 2

/-- Field `pos` of `fatal_ctx`. -/
def ctxPos (c : Config) (ctx : Nat) : Nat := ctx / 2 % 2 ^ c.posW

/-- Field `word` of `fatal_ctx`. -/
def ctxWord (c : Config) (ctx : Nat) : Nat := ctx / 2 ^ (1 + c.posW) % 2 ^ c.w

/-- `DUR_RESET`, the value the accumulator takes after a record (00 R7: 0; 90 C2, D23). -/
abbrev durReset : Duration := 0

/-- `MAX_REC`, the maximum length of one record (00 R7). -/
abbrev maxRec : Nat := 10

end Sys2Proof.Machine
end

