-- ==== Sys2Proof/Machine/Flags.lean ====
section
/-! DEFINITION. The flags: the interrupt request, the sequencer key and its guards, the own and the
other flag of a half, setting and clearing (10_state.md R21 to R25, 30 R69). -/

namespace Sys2Proof.Machine

/-- `irq = IRQ_EN & (HT | TC | ERR)` (10 R25). -/
def irq (s : State) : Bool := s.irqEn && (s.ht || s.tc || s.err)

/-- The key `K = seq_state[1:0] ++ ERR ++ TC ++ HT` (30 R69). -/
def seqKey (s : State) : BitVec 5 :=
  BitVec.ofNat 5 (8 * seqStateCode s.seqState + 4 * s.err.toNat + 2 * s.tc.toNat + s.ht.toNat)

/-- `mode` in {ARMED, RUNNING}. -/
def modeServes (m : Mode) : Bool :=
  match m with
  | .armed => true
  | .running => true
  | .idle => false
  | .suspended => false
  | .fatal => false

/-- `mode` in {ARMED, RUNNING, SUSPENDED}, the modes in which the DMA steps (43 R128, R130). -/
def modeSamples (m : Mode) : Bool :=
  match m with
  | .armed => true
  | .running => true
  | .suspended => true
  | .idle => false
  | .fatal => false

/-- `SEQ_ENTER` is enabled (44 R146, 10 R25). -/
def enterEnabled (s : State) : Bool :=
  decide (s.seqState = .idle) && modeServes s.mode && irq s

/-- A step of a dispatch in progress is enabled: `seq_state` names it and `mode = RUNNING`
(30 R69, 90 C14). -/
def stepEnabled (s : State) (at_ : SeqState) : Bool :=
  decide (s.seqState = at_) && decide (s.mode = .running)

/-- `ARM` is enabled: `seq_state = S_IDLE` and `mode != FATAL` (43 R125). -/
def armEnabled (s : State) : Bool :=
  decide (s.seqState = .idle) && decide (s.mode ≠ .fatal)

/-- Some SEQ step is enabled (30 R69). -/
def seqEnabled (s : State) : Bool :=
  enterEnabled s || stepEnabled s .encode || stepEnabled s .clear || stepEnabled s .check

/-- The flag of a half: `HT` of half 0, `TC` of half 1 (45 R166). -/
def ownFlag (s : State) : Half → Bool
  | .half0 => s.ht
  | .half1 => s.tc

/-- The flag of the other half (44 R151). -/
def otherFlag (s : State) : Half → Bool
  | .half0 => s.tc
  | .half1 => s.ht

/-- Clear the flag of a half (44 R150). -/
def clearFlag (h : Half) (s : State) : State :=
  match h with
  | .half0 => { s with ht := false }
  | .half1 => { s with tc := false }

end Sys2Proof.Machine
end

