-- ==== Sys2Proof/Machine/Varint.lean ====
section
/-! DEFINITION. The varint: `VLEN`, `VENC` and the reference functions `VDEC`, `PARSE`
(42_varint_encoder.md R110 to R118). -/

namespace Sys2Proof.Machine

/-- `VLEN(V)` (42 R111): 1 below `2^7`, else the bit length over 7, rounded up. -/
def vlenOf (v : Value) : Nat :=
  if v.toNat < 2 ^ 7 then 1 else (bitLen v.toNat + 6) / 7

/-- The loop of `VENC` (42 R110) with its number of rounds. -/
def vencLoop : Nat → Value → List Byte
  | 0, _ => []
  | n + 1, v =>
      let g : Byte := (v.setWidth 7).setWidth 8
      let v' := v >>> 7
      if v' = 0 then [g] else (0x80 ||| g) :: vencLoop n v'

/-- `VENC(V)` (42 R110). Ten rounds suffice for 64 bits (42 R112). -/
def vencOf (v : Value) : List Byte := vencLoop maxRec v

/-- The loop of `VDEC` (42 R117): `fuel` rounds left, `j` groups taken so far into `v`. -/
def vdecLoop (bs : List Byte) (a n : Nat) : Nat → Nat → Value → Option (Value × Nat)
  | 0, _, _ => none
  | fuel + 1, j, v =>
      if n ≤ a + j then none
      else if j = 10 then none
      else
        match bs[a + j]? with
        | none => none
        | some b =>
            if j = 9 ∧ b ≠ 0x01 then none
            else
              let v' := v ||| ((b.setWidth 7).setWidth 64 <<< (7 * j))
              if b.toNat < 128 then
                if 2 ≤ j + 1 ∧ b = 0 then none else some (v', a + (j + 1))
              else vdecLoop bs a n fuel (j + 1) v'

/-- `VDEC(bs, a, n)` (42 R117); `none` is its refusal. -/
def vdecOf (bs : List Byte) (a n : Nat) : Option (Value × Nat) := vdecLoop bs a n 11 0 0

/-- The loop of `PARSE` (42 R118) from index `a`, with its number of rounds. -/
def parseLoop (bs : List Byte) (n : Nat) : Nat → Nat → Option (List (Duration × Level))
  | 0, a => if a = n then some [] else none
  | fuel + 1, a =>
      if a = n then some []
      else
        match vdecOf bs a n with
        | none => none
        | some (v, a') =>
            match parseLoop bs n fuel a' with
            | none => none
            | some rest => some ((durationOf v, levelOfValue v) :: rest)

/-- `PARSE(bs, n)` (42 R118); `none` is its refusal. Every record has a byte, so `n` rounds do. -/
def parseOf (bs : List Byte) (n : Nat) : Option (List (Duration × Level)) := parseLoop bs n n 0

end Sys2Proof.Machine
end

