-- ==== Sys2Proof/Machine/Ops.lean ====
section
/-! DEFINITION. The shared operations over the memories and registers, the scan, and the two ways a
step leaves the normal flow: `raiseFatal` (60_exceptions.md R186) and `throttleAt` (41 R95). There
is no return from Fatal (60 R188): only `RESET` leaves it, `resetOp`. -/

namespace Sys2Proof.Machine

/-- Put out an answer. Nothing else changes (20 R47). -/
def answer (a : Answer) (s : State) : State := { s with out := a }

/-- `PP[i]` (20 R52). A word no `SMP` has written since the last `RESET` is a free `W`-bit value
(93 U2, log 6). -/
def ppWord (s : State) (i : Nat) : SampleWord :=
  match Memory.read s.pp i with
  | some w => w
  | none => Config.unspecifiedWord s.epoch i % 2 ^ s.cfg.w

/-- `EB[a]` as `RDEB` returns it (43 R133). Below `bytes` it is the byte appended there; at or
above `bytes` it is a free value of what the storage holds (93 U5, log 7). -/
def ebByte (s : State) (a : Nat) : Byte :=
  if a < s.bytes then
    match Memory.read s.eb a with
    | some b => b
    | none => Config.unspecifiedByte s.epoch a none
  else Config.unspecifiedByte s.epoch a (Memory.read s.eb a)

/-- The state as HOST sees it (20 R49, R50). While the writes of an `ENC_STEP` become visible, the
bytes of its record come first, in ascending order, then `bytes`; `last_value` is its last write,
with which the step is complete. -/
def hostView (s : State) : State :=
  match s.emission with
  | none => s
  | some e =>
      { s with
        eb := Memory.writeList s.eb s.bytes (e.record.take e.seen)
        bytes := if e.record.length < e.seen then s.bytes + e.record.length else s.bytes }

/-- The valid data, `EB[0 .. bytes-1]` (20 R47). -/
def ebData (s : State) : List Byte := (List.range s.bytes).map (ebByte s)

/-- The element-by-element scan (40 R80, 20 R45): `n` elements from position `p`. -/
def scanLoop (s : State) (mask reference : Nat) : Nat → Nat → Nat
  | 0, p => p
  | n + 1, p =>
      if (ppWord s p &&& mask) ≠ (reference &&& mask) then p else scanLoop s mask reference n (p + 1)

/-- `SCAN(data, end, mask, reference)` within its contract (40 R80, R82). -/
def scanOf (s : State) (data stop mask reference : Nat) : Nat :=
  scanLoop s mask reference (stop - data) data

/-- `EBAPPEND(bs)` (42 R113): the bytes in ascending address order, then `bytes`. -/
def appendBytes (bs : List Byte) (s : State) : State :=
  { s with eb := Memory.writeList s.eb s.bytes bs, bytes := s.bytes + bs.length }

/-- `raise Fatal(reason, ctx)` (60 R186): taking an exception. Nothing else is written. -/
def raiseFatal (reason : FatalReason) (half : Half) (pos word : Nat) (s : State) : State :=
  { s with fatalReason := reason, fatalCtx := packCtx s.cfg half pos word, mode := .fatal }

/-- `throttle` with the duration `d` (41 R95): `IRQ_EN` off, SUSPENDED, the dispatch ended. -/
def throttleAt (d : Duration) (s : State) : State :=
  { s with lastDuration := d, irqEn := false, mode := .suspended, seqState := .idle }

/-- `RESET` (70 R210): the RESET column of 10 R36. The memories hold no value afterwards (70 R211)
and their free values are those of a new epoch (log 6); the events still to come stay (log 3). -/
def resetOp (s : State) : State :=
  { State.resetFor s.cfg with epoch := s.epoch + 1, stimulus := s.stimulus }

/-- `STATUS`, field 0 (10 R29). -/
def statusField (s : State) : Nat :=
  modeCode s.mode + (reasonCode s.fatalReason <<< 3) + (s.irqEn.toNat <<< 5) + (s.ht.toNat <<< 6) +
    (s.tc.toNat <<< 7) + (s.err.toNat <<< 8) + (seqStateCode s.seqState <<< 9) +
    (halfCode s.curHalf <<< 11) + (s.syncOut.toNat <<< 12)

/-- The field `f` of the read port (10 R29 to R31, 43 R132); 5 and above are reserved. -/
def fieldValue (s : State) (f : Nat) : Option Nat :=
  match f with
  | 0 => some (statusField s)
  | 1 => some s.bytes
  | 2 => some s.lastValue.toNat
  | 3 => some s.lastDuration.toNat
  | 4 => some s.fatalCtx
  | _ => none

end Sys2Proof.Machine
end

