-- ==== Sys2Proof/Machine/Buffer.lean ====
section
/-! DEFINITION. The sample_buffer_controller: `ARM`, `SMP`, `DMAERR` (43_sample_buffer_controller.md
R125, R128, R130). An event that is not enabled leaves the state unchanged (30 R70, 93 U11). -/

namespace Sys2Proof.Machine

/-- `ARM` (43 R125). While it is not enabled the requester holds it (log 10); `arm_ack` is high in
the step that takes it (43 R134). -/
def execArm (s : State) : Host.Outcome State Fault Refusal :=
  if armEnabled s then
    .next { s with
      wrPtr := 0, ht := false, tc := false, err := false, bytes := 0, lastDuration := 0,
      mode := .armed, irqEn := true, out := .armAck }
  else .next s

/-- The effect of one sample tick (43 R128): the word, the sync line, the flag of a completed
half after the write, the pointer. -/
def sampleOp (word : SampleWord) (s : State) : State :=
  { s with
    pp := Memory.write s.pp s.wrPtr word
    syncOut := !s.syncOut
    ht := s.ht || decide (s.wrPtr + 1 = s.cfg.h)
    tc := s.tc || decide (s.wrPtr + 1 = 2 * s.cfg.h)
    wrPtr := (s.wrPtr + 1) % (2 * s.cfg.h) }

/-- `SMP(w)` (43 R128). A word of `2^W` and above is refused (93 U9). -/
def execSmp (word : SampleWord) (s : State) : Host.Outcome State Fault Refusal :=
  if 2 ^ s.cfg.w ≤ word then .refused (.wordTooWide word)
  else if modeSamples s.mode then
    if s.wrPtr < 2 * s.cfg.h then .next (sampleOp word s) else .fault (.ppIndex s.wrPtr)
  else .next s

/-- `DMAERR` (43 R130). -/
def execDmaerr (s : State) : Host.Outcome State Fault Refusal :=
  if modeSamples s.mode then .next { s with err := true } else .next s

end Sys2Proof.Machine
end

