-- ==== Sys2Proof/Machine/Functions.lean ====
section
/-! DEFINITION. The rows of the pure functions: `SCAN`, `LEVEL`, `DEPOSIT`, `VLEN`, `VENC`, `VDEC`, `PARSE`
(40 R80, 30 R62, R63, 42 R110, R111, R117, R118). Each puts its result out and changes nothing. -/

namespace Sys2Proof.Machine

/-- `SCAN(data, end, mask, reference)` (40 R80), refused outside its contract (40 R82, 93 U8). R80
gives `mask` and `reference` as `W`-bit values and does not say what a wider one does: it runs, and
every bit of it takes part (DESIGN CHOICE, log 26). -/
def execScan (data stop mask reference : Nat) (s : State) : Host.Outcome State Fault Refusal :=
  if data ≤ stop ∧ stop ≤ 2 * s.cfg.h then
    .next (answer (.position (scanOf s data stop mask reference)) s)
  else .refused (.scanRange data stop)

/-- `LEVEL(s)` (30 R62); an operand of `2^W` and above is no sample word (93 U9). -/
def execLevel (word : SampleWord) (s : State) : Host.Outcome State Fault Refusal :=
  if 2 ^ s.cfg.w ≤ word then .refused (.wordTooWide word)
  else .next (answer (.level (levelOf s.cfg word)) s)

/-- `DEPOSIT(l)` (30 R63). -/
def execDeposit (l : Level) (s : State) : Host.Outcome State Fault Refusal :=
  .next (answer (.word (depositOf s.cfg l)) s)

/-- `VLEN(V)` (42 R111). -/
def execVlen (v : Value) (s : State) : Host.Outcome State Fault Refusal :=
  .next (answer (.length (vlenOf v)) s)

/-- `VENC(V)` (42 R110). -/
def execVenc (v : Value) (s : State) : Host.Outcome State Fault Refusal :=
  .next (answer (.bytes (vencOf v)) s)

/-- `VDEC(bs, a, n)` (42 R117). Its refusal is an answer (log 16). -/
def execVdec (bs : List Byte) (a n : Nat) (s : State) : Host.Outcome State Fault Refusal :=
  match vdecOf bs a n with
  | some (v, next) => .next (answer (.value v next) s)
  | none => .next (answer .corrupt s)

/-- `PARSE(bs, n)` (42 R118). Its refusal is an answer (log 16). -/
def execParse (bs : List Byte) (n : Nat) (s : State) : Host.Outcome State Fault Refusal :=
  match parseOf bs n with
  | some l => .next (answer (.intervals l) s)
  | none => .next (answer .corrupt s)

end Sys2Proof.Machine
end

