-- ==== Sys2Proof/Machine/HostPort.lean ====
section
/-! DEFINITION. The host port: `RD` and `RDEB` (43_sample_buffer_controller.md R132, R133). Always
enabled, no side effect on the block (20 R47), at any point of a step of SEQ (20 R49, R50). -/

namespace Sys2Proof.Machine

/-- `RD(f)` (43 R132). Reserved fields are refused (10 R31, 93 U9). -/
def execRd (field : Nat) (s : State) : Host.Outcome State Fault Refusal :=
  match fieldValue (hostView s) field with
  | some v => .next (answer (.field field v) s)
  | none => .refused (.reservedField field)

/-- `RDEB(a)` (43 R133). An address `C` and above is refused (20 R48, 93 U9). -/
def execRdeb (address : Nat) (s : State) : Host.Outcome State Fault Refusal :=
  if address < s.cfg.c then .next (answer (.byte (ebByte (hostView s) address)) s)
  else .refused (.ebAddress address)

end Sys2Proof.Machine
end

