-- ==== Sys2Proof/Machine/Records.lean ====
section
/-! DEFINITION. The record formats `REC1` to `REC10` (30_encoding.md R65, R66): what a record of k bytes says
to its reader, the interval `(duration, level)` (30 R64, R67, R68, log 16). -/

namespace Sys2Proof.Machine

/-- Put out the interval that a record of `k` bytes with the value `v` describes; a record that is
not of minimum length is one the encoder never produces and reads as corrupt (30 R74). -/
def readRecord (k v : Nat) (s : State) : Host.Outcome State Fault Refusal :=
  match parseOf (recordBytes k v) k with
  | some l => .next (answer (.intervals l) s)
  | none => .next (answer .corrupt s)

/-- `REC1`: a record of 1 byte (30 R66). -/
def execRec1 (v : BitVec 7) (s : State) : Host.Outcome State Fault Refusal :=
  readRecord 1 v.toNat s

/-- `REC2`: a record of 2 bytes (30 R66). -/
def execRec2 (v : BitVec 14) (s : State) : Host.Outcome State Fault Refusal :=
  readRecord 2 v.toNat s

/-- `REC3`: a record of 3 bytes (30 R66). -/
def execRec3 (v : BitVec 21) (s : State) : Host.Outcome State Fault Refusal :=
  readRecord 3 v.toNat s

/-- `REC4`: a record of 4 bytes (30 R66). -/
def execRec4 (v : BitVec 28) (s : State) : Host.Outcome State Fault Refusal :=
  readRecord 4 v.toNat s

/-- `REC5`: a record of 5 bytes (30 R66). -/
def execRec5 (v : BitVec 35) (s : State) : Host.Outcome State Fault Refusal :=
  readRecord 5 v.toNat s

/-- `REC6`: a record of 6 bytes (30 R66). -/
def execRec6 (v : BitVec 42) (s : State) : Host.Outcome State Fault Refusal :=
  readRecord 6 v.toNat s

/-- `REC7`: a record of 7 bytes (30 R66). -/
def execRec7 (v : BitVec 49) (s : State) : Host.Outcome State Fault Refusal :=
  readRecord 7 v.toNat s

/-- `REC8`: a record of 8 bytes (30 R66). -/
def execRec8 (v : BitVec 56) (s : State) : Host.Outcome State Fault Refusal :=
  readRecord 8 v.toNat s

/-- `REC9`: a record of 9 bytes (30 R66). -/
def execRec9 (v : BitVec 63) (s : State) : Host.Outcome State Fault Refusal :=
  readRecord 9 v.toNat s

/-- `REC10`: a record of 10 bytes, the tenth `0x01` (30 R66). -/
def execRec10 (v : BitVec 63) (s : State) : Host.Outcome State Fault Refusal :=
  readRecord 10 (2 ^ 63 + v.toNat) s

end Sys2Proof.Machine
end

