-- ==== Sys2Proof/Machine/Encoder.lean ====
section
/-! DEFINITION. The run_length_encoder: `ENC_STEP`, `ENCODE_HALF`, `EBAPPEND`, `THROTTLE`
(41_run_length_encoder.md R90 to R97, 42 R113). -/

namespace Sys2Proof.Machine

/-- The four arms of `ENC_STEP` (41 R91), each with what the step computed before it, and the rest
of a step whose writes HOST has seen in part (20 R49). -/
inductive EncArm where
  /-- step 7: no further edge, the duration so far. -/
  | endOfHalf (d : Duration)
  /-- step 3: an edge sample with reserved bits set, at `p`. -/
  | syncLoss (d : Duration) (p : Nat) (word : SampleWord)
  /-- step 4: fewer than 10 bytes free. -/
  | backpressure (d : Duration)
  /-- steps 5 and 6: the record's bytes, the new level, the edge position. -/
  | emit (bs : List Byte) (level : Level) (p : Nat)
  /-- the writes of steps 5 and 6 that HOST has not seen yet. -/
  | finish (bs : List Byte) (level : Level)
  deriving DecidableEq, Repr

/-- `base`, the first index of the half being processed (41 R91, 45 R166). -/
def halfBase (s : State) : Nat := halfCode s.curHalf * s.cfg.h

/-- `p`, the position of the next edge relative to the half, or `H` (40 R83). -/
def edgePos (s : State) : Nat :=
  scanOf s (halfBase s + s.scanPos) (halfBase s + s.cfg.h) s.cfg.edgeMask
    (depositOf s.cfg s.lastValue) - halfBase s

/-- `d`, the accumulated duration including the span just skipped, modulo `2^60` (41 R91). -/
def spanDuration (s : State) : Duration := s.durAcc + BitVec.ofNat 60 (edgePos s - s.scanPos)

/-- The next `ENC_STEP` does not reach `2^60` samples (93 U3), so `spanDuration` does not wrap. -/
abbrev durationFits (s : State) : Prop := s.durAcc.toNat + (edgePos s - s.scanPos) < 2 ^ 60

/-- Which arm a new `ENC_STEP` takes: the sync check before the space check (41 R91, R97). -/
def scanArm (s : State) : EncArm :=
  let p := edgePos s
  let d := spanDuration s
  let word := ppWord s (halfBase s + p)
  if p = s.cfg.h then .endOfHalf d
  else if word &&& s.cfg.reservedMask ≠ 0 then .syncLoss d p word
  else if s.cfg.c - s.bytes < maxRec then .backpressure d
  else .emit (vencOf (recordValueOf d s.lastValue)) (levelOf s.cfg word) p

/-- What is left to do for `ENC_STEP`: the arm of a new step, or the rest of the one begun. -/
def encArm (s : State) : EncArm :=
  match s.emission with
  | none => scanArm s
  | some e => .finish e.record e.level

/-- The first visible write of an `ENC_STEP` that emits a record (20 R49). `dur_acc` and `scan_pos`,
which HOST never sees, are written with it. -/
def startEmission (bs : List Byte) (level : Level) (p : Nat) (s : State) : State :=
  { s with durAcc := durReset, scanPos := p + 1,
           emission := some { record := bs, level := level, seen := 1 } }

/-- The last visible writes of a record: `EB` and `bytes`, then `last_value` (41 R94, 20 R49). -/
def finishEmission (bs : List Byte) (level : Level) (s : State) : State :=
  { appendBytes bs s with lastValue := level, emission := none }

/-- The writes of one arm (41 R91, R92, R94 to R96). `dur_acc` is updated before the checks. -/
def applyArm (arm : EncArm) (s : State) : State :=
  match arm with
  | .endOfHalf d =>
      { s with durAcc := d, lastDuration := d, scanPos := s.cfg.h, seqState := .clear }
  | .syncLoss d p word => raiseFatal .syncLoss s.curHalf p word { s with durAcc := d }
  | .backpressure d => throttleAt d { s with durAcc := d }
  | .emit bs level p => finishEmission bs level (startEmission bs level p s)
  | .finish bs level => finishEmission bs level s

/-- One `ENC_STEP` where it is enabled, nothing where it is not (41 R91). -/
def encStepOp (s : State) : State :=
  if stepEnabled s .encode then applyArm (encArm s) s else s

/-- Why a model refuses the `ENC_STEP` that SEQ takes next, if it does. With `scan_pos > H`, which no
run reaches, its `SCAN` call is outside the contract (40 R82, 93 U8). A new step whose duration
would reach `2^60` ends the run (10 R14, 41 R91 corner case 3, 93 U3), whatever its arm, with
nothing written (log 8). -/
def encRefusal (s : State) : Option Refusal :=
  if stepEnabled s .encode then
    if s.cfg.h < s.scanPos then
      some (.scanRange (halfBase s + s.scanPos) (halfBase s + s.cfg.h))
    else if s.emission = none ∧ ¬ durationFits s then some .durationOverflow
    else none
  else none

/-- `ENC_STEP` repeated (41 R90); a step that is not enabled changes nothing. -/
def encLoop : Nat → State → State
  | 0, s => s
  | n + 1, s => encLoop n (encStepOp s)

/-- The first refusal among the `ENC_STEP`s of `encLoop`. -/
def encLoopRefusal : Nat → State → Option Refusal
  | 0, _ => none
  | n + 1, s =>
      match encRefusal s with
      | some r => some r
      | none => encLoopRefusal n (encStepOp s)

/-- How an `ENCODE_HALF` has ended (41 R90). -/
def encodeOutcome (s : State) : EncodeOutcome :=
  if s.mode = .fatal then .fatalSyncLoss
  else if s.mode = .suspended then .throttled
  else .done

/-- `ENC_STEP` as a step of SEQ (41 R91). -/
def encStepOutcome (s : State) : Host.Outcome State Fault Refusal :=
  match encRefusal s with
  | some r => .refused r
  | none => .next (encStepOp s)

/-- The row `ENC_STEP` (41 R91). -/
def execEncStep (s : State) : Host.Outcome State Fault Refusal := encStepOutcome s

/-- The row `ENCODE_HALF(h)` (41 R90): `ENC_STEP`s until `seq_state` leaves `S_ENCODE`, at most
`H + 1`, no other agent between them (log 15). It is entered when `seq_state` is `S_ENCODE` with
`cur_half = h`; elsewhere there is nothing to run. -/
def execEncodeHalf (half : Half) (s : State) : Host.Outcome State Fault Refusal :=
  if stepEnabled s .encode && decide (s.curHalf = half) then
    match encLoopRefusal (s.cfg.h + 1) s with
    | some r => .refused r
    | none =>
        let t := encLoop (s.cfg.h + 1) s
        .next (answer (.encoded (encodeOutcome t)) t)
  else .next s

/-- The sub-step `EBAPPEND(bs)` (42 R113), refused outside its precondition (log 11). -/
def execEbappend (bs : List Byte) (s : State) : Host.Outcome State Fault Refusal :=
  if 1 ≤ bs.length ∧ bs.length ≤ maxRec ∧ maxRec ≤ s.cfg.c - s.bytes then .next (appendBytes bs s)
  else .refused .appendPrecondition

/-- The outcome `THROTTLE` (41 R95) with the duration the step has put in `dur_acc` (log 14). -/
def execThrottle (s : State) : Host.Outcome State Fault Refusal := .next (throttleAt s.durAcc s)

end Sys2Proof.Machine
end

