-- ==== Sys2Proof/Machine/Sequencer.lean ====
section
/-! DEFINITION. The dma_interrupt_sequencer: the causes of a dispatch, `SEQ_CLEAR`, `SEQ_CHECK`,
`SEQ`, `SEQ_ENTER`, `DISPATCH`, and the outcome `FATAL` (44_dma_interrupt_sequencer.md R145 to R151,
30 R69, 60 R186). A step that is not enabled leaves the state unchanged. -/

namespace Sys2Proof.Machine

/-- Entry of a dispatch on one half (44 R148, R149). -/
def enterHalf (half : Half) (s : State) : State :=
  { s with curHalf := half, scanPos := 0, durAcc := s.lastDuration, mode := .running,
           seqState := .encode }

/-- `DISP_ERR` (44 R147): key `001--` under the guard of 30 R69. -/
def dispErrOp (s : State) : State :=
  if enterEnabled s && s.err then raiseFatal .dmaError .half0 0 0 s else s

/-- `DISP_HALF` (44 R148): key `000-1` under the guard of 30 R69. -/
def dispHalfOp (s : State) : State :=
  if enterEnabled s && !s.err && s.ht then enterHalf .half0 s else s

/-- `DISP_FULL` (44 R149): key `00010` under the guard of 30 R69. -/
def dispFullOp (s : State) : State :=
  if enterEnabled s && !s.err && !s.ht && s.tc then enterHalf .half1 s else s

/-- `SEQ_ENTER` (44 R146): error, then half, then full. -/
def seqEnterOp (s : State) : State :=
  if s.err then dispErrOp s else if s.ht then dispHalfOp s else dispFullOp s

/-- `SEQ_CLEAR` (44 R150). -/
def seqClearOp (s : State) : State :=
  if stepEnabled s .clear then { clearFlag s.curHalf s with seqState := .check } else s

/-- `SEQ_CHECK` (44 R151). -/
def seqCheckOp (s : State) : State :=
  if stepEnabled s .check then
    if otherFlag s s.curHalf then raiseFatal .overrun s.curHalf 0 0 s
    else { s with seqState := .idle }
  else s

/-- How a `DISPATCH` has ended (44 R145). -/
def dispatchOutcome (s : State) : DispatchOutcome :=
  match s.mode with
  | .fatal => .fatal s.fatalReason
  | .suspended => .suspended
  | .idle => .normal
  | .armed => .normal
  | .running => .normal

/-- The row `DISP_ERR` (44 R147). -/
def execDispErr (s : State) : Host.Outcome State Fault Refusal := .next (dispErrOp s)

/-- The row `DISP_HALF` (44 R148). -/
def execDispHalf (s : State) : Host.Outcome State Fault Refusal := .next (dispHalfOp s)

/-- The row `DISP_FULL` (44 R149). -/
def execDispFull (s : State) : Host.Outcome State Fault Refusal := .next (dispFullOp s)

/-- The row `SEQ_NONE` (30 R69): nothing pending, no step. -/
def execSeqNone (s : State) : Host.Outcome State Fault Refusal := .next s

/-- The row `SEQ_CLEAR` (44 R150). -/
def execSeqClear (s : State) : Host.Outcome State Fault Refusal := .next (seqClearOp s)

/-- The row `SEQ_CHECK` (44 R151). -/
def execSeqCheck (s : State) : Host.Outcome State Fault Refusal := .next (seqCheckOp s)

/-- The row `SEQ_ENTER` (44 R146). -/
def execSeqEnter (s : State) : Host.Outcome State Fault Refusal := .next (seqEnterOp s)

/-- The event `SEQ` (30 R69, R70): the one step the key selects, none if its guard fails. -/
def execSeq (s : State) : Host.Outcome State Fault Refusal :=
  match decodeKeyOp (seqKey s) with
  | .dispErr => .next (dispErrOp s)
  | .dispHalf => .next (dispHalfOp s)
  | .dispFull => .next (dispFullOp s)
  | .seqNone => .next s
  | .encStep => encStepOutcome s
  | .seqClear => .next (seqClearOp s)
  | .seqCheck => .next (seqCheckOp s)

/-- The row `DISPATCH` (44 R145): `SEQ_ENTER`, `ENC_STEP`s, `SEQ_CLEAR`, `SEQ_CHECK`, no other
agent between them (log 15). After a throttle or a Fatal the later steps are not enabled. -/
def execDispatch (s : State) : Host.Outcome State Fault Refusal :=
  if enterEnabled s then
    match encLoopRefusal (s.cfg.h + 1) (seqEnterOp s) with
    | some r => .refused r
    | none =>
        let t := seqCheckOp (seqClearOp (encLoop (s.cfg.h + 1) (seqEnterOp s)))
        .next (answer (.dispatched (dispatchOutcome t)) t)
  else .next s

/-- The outcome `FATAL` (60 R186), for the three reasons and contexts that fit (60 R181). -/
def execFatal (reason : FatalReason) (half : Half) (pos word : Nat) (s : State) :
    Host.Outcome State Fault Refusal :=
  if reason ≠ .none ∧ pos < 2 ^ s.cfg.posW ∧ word < 2 ^ s.cfg.w then
    .next (raiseFatal reason half pos word s)
  else .refused .fatalOperand

end Sys2Proof.Machine
end

