-- ==== Sys2Proof/Machine/System.lean ====
section
/-! DEFINITION. `NOP`, `RESET` and the reserved event codes (30_encoding.md R70, R75, 70 R210). -/

namespace Sys2Proof.Machine

/-- `NOP`: no step (30 R70). -/
def execNop (s : State) : Host.Outcome State Fault Refusal := .next s

/-- `RESET`: always enabled (70 R210). -/
def execReset (s : State) : Host.Outcome State Fault Refusal := .next (resetOp s)

/-- A reserved event code is refused (30 R75, 93 U9). -/
def refuseReserved (op : Nat) : Host.Outcome State Fault Refusal := .refused (.reservedEvent op)

/-- `RESERVED_EV8` (30 R75). -/
def execReservedEv8 (_arg : Nat) (_s : State) : Host.Outcome State Fault Refusal := refuseReserved 8

/-- `RESERVED_EV9` (30 R75). -/
def execReservedEv9 (_arg : Nat) (_s : State) : Host.Outcome State Fault Refusal := refuseReserved 9

/-- `RESERVED_EV10` (30 R75). -/
def execReservedEv10 (_arg : Nat) (_s : State) : Host.Outcome State Fault Refusal :=
  refuseReserved 10

/-- `RESERVED_EV11` (30 R75). -/
def execReservedEv11 (_arg : Nat) (_s : State) : Host.Outcome State Fault Refusal :=
  refuseReserved 11

/-- `RESERVED_EV12` (30 R75). -/
def execReservedEv12 (_arg : Nat) (_s : State) : Host.Outcome State Fault Refusal :=
  refuseReserved 12

/-- `RESERVED_EV13` (30 R75). -/
def execReservedEv13 (_arg : Nat) (_s : State) : Host.Outcome State Fault Refusal :=
  refuseReserved 13

/-- `RESERVED_EV14` (30 R75). -/
def execReservedEv14 (_arg : Nat) (_s : State) : Host.Outcome State Fault Refusal :=
  refuseReserved 14

/-- `RESERVED_EV15` (30 R75). -/
def execReservedEv15 (_arg : Nat) (_s : State) : Host.Outcome State Fault Refusal :=
  refuseReserved 15

end Sys2Proof.Machine
end

