-- ==== Sys2Proof/Machine/Dispatch.lean ====
section
/-! DEFINITION. One arm per row of spec/opcode_table.json, each one call of its meaning. -/

namespace Sys2Proof.Machine

def exec (i : Instr) (s : State) : Host.Outcome State Fault Refusal :=
  match i with
  | .nop => Sys2Proof.Machine.execNop s
  | .arm => Sys2Proof.Machine.execArm s
  | .smp word => Sys2Proof.Machine.execSmp word s
  | .dmaerr => Sys2Proof.Machine.execDmaerr s
  | .seq => Sys2Proof.Machine.execSeq s
  | .rd field => Sys2Proof.Machine.execRd field s
  | .rdeb address => Sys2Proof.Machine.execRdeb address s
  | .reset => Sys2Proof.Machine.execReset s
  | .reservedEv8 arg => Sys2Proof.Machine.execReservedEv8 arg s
  | .reservedEv9 arg => Sys2Proof.Machine.execReservedEv9 arg s
  | .reservedEv10 arg => Sys2Proof.Machine.execReservedEv10 arg s
  | .reservedEv11 arg => Sys2Proof.Machine.execReservedEv11 arg s
  | .reservedEv12 arg => Sys2Proof.Machine.execReservedEv12 arg s
  | .reservedEv13 arg => Sys2Proof.Machine.execReservedEv13 arg s
  | .reservedEv14 arg => Sys2Proof.Machine.execReservedEv14 arg s
  | .reservedEv15 arg => Sys2Proof.Machine.execReservedEv15 arg s
  | .dispErr => Sys2Proof.Machine.execDispErr s
  | .dispHalf => Sys2Proof.Machine.execDispHalf s
  | .dispFull => Sys2Proof.Machine.execDispFull s
  | .seqNone => Sys2Proof.Machine.execSeqNone s
  | .encStep => Sys2Proof.Machine.execEncStep s
  | .seqClear => Sys2Proof.Machine.execSeqClear s
  | .seqCheck => Sys2Proof.Machine.execSeqCheck s
  | .scan data stop mask reference => Sys2Proof.Machine.execScan data stop mask reference s
  | .level word => Sys2Proof.Machine.execLevel word s
  | .deposit l => Sys2Proof.Machine.execDeposit l s
  | .vlen v => Sys2Proof.Machine.execVlen v s
  | .venc v => Sys2Proof.Machine.execVenc v s
  | .vdec bs a n => Sys2Proof.Machine.execVdec bs a n s
  | .parse bs n => Sys2Proof.Machine.execParse bs n s
  | .ebappend bs => Sys2Proof.Machine.execEbappend bs s
  | .encodeHalf half => Sys2Proof.Machine.execEncodeHalf half s
  | .seqEnter => Sys2Proof.Machine.execSeqEnter s
  | .dispatch => Sys2Proof.Machine.execDispatch s
  | .throttle => Sys2Proof.Machine.execThrottle s
  | .fatal reason half pos word => Sys2Proof.Machine.execFatal reason half pos word s
  | .rec1 v => Sys2Proof.Machine.execRec1 v s
  | .rec2 v => Sys2Proof.Machine.execRec2 v s
  | .rec3 v => Sys2Proof.Machine.execRec3 v s
  | .rec4 v => Sys2Proof.Machine.execRec4 v s
  | .rec5 v => Sys2Proof.Machine.execRec5 v s
  | .rec6 v => Sys2Proof.Machine.execRec6 v s
  | .rec7 v => Sys2Proof.Machine.execRec7 v s
  | .rec8 v => Sys2Proof.Machine.execRec8 v s
  | .rec9 v => Sys2Proof.Machine.execRec9 v s
  | .rec10 v => Sys2Proof.Machine.execRec10 v s

end Sys2Proof.Machine
end

