-- ==== Sys2Proof/Machine/Views.lean ====
section
/-! DEFINITION. What other agents may do between two visible writes of one `ENC_STEP`: the writes in
their order (20_memory.md R49, decision D16), one at a time. HOST's reads take place on `hostView`. -/

namespace Sys2Proof.Machine

/-- One more write of the emission is visible. -/
def advanceEmission (e : Emission) (s : State) : State :=
  { s with emission := some { e with seen := e.seen + 1 } }

/-- SEQ makes the next visible write of the step it is in, or the first of the step it takes
(20 R49, log 13). A record of `L` bytes has `L + 2`: its bytes, `bytes`, `last_value`, the last of
which completes the `ENC_STEP`. Every other step of SEQ has one visible write, and is taken whole,
and so is one a model refuses. -/
def execSeqWrite (s : State) : Host.Outcome State Fault Refusal :=
  if stepEnabled s .encode && (encRefusal s).isNone then
    match s.emission with
    | some e => if e.seen ≤ e.record.length then .next (advanceEmission e s) else execSeq s
    | none =>
        match scanArm s with
        | .emit bs level p => .next (startEmission bs level p s)
        | .finish _ _ => execSeq s
        | .endOfHalf _ => execSeq s
        | .syncLoss _ _ _ => execSeq s
        | .backpressure _ => execSeq s
  else execSeq s

end Sys2Proof.Machine
end

