-- ==== Sys2Proof/Machine/Step.lean ====
section
/-! DEFINITION. One step: the next item of the stimulus, decoded and run (30_encoding.md R70, log 3). -/

namespace Sys2Proof.Machine

/-- The state in which the item just taken runs: the rest of the stimulus, nothing put out yet. -/
def State.taken (s : State) (rest : List Fetch) : State :=
  { s with stimulus := rest, out := .none }

/-- One step. With no event left no agent takes a step and the state stays as it is (70 R212). -/
def step (s : State) : Host.Outcome State Fault Refusal :=
  match s.stimulus with
  | [] => .next s
  | .seqWrite :: rest => execSeqWrite (s.taken rest)
  | f :: rest =>
      match decode f with
      | .ok i => exec i (s.taken rest)
      | .error e => .refused (.undecodable e)

/-- `s` with the instruction of an opcode-table word as the next event (logs 3 and 4). -/
def State.withFetchWord (s : State) (nbits w : Nat) : State :=
  { s with stimulus := fetchOfTableWord nbits w :: s.stimulus }

end Sys2Proof.Machine
end

