-- ==== Sys2Proof/Machine/Ports.lean ====
section
/-! DEFINITION. The output ports of the block as functions of the state
(43_sample_buffer_controller.md R134, 60 R187). The inputs of that table are the events. -/

namespace Sys2Proof.Machine

/-- The output ports (43 R134) that depend on the state alone; `rd_data` and `eb_data` are
`fieldValue` and `ebByte` of the selected field and address. -/
structure OutPorts where
  syncOut : Bool
  irq : Bool
  fatal : Bool
  fatalReason : Nat
  armAck : Bool
  deriving DecidableEq, Repr

/-- The levels of the output ports (43 R134). -/
def outPorts (s : State) : OutPorts :=
  { syncOut := s.syncOut
    irq := irq s
    fatal := decide (s.mode = .fatal)
    fatalReason := reasonCode s.fatalReason
    armAck := decide (s.out = .armAck) }

/-- Width of `rd_data` (43 R134): `max(60, 1+POS_W+W, BYTES_W, 13)`. -/
def rdDataW (c : Config) : Nat := max (max 60 c.ctxW) (max c.bytesW 13)

/-- Width of `eb_addr` (43 R134): `max(1, BYTES_W)`. -/
def ebAddrW (c : Config) : Nat := max 1 c.bytesW

end Sys2Proof.Machine
end

