-- ==== Sys2Proof/Machine/Pseudo.lean ====
section
/-! DEFINITION. The pseudo-events of 30_encoding.md R72 and the big-step form of the encoder
(41_run_length_encoder.md R101). -/

namespace Sys2Proof.Machine

/-- `HALF w_0 ... w_{H-1}`: one `SMP` each, for exactly `H` words (30 R72); with another number of
words it is no pseudo-event. -/
def halfEvents (c : Config) (ws : List SampleWord) : Option (List Fetch) :=
  if ws.length = c.h then some (ws.map (fun w => encode (.smp w))) else none

/-- `SNAPSHOT`: four separate reads (30 R72). -/
def snapshotEvents : List Fetch :=
  [encode (.rd 0), encode (.rd 1), encode (.rd 2), encode (.rd 3)]

/-- `SEQ` taken `n` times; where no step is enabled it changes nothing. -/
def seqRun : Nat → State → Host.Outcome State Fault Refusal
  | 0, s => .next s
  | n + 1, s =>
      match execSeq s with
      | .next t => seqRun n t
      | .fault f => .fault f
      | .refused r => .refused r

/-- The bound of 30 R72 on the SEQ steps of one dispatch. -/
def dispatchBound (c : Config) : Nat := c.h + 4

/-- `RUN`: `SEQ` until no SEQ step is enabled (30 R72). At most the rest of one dispatch and one
more can run before every flag is served, since no DMA step falls between. -/
def runOp (s : State) : Host.Outcome State Fault Refusal :=
  seqRun (2 * dispatchBound s.cfg) s

/-- What the big-step encoder of 41 R101 returns: the bytes appended, the next free address, the
level and the duration. -/
structure BigState where
  out : List Byte
  n : Nat
  level : Level
  dur : Duration
  deriving DecidableEq, Repr

/-- The three returns of 41 R101, `syncLoss` with the index and the word, and the runs a model
refuses because a duration would reach `2^60` (93 U3, log 8). -/
inductive BigStep where
  | done (b : BigState)
  | throttled (b : BigState)
  | syncLoss (j : Nat) (word : SampleWord) (b : BigState)
  | tooLong
  deriving DecidableEq, Repr

/-- `enc` of 41 R101 on the samples still to come, `j` the index of the first of them. A sample of
the current level is skipped and counted; any other is an edge. -/
def bigEncode (c : Config) : List SampleWord → Nat → BigState → BigStep
  | [], _, b => .done b
  | x :: xs, j, b =>
      if levelOf c x = b.level then
        if b.dur.toNat + 1 < 2 ^ 60 then bigEncode c xs (j + 1) { b with dur := b.dur + 1 }
        else .tooLong
      else if x &&& c.reservedMask ≠ 0 then .syncLoss j x b
      else if c.c - b.n < maxRec then .throttled b
      else
        let r := vencOf (recordValueOf b.dur b.level)
        bigEncode c xs (j + 1)
          { out := b.out ++ r, n := b.n + r.length, level := levelOf c x, dur := durReset }

/-- The words of one half, all read from one state of `PP` (41 R101). -/
def halfWords (s : State) (half : Half) : List SampleWord :=
  (List.range s.cfg.h).map (fun i => ppWord s (halfCode half * s.cfg.h + i))

end Sys2Proof.Machine
end

