-- ==== Sys2Proof/Safety.lean ====
section
/-! DEFINITION. What a safe run is (60_exceptions.md R186, 93 U3), the premises on schedules (70 R221), the invariants of
10_state.md R37, and the projections statements speak in. -/

namespace Sys2Proof.Machine

/-- A state a successful capture may be in: "the state is never a final state of a successful
capture" is said of FATAL (60 R186). -/
def Safe (s : State) : Prop := s.mode ≠ .fatal

/-- The modes in which no SEQ step is enabled, so that several reads agree (20 R55). -/
def Quiet (s : State) : Prop := s.mode = .suspended ∨ s.mode = .fatal ∨ s.mode = .idle

/-- The budget of one dispatch in microseconds, `H / F_S` (70 R221). No rule depends on it. -/
def budgetMicros (c : Config) : Nat := c.h * 1000000 / c.fS

/-- The DMA is writing into the half being processed (45 R165). -/
def dmaInside (s : State) : Half → Prop
  | .half0 => s.wrPtr < s.cfg.h
  | .half1 => s.cfg.h ≤ s.wrPtr

/-- Every word of a half has been written since the last `RESET`. -/
def halfWritten (s : State) (half : Half) : Prop :=
  ∀ i, i < s.cfg.h → (Memory.read s.pp (halfCode half * s.cfg.h + i)).isSome = true

/-- The invariant of the block: 10 R37 items 1 to 9, the widths of 10 R10, the canonical form and
the ranges of the memories, the register values of 60 R181. -/
structure Inv (s : State) : Prop where
  /-- the configuration is well-formed (00 R7). -/
  wf : s.cfg.WF
  /-- R37 item 1. -/
  bytesLe : s.bytes ≤ s.cfg.c
  /-- R37 item 2. -/
  scanLe : s.scanPos ≤ s.cfg.h
  /-- R37 item 2. -/
  ptrLt : s.wrPtr < 2 * s.cfg.h
  /-- R37 item 3. -/
  fatalIff : s.mode = .fatal ↔ s.fatalReason ≠ .none
  /-- R37 item 4. -/
  idleQuiet : s.mode = .idle →
    s.irqEn = false ∧ s.ht = false ∧ s.tc = false ∧ s.err = false ∧ s.wrPtr = 0 ∧ s.bytes = 0 ∧
      s.seqState = .idle
  /-- R37 item 5. -/
  suspendedMasked : s.mode = .suspended → s.irqEn = false ∧ s.seqState = .idle
  /-- R37 item 6. -/
  servingEnabled : s.mode = .armed ∨ s.mode = .running → s.irqEn = true
  /-- R37 item 7. -/
  dispatchMode : s.seqState ≠ .idle → s.mode = .running ∨ s.mode = .fatal
  /-- R37 item 7, where a dispatch died. -/
  frozen : s.mode = .fatal →
    (s.seqState = .encode ↔ s.fatalReason = .syncLoss) ∧
    (s.seqState = .check ↔ s.fatalReason = .overrun) ∧
    (s.seqState = .idle ↔ s.fatalReason = .dmaError)
  /-- R37 item 8. -/
  armedFresh : s.mode = .armed → s.bytes = 0 ∧ s.lastDuration = 0 ∧ s.seqState = .idle
  /-- R37 item 9: the valid bytes are whole records of minimum length. -/
  recordsWhole : (parseOf (ebData s) s.bytes).isSome = true
  /-- every valid byte has been written. -/
  bytesWritten : ∀ a, a < s.bytes → (Memory.read s.eb a).isSome = true
  /-- canonical form of `PP`, and its cells are words of the buffer (10 R32). -/
  ppWf : Memory.wf s.pp
  ppRange : ∀ a w, Memory.read s.pp a = some w → a < 2 * s.cfg.h ∧ w < 2 ^ s.cfg.w
  /-- canonical form of `EB`, and its addresses exist (10 R33). -/
  ebWf : Memory.wf s.eb
  ebRange : ∀ a b, Memory.read s.eb a = some b → a < s.cfg.c
  /-- a record is becoming visible only within an `ENC_STEP`, in the space the step has checked
  (41 R93), and at least one of its writes is to come (20 R49). -/
  emitting : ∀ e, s.emission = some e →
    s.seqState = .encode ∧ s.mode = .running ∧ s.bytes + 10 ≤ s.cfg.c ∧
      1 ≤ e.seen ∧ e.seen ≤ e.record.length + 1 ∧ ∃ v, e.record = vencOf v
  /-- width of `fatal_ctx` (10 R28), and 60 R181 for code 0. -/
  ctxLt : s.fatalCtx < 2 ^ s.cfg.ctxW
  ctxZero : s.fatalReason = .none → s.fatalCtx = 0

/-- The invariant behind 45 R168 and R170: what the flags and the write pointer say about the
words written. It speaks of modes ARMED and RUNNING, in which dispatches are served. -/
structure BufferInv (s : State) : Prop where
  base : Inv s
  /-- the slots below the write pointer have been written. -/
  written : ∀ i, i < s.wrPtr → (Memory.read s.pp i).isSome = true
  /-- `HT` announces half 0 (20 R51). -/
  htWritten : s.ht = true → halfWritten s .half0
  /-- `TC` announces half 1 (20 R51). -/
  tcWritten : s.tc = true → halfWritten s .half1
  /-- the flag of the half being encoded is still set until `SEQ_CLEAR`. -/
  ownSet : s.mode = .running → s.seqState = .encode ∨ s.seqState = .clear →
    ownFlag s s.curHalf = true
  /-- 45 R170 for half 0: with `HT` set, a DMA back inside half 0 has set `TC`. -/
  htAhead : modeServes s.mode = true → s.ht = true → s.wrPtr < s.cfg.h →
    s.tc = true ∨ (s.curHalf = .half1 ∧ s.seqState = .check)
  /-- 45 R170 for half 1: with `TC` set, a DMA back inside half 1 has set `HT`. -/
  tcAhead : modeServes s.mode = true → s.tc = true → s.cfg.h ≤ s.wrPtr →
    s.ht = true ∨ (s.curHalf = .half0 ∧ s.seqState = .check)

end Sys2Proof.Machine
end

