-- ==== Sys2Proof/Certificates/Slice0/Obligations.lean ====
section
/-! DEFINITION. The statements for the provers: what the numbered rules of spec/ say an operation or the
machine does. `Sys2Proof.Claims` holds the vocabulary they share. -/

namespace Sys2Proof.Claims

open Sys2Proof.Machine

/-- The machine's outcome type. -/
abbrev Out := Host.Outcome State Fault Refusal

/-- Word `i` of the half being processed (41 R91: `PP[base + i]`). -/
def word (s : State) (i : Nat) : SampleWord := ppWord s (halfCode s.curHalf * s.cfg.h + i)

/-- A dispatch may begin: `S_IDLE`, ARMED or RUNNING, interrupts enabled (44 R146). -/
def ready (s : State) : Prop :=
  s.seqState = .idle ∧ (s.mode = .armed ∨ s.mode = .running) ∧ s.irqEn = true

/-- A new `ENC_STEP` is enabled (41 R91), in a well-formed configuration, with `scan_pos` in its
range. -/
def encoding (s : State) : Prop :=
  s.cfg.WF ∧ s.seqState = .encode ∧ s.mode = .running ∧ s.scanPos ≤ s.cfg.h ∧ s.emission = none

/-- The state in which the item just taken from the stimulus runs. -/
def taking (s : State) (rest : List Fetch) : State := { s with stimulus := rest, out := .none }

/-- A dispatch is in progress and the flag of the half it does not process is set (44 R151). -/
def overdue (s : State) : Prop :=
  s.mode = .running ∧ s.seqState ≠ .idle ∧
    ((s.curHalf = .half0 ∧ s.tc = true) ∨ (s.curHalf = .half1 ∧ s.ht = true))

/-- Every sample from `a` up to `b` has the level of the open interval. -/
def quietSpan (s : State) (a b : Nat) : Prop :=
  ∀ i, a ≤ i → i < b → levelOf s.cfg (word s i) = s.lastValue

/-- `p` is the next edge of the half (40 R85, 41 R101). -/
def edgeAt (s : State) (p : Nat) : Prop :=
  s.scanPos ≤ p ∧ p < s.cfg.h ∧ quietSpan s s.scanPos p ∧ levelOf s.cfg (word s p) ≠ s.lastValue

/-- Where the next scan stops: at the next edge, or at the end of the half (40 R83). -/
def stopAt (s : State) (p : Nat) : Prop :=
  edgeAt s p ∨ (p = s.cfg.h ∧ quietSpan s s.scanPos s.cfg.h)

/-- The duration accumulated up to position `p` stays below `2^60` (10 R14, 93 U3). -/
def fits (s : State) (p : Nat) : Prop := s.durAcc.toNat + (p - s.scanPos) < 2 ^ 60

/-- A dispatch that begins now cannot reach a duration of `2^60`, whatever the samples. -/
def dispatchFits (s : State) : Prop := s.err = true ∨ s.lastDuration.toNat + s.cfg.h < 2 ^ 60

/-- What a `DISPATCH` from `s` that has ended in `t` with the outcome `o` leaves (44 R145). -/
def dispatchEnds (s t : State) (o : DispatchOutcome) : Prop :=
  (t.pp = s.pp ∧ t.wrPtr = s.wrPtr ∧ t.syncOut = s.syncOut ∧ t.err = s.err ∧ t.cfg = s.cfg ∧
    t.epoch = s.epoch ∧ t.stimulus = s.stimulus) ∧
  (s.bytes ≤ t.bytes ∧ t.bytes ≤ s.cfg.c ∧
    ∀ a, a < s.bytes ∨ t.bytes ≤ a → Memory.read t.eb a = Memory.read s.eb a) ∧
  (o = .fatal .dmaError ↔ s.err = true) ∧
  (o = .normal → t.seqState = .idle ∧ t.mode = .running ∧ t.irqEn = true ∧
    t.ht = false ∧ t.tc = false) ∧
  (o = .suspended → t.seqState = .idle ∧ t.mode = .suspended ∧ t.irqEn = false ∧
    t.ht = s.ht ∧ t.tc = s.tc) ∧
  (∀ r, o = .fatal r → t.mode = .fatal ∧ t.fatalReason = r ∧ r ≠ .none)

/-- The duration accumulated up to position `p` (41 R91). -/
def elapsed (s : State) (p : Nat) : Duration :=
  BitVec.ofNat 60 (s.durAcc.toNat + (p - s.scanPos))

/-- The bytes of the record of one interval: `VENC` of `duration * 16 + level` (30 R64). -/
def recordOf (d : Duration) (l : Level) : List Byte :=
  vencOf (BitVec.ofNat 64 (16 * d.toNat + l.toNat))

/-- `EB` of `t` is `EB` of `s` with `bs` stored from address `a0` on, every other byte as before. -/
def ebStored (s t : State) (a0 : Nat) (bs : List Byte) : Prop :=
  ∀ a, Memory.read t.eb a =
    if a0 ≤ a ∧ a < a0 + bs.length then bs[a - a0]? else Memory.read s.eb a

/-- `fatal_ctx` holds these three fields (10 R28). -/
def ctxHolds (t : State) (half : Half) (pos word : Nat) : Prop :=
  t.fatalCtx < 2 ^ t.cfg.ctxW ∧ ctxHalf t.fatalCtx = halfCode half ∧
    ctxPos t.cfg t.fatalCtx = pos ∧ ctxWord t.cfg t.fatalCtx = word

/-- The value a record row carries (30 R65): all bits of its groups, bit 63 set in `REC10`. -/
def recordRowValue : Instr → Option Nat
  | .rec1 v => some v.toNat
  | .rec2 v => some v.toNat
  | .rec3 v => some v.toNat
  | .rec4 v => some v.toNat
  | .rec5 v => some v.toNat
  | .rec6 v => some v.toNat
  | .rec7 v => some v.toNat
  | .rec8 v => some v.toNat
  | .rec9 v => some v.toNat
  | .rec10 v => some (2 ^ 63 + v.toNat)
  | _ => none

/-- Running a list of operations, each of which has to answer a next state. -/
def runOps : List Instr → State → Option State
  | [], s => some s
  | i :: is, s =>
      match exec i s with
      | .next t => runOps is t
      | .fault _ => none
      | .refused _ => none

/-- One event other than `RESET`, or one visible write of SEQ, as a step of the machine. -/
def eventStep (s t : State) : Prop :=
  (∃ e i, decodeEvent e = .ok i ∧ i ≠ .reset ∧ step { s with stimulus := [.event e] } = .next t) ∨
  step { s with stimulus := [.seqWrite] } = .next t

/-- `n` visible writes of SEQ, one step of the machine each. -/
def seqWrites : Nat → State → Option State
  | 0, s => some s
  | n + 1, s =>
      match step { s with stimulus := .seqWrite :: s.stimulus } with
      | .next t => seqWrites n t
      | .fault _ => none
      | .refused _ => none

/-- A run by events other than `RESET` that stays in mode RUNNING. -/
def runningChain : State → List State → Prop
  | _, [] => True
  | s, t :: ts => eventStep s t ∧ t.mode = .running ∧ runningChain t ts

/-- The moves of 10 R38 for one event. -/
def modeMove (i : Instr) (m m' : Mode) : Prop :=
  (i = .reset ∧ m' = .idle) ∨
  (i ≠ .reset ∧ m' = m) ∨
  (i = .arm ∧ m ≠ .fatal ∧ m' = .armed) ∨
  (i = .seq ∧ m = .armed ∧ (m' = .running ∨ m' = .fatal)) ∨
  (i = .seq ∧ m = .running ∧ (m' = .suspended ∨ m' = .fatal))

end Sys2Proof.Claims

open Sys2Proof Sys2Proof.Machine Sys2Proof.Claims

/-! ## The machine -/

/-- The reset state of every well-formed configuration meets the invariants (10 R36, R37). The
configuration of `State.reset` is the model's choice (log 1). -/
def Obligations.ResetMeetsInvariant : Prop :=
  (∀ c : Config, c.WF → BufferInv (State.resetFor c)) ∧ BufferInv State.reset

/-- Every step keeps 10 R37 items 1 to 9 and the ranges and forms of `Inv`. -/
def Obligations.StepKeepsInvariant : Prop :=
  ∀ s t : State, Inv s → step s = .next t → Inv t

/-- Every step keeps what the flags and the write pointer say (45 R168, R170). -/
def Obligations.StepKeepsBufferInvariant : Prop :=
  ∀ s t : State, BufferInv s → step s = .next t → BufferInv t

/-- `step` takes the next stimulus item away and runs the instruction it decodes to (30 R70);
with no item left the state stays, and what does not decode is refused by its name (logs 3, 4). -/
def Obligations.StepRunsDecodedInstruction : Prop :=
  (∀ (s : State) (f : Fetch) (rest : List Fetch) (i : Instr), s.stimulus = f :: rest →
    decode f = .ok i → step s = exec i { s with stimulus := rest, out := .none }) ∧
  (∀ s : State, s.stimulus = [] → step s = .next s) ∧
  (∀ (s : State) (f : Fetch) (rest : List Fetch) (e : DecodeError), s.stimulus = f :: rest →
    f ≠ .seqWrite → decode f = .error e → step s = .refused (.undecodable e))

/-- `seqWrite` takes SEQ one visible write further (20 R49). An `ENC_STEP` whose writes have begun
advances by one and is completed by the last, every other step of SEQ is taken whole, and an
`ENC_STEP` that emits a record begins with its first write. The stimulus item and the field
`emission` are the model's choice (log 13). -/
def Obligations.SeqWriteMakesOneVisibleWrite : Prop :=
  ∀ (s : State) (rest : List Fetch), s.stimulus = .seqWrite :: rest →
    (s.seqState ≠ .encode ∨ s.mode ≠ .running → step s = exec .seq (taking s rest)) ∧
    (s.seqState = .encode → s.mode = .running → s.scanPos ≤ s.cfg.h →
      (∀ e, s.emission = some e →
        (e.seen ≤ e.record.length → step s =
          .next { taking s rest with emission := some { e with seen := e.seen + 1 } }) ∧
        (e.record.length < e.seen → step s = exec .seq (taking s rest))) ∧
      (s.cfg.WF → s.emission = none →
        (quietSpan s s.scanPos s.cfg.h → step s = exec .seq (taking s rest)) ∧
        ∀ p, edgeAt s p →
          (word s p &&& s.cfg.reservedMask ≠ 0 ∨ s.cfg.c < s.bytes + 10 ∨ ¬ fits s p →
            step s = exec .seq (taking s rest)) ∧
          (word s p &&& s.cfg.reservedMask = 0 → s.bytes + 10 ≤ s.cfg.c → fits s p →
            step s = .next { taking s rest with
              durAcc := 0, scanPos := p + 1,
              emission := some {
                record := recordOf (elapsed s p) s.lastValue
                level := levelOf s.cfg (word s p)
                seen := 1 } })))

/-! ## Encoding -/

/-- Decoding what the encoder writes gives the instruction back, for every row that can be
fetched, with every operand. -/
def Obligations.DecodeEncodeAgree : Prop :=
  ∀ i : Instr, i.isInner = false → decode (encode i) = .ok i

/-- No bit of an event word is dropped: an event word that decodes is the encoding of what it
decodes to (30 R71). -/
def Obligations.EncodeDecodeEventWord : Prop :=
  ∀ (e : Nat) (i : Instr), decodeEvent e = .ok i → encode i = .event e

/-- The key patterns of 30 R69 are disjoint and cover all 32 keys, and the decoder follows them. -/
def Obligations.KeyRowsPartitionKeys : Prop :=
  ∀ k : BitVec 5, (keyRows.filter (fun r => r.hit k)).map (fun r => r.op.instr) = [decodeKey k]

/-- Words of 30 R71 and R69 and records of 95 V-VENC decode to what they stand for. -/
def Obligations.DecodeExampleWords : Prop :=
  decode (.event 0x01) = .ok .arm ∧ decode (.event 0x62) = .ok (.smp 6) ∧
  decode (.event 0x80012) = .ok (.smp 0x8001) ∧ decode (.event 0x03) = .ok .dmaerr ∧
  decode (.event 0x04) = .ok .seq ∧ decode (.event 0x15) = .ok (.rd 1) ∧
  decode (.event 0x06) = .ok (.rdeb 0) ∧ decode (.event 0x07) = .ok .reset ∧
  decode (.key 0b00101) = .ok .dispErr ∧ decode (.key 0b00011) = .ok .dispHalf ∧
  decode (.key 0b00010) = .ok .dispFull ∧ decode (.key 0b01111) = .ok .encStep ∧
  decode (.record [0x25]) = .ok (.rec1 0x25) ∧ decode (.record [0xCA, 0x25]) = .ok (.rec2 4810)

/-! ## Events -/

/-- `NOP` and `SEQ_NONE` are no step (30 R69, R70). -/
def Obligations.IdleRowsLeaveState : Prop :=
  ∀ s : State, exec .nop s = .next s ∧ exec .seqNone s = .next s

/-- `ARM`, enabled when `seq_state = S_IDLE` and `mode != FATAL`, writes what 43 R125 lists and
nothing else, and `arm_ack` answers it (43 R134, log 5); where it is not enabled the state stays
(30 R70, log 10). -/
def Obligations.ArmOpensSession : Prop :=
  ∀ s : State,
    (s.seqState = .idle → s.mode ≠ .fatal →
      exec .arm s = .next { s with
        irqEn := true, wrPtr := 0, ht := false, tc := false, err := false, bytes := 0,
        lastDuration := 0, mode := .armed, out := .armAck }) ∧
    (s.seqState ≠ .idle ∨ s.mode = .fatal → exec .arm s = .next s)

/-- `SMP(w)`: the word, the sync line, `HT` and `TC` at the half ends, the pointer; not enabled in
IDLE and FATAL (43 R128, log 10). A word that is not `W` bits wide is refused (93 U9, log 11). -/
def Obligations.SmpWritesSample : Prop :=
  ∀ (s : State) (w : SampleWord),
    (s.cfg.WF → (s.mode = .armed ∨ s.mode = .running ∨ s.mode = .suspended) → w < 2 ^ s.cfg.w →
      s.wrPtr < 2 * s.cfg.h →
      ∃ t, exec (.smp w) s = .next t ∧
        t = { s with
          pp := t.pp, syncOut := !s.syncOut,
          ht := if s.wrPtr = s.cfg.h - 1 then true else s.ht,
          tc := if s.wrPtr = 2 * s.cfg.h - 1 then true else s.tc,
          wrPtr := if s.wrPtr = 2 * s.cfg.h - 1 then 0 else s.wrPtr + 1 } ∧
        ∀ i, Memory.read t.pp i = if i = s.wrPtr then some w else Memory.read s.pp i) ∧
    (w < 2 ^ s.cfg.w → (s.mode = .idle ∨ s.mode = .fatal) → exec (.smp w) s = .next s) ∧
    (2 ^ s.cfg.w ≤ w → exec (.smp w) s = .refused (.wordTooWide w))

/-- `DMAERR` sets `ERR` and nothing else; not enabled in IDLE and FATAL (43 R130, log 10). -/
def Obligations.DmaerrSetsErr : Prop :=
  ∀ s : State,
    ((s.mode = .armed ∨ s.mode = .running ∨ s.mode = .suspended) →
      exec .dmaerr s = .next { s with err := true }) ∧
    ((s.mode = .idle ∨ s.mode = .fatal) → exec .dmaerr s = .next s)

/-- `RD STATUS` returns the thirteen bits of 10 R29, with the codes of R26, R27, R17 and R16, and
changes nothing else (20 R47). -/
def Obligations.RdStatusLayout : Prop :=
  ∀ s : State, ∃ v, exec (.rd 0) s = .next { s with out := .field 0 v } ∧ v < 2 ^ 13 ∧
    (v % 8 = match s.mode with
      | .idle => 0 | .armed => 1 | .running => 2 | .suspended => 3 | .fatal => 4) ∧
    (v / 2 ^ 3 % 4 = match s.fatalReason with
      | .none => 0 | .syncLoss => 1 | .dmaError => 2 | .overrun => 3) ∧
    v / 2 ^ 5 % 2 = s.irqEn.toNat ∧ v / 2 ^ 6 % 2 = s.ht.toNat ∧ v / 2 ^ 7 % 2 = s.tc.toNat ∧
    v / 2 ^ 8 % 2 = s.err.toNat ∧
    (v / 2 ^ 9 % 4 = match s.seqState with | .idle => 0 | .encode => 1 | .clear => 2 | .check => 3) ∧
    (v / 2 ^ 11 % 2 = match s.curHalf with | .half0 => 0 | .half1 => 1) ∧
    v / 2 ^ 12 % 2 = s.syncOut.toNat

/-- `RD` of the fields 1 to 4 returns the register, whole; 5 and above are refused (10 R30, R31).
While a record becomes visible, `bytes` is read as advanced once all its bytes are (20 R49). -/
def Obligations.RdReadsRegisters : Prop :=
  ∀ s : State,
    (s.emission = none → exec (.rd 1) s = .next { s with out := .field 1 s.bytes }) ∧
    (∀ e, s.emission = some e → e.seen ≤ e.record.length →
      exec (.rd 1) s = .next { s with out := .field 1 s.bytes }) ∧
    (∀ e, s.emission = some e → e.record.length < e.seen →
      exec (.rd 1) s = .next { s with out := .field 1 (s.bytes + e.record.length) }) ∧
    exec (.rd 2) s = .next { s with out := .field 2 s.lastValue.toNat } ∧
    exec (.rd 3) s = .next { s with out := .field 3 s.lastDuration.toNat } ∧
    exec (.rd 4) s = .next { s with out := .field 4 s.fatalCtx } ∧
    ∀ f, 5 ≤ f → exec (.rd f) s = .refused (.reservedField f)

/-- `RDEB(a)` with `a < C` answers a byte, the one stored at `a` where `a < bytes`, and changes
nothing else; once `bytes` is seen as advanced past a record, it answers its bytes (20 R49);
`a >= C` is refused (43 R133, 20 R48). Which byte it answers at and above `bytes` is a free value
(log 7). -/
def Obligations.RdebReadsByte : Prop :=
  ∀ (s : State) (a : Nat),
    (a < s.cfg.c → ∃ b, exec (.rdeb a) s = .next { s with out := .byte b } ∧
      (∀ v, a < s.bytes → Memory.read s.eb a = some v → b = v) ∧
      ∀ e v, s.emission = some e → e.record.length < e.seen → s.bytes ≤ a →
        e.record[a - s.bytes]? = some v → b = v) ∧
    (s.cfg.c ≤ a → exec (.rdeb a) s = .refused (.ebAddress a))

/-- `RESET` gives every register the RESET column of 10 R36, in every state (70 R210), and leaves no
cell of `PP` and `EB` with a value (70 R211, log 6). -/
def Obligations.ResetClearsBlock : Prop :=
  ∀ s : State, ∃ t, exec .reset s = .next t ∧
    t.lastValue = 0 ∧ t.lastDuration = 0 ∧ t.bytes = 0 ∧ t.durAcc = 0 ∧ t.scanPos = 0 ∧
    t.curHalf = .half0 ∧ t.seqState = .idle ∧ t.wrPtr = 0 ∧ t.syncOut = false ∧
    t.ht = false ∧ t.tc = false ∧ t.err = false ∧ t.irqEn = false ∧ t.mode = .idle ∧
    t.fatalReason = .none ∧ t.fatalCtx = 0 ∧ t.emission = none ∧ t.cfg = s.cfg ∧
    t.stimulus = s.stimulus ∧ ∀ i, Memory.read t.pp i = none ∧ Memory.read t.eb i = none

/-- A reserved event code is refused, whatever its argument (30 R75, 93 U9). -/
def Obligations.ReservedEventsRefused : Prop :=
  ∀ (s : State) (a : Nat),
    exec (.reservedEv8 a) s = .refused (.reservedEvent 8) ∧
    exec (.reservedEv9 a) s = .refused (.reservedEvent 9) ∧
    exec (.reservedEv10 a) s = .refused (.reservedEvent 10) ∧
    exec (.reservedEv11 a) s = .refused (.reservedEvent 11) ∧
    exec (.reservedEv12 a) s = .refused (.reservedEvent 12) ∧
    exec (.reservedEv13 a) s = .refused (.reservedEvent 13) ∧
    exec (.reservedEv14 a) s = .refused (.reservedEvent 14) ∧
    exec (.reservedEv15 a) s = .refused (.reservedEvent 15)

/-- After `n` `SMP`s from slot 0 the pointer, the sync line, the flags and the last words are
those of the position law (43 R129), and every slot not written is as before, whatever `IRQ_EN`,
`ERR` and `seq_state` are (10 R21). -/
def Obligations.SamplePositionLaw : Prop :=
  ∀ (s : State) (ws : List SampleWord), s.cfg.WF →
    (s.mode = .armed ∨ s.mode = .running ∨ s.mode = .suspended) → s.wrPtr = 0 →
    (∀ w ∈ ws, w < 2 ^ s.cfg.w) →
    ∃ t, runOps (ws.map Instr.smp) s = some t ∧
      t.wrPtr = ws.length % (2 * s.cfg.h) ∧
      t.syncOut = (s.syncOut ^^ decide (ws.length % 2 = 1)) ∧
      t.ht = (s.ht || decide (s.cfg.h ≤ ws.length)) ∧
      t.tc = (s.tc || decide (2 * s.cfg.h ≤ ws.length)) ∧
      (∀ j w, ws[j]? = some w → ws.length ≤ j + 2 * s.cfg.h →
        Memory.read t.pp (j % (2 * s.cfg.h)) = some w) ∧
      (∀ i, (∀ j, j < ws.length → i ≠ j % (2 * s.cfg.h)) →
        Memory.read t.pp i = Memory.read s.pp i) ∧
      t = { s with pp := t.pp, wrPtr := t.wrPtr, syncOut := t.syncOut, ht := t.ht, tc := t.tc }

/-! ## The sequencer -/

/-- Entry of a dispatch: error, then half, then full, as `SEQ`, as `SEQ_ENTER` and as the row of
the cause (44 R146 to R149, 60 R192 item 1). -/
def Obligations.EntryTakesCause : Prop :=
  ∀ s : State, ready s →
    (s.err = true → ∀ i ∈ [Instr.seq, .seqEnter, .dispErr],
      exec i s = .next { s with mode := .fatal, fatalReason := .dmaError, fatalCtx := 0 }) ∧
    (s.err = false → s.ht = true → ∀ i ∈ [Instr.seq, .seqEnter, .dispHalf],
      exec i s = .next { s with
        curHalf := .half0, scanPos := 0, durAcc := s.lastDuration, mode := .running,
        seqState := .encode }) ∧
    (s.err = false → s.ht = false → s.tc = true → ∀ i ∈ [Instr.seq, .seqEnter, .dispFull],
      exec i s = .next { s with
        curHalf := .half1, scanPos := 0, durAcc := s.lastDuration, mode := .running,
        seqState := .encode })

/-- `SEQ_ENTER` is enabled exactly when `irq = 1`, `seq_state = S_IDLE` and `mode` is ARMED or
RUNNING (10 R25): elsewhere no entry row changes the state, and `DISPATCH` does nothing (logs 10, 15). -/
def Obligations.EntryWaits : Prop :=
  ∀ s : State,
    ¬ (ready s ∧ (s.err = true ∨ s.ht = true ∨ s.tc = true)) →
    (∀ i ∈ [Instr.seqEnter, .dispErr, .dispHalf, .dispFull, .dispatch], exec i s = .next s) ∧
    (s.seqState = .idle → exec .seq s = .next s)

/-- `SEQ` takes the one step the key `K = seq_state ++ ERR ++ TC ++ HT` selects (30 R69). -/
def Obligations.SeqTakesKeyRow : Prop :=
  ∀ s : State, ∃ k : BitVec 5,
    k.toNat = 8 * seqStateCode s.seqState + 4 * s.err.toNat + 2 * s.tc.toNat + s.ht.toNat ∧
    exec .seq s = exec (decodeKey k) s

/-- `SEQ_CLEAR` clears the flag of the half just processed; enabled when `seq_state = S_CLEAR` and
`mode = RUNNING` (44 R150); elsewhere the state stays (log 10). -/
def Obligations.SeqClearClearsOwnFlag : Prop :=
  ∀ s : State,
    (s.seqState = .clear → s.mode = .running → ∀ i ∈ [Instr.seqClear, .seq],
      (s.curHalf = .half0 → exec i s = .next { s with ht := false, seqState := .check }) ∧
      (s.curHalf = .half1 → exec i s = .next { s with tc := false, seqState := .check })) ∧
    (s.seqState ≠ .clear ∨ s.mode ≠ .running → exec .seqClear s = .next s)

/-- `SEQ_CHECK` ends the dispatch, or raises `Fatal(OVERRUN)` when the other half's flag is 1;
enabled when `seq_state = S_CHECK` and `mode = RUNNING` (44 R151, 60 R181); elsewhere the state
stays (log 10). -/
def Obligations.SeqCheckFindsOverrun : Prop :=
  ∀ s : State,
    (s.seqState = .check → s.mode = .running → ∀ i ∈ [Instr.seqCheck, .seq],
      ((s.curHalf = .half0 ∧ s.tc = false) ∨ (s.curHalf = .half1 ∧ s.ht = false) →
        exec i s = .next { s with seqState := .idle }) ∧
      ((s.curHalf = .half0 ∧ s.tc = true) ∨ (s.curHalf = .half1 ∧ s.ht = true) →
        exec i s = .next { s with
          mode := .fatal, fatalReason := .overrun, fatalCtx := halfCode s.curHalf })) ∧
    (s.seqState ≠ .check ∨ s.mode ≠ .running → exec .seqCheck s = .next s)

/-- A `DISPATCH` ends in one of the outcomes of 44 R145, each with the state it says; no other
agent's state changes, and of `EB` only the bytes appended. The row runs uninterrupted (log 15).
The one run a model refuses is a duration that would reach `2^60` (93 U3, log 8). -/
def Obligations.DispatchOutcomes : Prop :=
  ∀ s : State, Inv s → ready s → (s.err = true ∨ s.ht = true ∨ s.tc = true) →
    (dispatchFits s →
      ∃ t o, exec .dispatch s = .next t ∧ t.out = .dispatched o ∧ dispatchEnds s t o) ∧
    (exec .dispatch s = .refused .durationOverflow ∨
      ∃ t o, exec .dispatch s = .next t ∧ t.out = .dispatched o ∧ dispatchEnds s t o)

/-- With `HT` and `TC` both pending at entry the outcome of an uninterrupted `DISPATCH` (log 15) is
never `Normal` (44 R154, 45 R173). `OtherFlagHeldUntilCheck` says it with other agents' steps
between. -/
def Obligations.BothFlagsNeverNormal : Prop :=
  ∀ s : State, Inv s → ready s → s.err = false → s.ht = true → s.tc = true →
    (dispatchFits s → ∃ t, exec .dispatch s = .next t) ∧
    ∀ t, exec .dispatch s = .next t → ∃ o, t.out = .dispatched o ∧
      (o = .fatal .overrun ∨ o = .suspended ∨ o = .fatal .syncLoss)

/-- A dispatch ends within `H + 4` SEQ steps, and `RUN` comes to a state in which no SEQ step is
enabled (30 R72, 70 R220), unless a duration would reach `2^60` on the way (93 U3, log 8), which
cannot be while both durations are `2 H` below it. -/
def Obligations.DispatchEndsWithinBound : Prop :=
  ∀ s : State, Inv s →
    ((s.mode = .running ∧ s.seqState ≠ .idle) ∨ enterEnabled s = true →
      ∃ k, 1 ≤ k ∧ k ≤ s.cfg.h + 4 ∧
        (seqRun k s = .refused .durationOverflow ∨
          ∃ t, seqRun k s = .next t ∧ (t.seqState = .idle ∨ t.mode = .fatal))) ∧
    (runOp s = .refused .durationOverflow ∨ ∃ t, runOp s = .next t ∧ seqEnabled t = false) ∧
    (s.durAcc.toNat + 2 * s.cfg.h < 2 ^ 60 → s.lastDuration.toNat + 2 * s.cfg.h < 2 ^ 60 →
      ∃ t, runOp s = .next t)

/-! ## The encoder -/

/-- No further edge: the duration is stored and the half is finished (41 R96). -/
def Obligations.EncStepEndOfHalf : Prop :=
  ∀ s : State, encoding s → quietSpan s s.scanPos s.cfg.h → fits s s.cfg.h →
    exec .encStep s = .next { s with
      durAcc := elapsed s s.cfg.h, lastDuration := elapsed s s.cfg.h, scanPos := s.cfg.h,
      seqState := .clear }

/-- An edge with 10 bytes free: one record, with the level before the edge, is appended; the new
level becomes the reference; the accumulator restarts at 0 just past the edge (41 R91, R94). -/
def Obligations.EncStepEmitsRecord : Prop :=
  ∀ (s : State) (p : Nat), encoding s → edgeAt s p → fits s p →
    word s p &&& s.cfg.reservedMask = 0 → s.bytes + 10 ≤ s.cfg.c →
    ∃ t, exec .encStep s = .next t ∧
      t = { s with
        eb := t.eb, bytes := s.bytes + (recordOf (elapsed s p) s.lastValue).length,
        lastValue := levelOf s.cfg (word s p), durAcc := 0, scanPos := p + 1 } ∧
      ebStored s t s.bytes (recordOf (elapsed s p) s.lastValue)

/-- An edge with fewer than 10 bytes free throttles, however short its record (41 R93, R95). -/
def Obligations.EncStepThrottles : Prop :=
  ∀ (s : State) (p : Nat), encoding s → edgeAt s p → fits s p →
    word s p &&& s.cfg.reservedMask = 0 → s.cfg.c < s.bytes + 10 →
    exec .encStep s = .next { s with
      durAcc := elapsed s p, lastDuration := elapsed s p, irqEn := false, mode := .suspended,
      seqState := .idle }

/-- An edge sample with reserved bits set raises `Fatal(SYNC_LOSS)`, whatever space is left
(41 R92, R97, 60 R181, R186). -/
def Obligations.EncStepSyncLoss : Prop :=
  ∀ (s : State) (p : Nat), encoding s → edgeAt s p → fits s p → word s p < 2 ^ s.cfg.w →
    word s p &&& s.cfg.reservedMask ≠ 0 →
    ∃ t, exec .encStep s = .next t ∧
      t = { s with
        durAcc := elapsed s p, mode := .fatal, fatalReason := .syncLoss,
        fatalCtx := t.fatalCtx } ∧
      ctxHolds t s.curHalf p (word s p)

/-- `ENCODE_HALF` as one function: the repeated `ENC_STEP`s, uninterrupted (log 15), give what `enc`
of 41 R101 returns. Of `scan_pos` R101 speaks only where the half is done. A duration that would
reach `2^60` is refused by both (93 U3, log 8). -/
def Obligations.EncodeHalfIsBigStep : Prop :=
  ∀ s : State, encoding s → s.scanPos = 0 → s.bytes ≤ s.cfg.c →
    match bigEncode s.cfg (halfWords s s.curHalf) 0
        { out := [], n := s.bytes, level := s.lastValue, dur := s.durAcc } with
    | .tooLong => exec (.encodeHalf s.curHalf) s = .refused .durationOverflow
    | .done b => ∃ t, exec (.encodeHalf s.curHalf) s = .next t ∧
        t = { s with
          eb := t.eb, bytes := b.n, lastValue := b.level, lastDuration := b.dur,
          durAcc := b.dur, scanPos := s.cfg.h, seqState := .clear, out := .encoded .done } ∧
        ebStored s t s.bytes b.out ∧ b.n = s.bytes + b.out.length
    | .throttled b => ∃ t, exec (.encodeHalf s.curHalf) s = .next t ∧
        t = { s with
          eb := t.eb, bytes := b.n, lastValue := b.level, lastDuration := b.dur,
          durAcc := b.dur, scanPos := t.scanPos, irqEn := false, mode := .suspended,
          seqState := .idle, out := .encoded .throttled } ∧
        ebStored s t s.bytes b.out ∧ b.n = s.bytes + b.out.length
    | .syncLoss j w b => ∃ t, exec (.encodeHalf s.curHalf) s = .next t ∧
        t = { s with
          eb := t.eb, bytes := b.n, lastValue := b.level, durAcc := b.dur,
          scanPos := t.scanPos, mode := .fatal, fatalReason := .syncLoss,
          fatalCtx := packCtx s.cfg s.curHalf j w, out := .encoded .fatalSyncLoss } ∧
        ebStored s t s.bytes b.out ∧ b.n = s.bytes + b.out.length

/-- A half without an edge leaves `bytes`, `EB` and `last_value` and adds exactly the half length
to the carried duration (41 R98 item 1). -/
def Obligations.EncodeHalfWithoutEdge : Prop :=
  ∀ s : State, encoding s → s.scanPos = 0 → quietSpan s 0 s.cfg.h →
    s.durAcc.toNat + s.cfg.h < 2 ^ 60 →
    ∃ d : Duration, d.toNat = s.durAcc.toNat + s.cfg.h ∧
      exec (.encodeHalf s.curHalf) s = .next { s with
        durAcc := d, lastDuration := d, scanPos := s.cfg.h, seqState := .clear,
        out := .encoded .done }

/-- Capturing half after half, each dispatched when it is complete, encodes the sample stream as
one big step over all of it: no sample is dropped, duplicated or reordered (45 R171). Each
`DISPATCH` runs uninterrupted (log 15), which is one of the schedules of R171. -/
def Obligations.CaptureIsBigStep : Prop :=
  ∀ (s : State) (halves : List (List SampleWord)) (b : BigState), Inv s → ready s →
    s.wrPtr = 0 → s.err = false → s.ht = false → s.tc = false →
    (∀ ws ∈ halves, ws.length = s.cfg.h ∧ ∀ w ∈ ws, w < 2 ^ s.cfg.w) →
    bigEncode s.cfg halves.flatten 0
      { out := [], n := s.bytes, level := s.lastValue, dur := s.lastDuration } = .done b →
    ∃ t, runOps (halves.flatMap (fun ws => ws.map Instr.smp ++ [Instr.dispatch])) s = some t ∧
      ready t ∧ t.err = false ∧ t.ht = false ∧ t.tc = false ∧
      t.bytes = b.n ∧ t.lastValue = b.level ∧ t.lastDuration = b.dur ∧
      ebStored s t s.bytes b.out

/-- `EBAPPEND` stores the bytes in ascending order from `bytes` on and advances `bytes` (42
R113); outside its precondition it is refused (log 11). -/
def Obligations.EbappendAppends : Prop :=
  ∀ (s : State) (bs : List Byte),
    (1 ≤ bs.length → bs.length ≤ 10 → s.bytes + 10 ≤ s.cfg.c →
      ∃ t, exec (.ebappend bs) s = .next t ∧
        t = { s with eb := t.eb, bytes := s.bytes + bs.length } ∧ ebStored s t s.bytes bs) ∧
    (bs.length = 0 ∨ 10 < bs.length ∨ s.cfg.c < s.bytes + 10 →
      exec (.ebappend bs) s = .refused .appendPrecondition)

/-- `THROTTLE` (41 R95) and `FATAL` (60 R186) write what their rules list and nothing else. -/
def Obligations.OutcomesWriteTheirRegisters : Prop :=
  ∀ s : State,
    exec .throttle s = .next { s with
      lastDuration := s.durAcc, irqEn := false, mode := .suspended, seqState := .idle } ∧
    ∀ (r : FatalReason) (half : Half) (pos w : Nat), r ≠ .none → pos < 2 ^ s.cfg.posW →
      w < 2 ^ s.cfg.w →
      ∃ t, exec (.fatal r half pos w) s = .next t ∧
        t = { s with mode := .fatal, fatalReason := r, fatalCtx := t.fatalCtx } ∧
        ctxHolds t half pos w

/-! ## The pure functions -/

/-- `SCAN` returns the first position whose masked word differs from the masked reference, or
`end` (40 R84 items 1 to 3); outside its contract it is refused (40 R82). A `mask` or `reference`
of more than `W` bits, of which R80 says nothing, is compared in all its bits (log 26). -/
def Obligations.ScanFindsFirstDifference : Prop :=
  ∀ (s : State) (data stop mask reference : Nat),
    (data ≤ stop → stop ≤ 2 * s.cfg.h →
      ∃ p, exec (.scan data stop mask reference) s = .next { s with out := .position p } ∧
        data ≤ p ∧ p ≤ stop ∧
        (∀ i, data ≤ i → i < p → ppWord s i &&& mask = reference &&& mask) ∧
        (p < stop → ppWord s p &&& mask ≠ reference &&& mask)) ∧
    (stop < data ∨ 2 * s.cfg.h < stop →
      exec (.scan data stop mask reference) s = .refused (.scanRange data stop))

/-- Splitting law of `SCAN` (40 R84 item 4). -/
def Obligations.ScanSplits : Prop :=
  ∀ (s : State) (data m stop mask reference : Nat), data ≤ m → m ≤ stop →
    (scanOf s data m mask reference < m →
      scanOf s data stop mask reference = scanOf s data m mask reference) ∧
    (scanOf s data m mask reference = m →
      scanOf s data stop mask reference = scanOf s m stop mask reference)

/-- `LEVEL` and `DEPOSIT` move the four channel bits, and the laws of 30 R63 hold. -/
def Obligations.LevelDepositLaws : Prop :=
  ∀ (s : State) (w : SampleWord) (l : Level), s.cfg.WF → w < 2 ^ s.cfg.w →
    (∃ r : Level, exec (.level w) s = .next { s with out := .level r } ∧
      r.getLsbD 0 = w.testBit s.cfg.ch0 ∧ r.getLsbD 1 = w.testBit s.cfg.ch1 ∧
      r.getLsbD 2 = w.testBit s.cfg.ch2 ∧ r.getLsbD 3 = w.testBit s.cfg.ch3) ∧
    (∃ d : SampleWord, exec (.deposit l) s = .next { s with out := .word d } ∧ d < 2 ^ s.cfg.w ∧
      d.testBit s.cfg.ch0 = l.getLsbD 0 ∧ d.testBit s.cfg.ch1 = l.getLsbD 1 ∧
      d.testBit s.cfg.ch2 = l.getLsbD 2 ∧ d.testBit s.cfg.ch3 = l.getLsbD 3 ∧
      d &&& s.cfg.edgeMask = d) ∧
    levelOf s.cfg (depositOf s.cfg l) = l ∧
    depositOf s.cfg (levelOf s.cfg w) = w &&& s.cfg.edgeMask ∧
    (w &&& s.cfg.edgeMask ≠ depositOf s.cfg l ↔ levelOf s.cfg w ≠ l)

/-- `VLEN(V)` is the least `L >= 1` with `V < 2^(7L)`, and at most 10 (42 R111, R112). -/
def Obligations.VlenIsLeastLength : Prop :=
  ∀ (s : State) (v : Value), ∃ n, exec (.vlen v) s = .next { s with out := .length n } ∧
    1 ≤ n ∧ n ≤ 10 ∧ v.toNat < 2 ^ (7 * n) ∧ (∀ k, 1 ≤ k → v.toNat < 2 ^ (7 * k) → n ≤ k) ∧
    (n = 10 ↔ 2 ^ 63 ≤ v.toNat)

/-- `VENC(V)` has `VLEN(V)` bytes; byte `j` carries bits `7j+6 .. 7j` of `V` and bit 7 in all but
the last; the last is not 0 in a record of two or more bytes (30 R65, 42 R114 items 1 and 2). -/
def Obligations.VencLayout : Prop :=
  ∀ (s : State) (v : Value), ∃ bs, exec (.venc v) s = .next { s with out := .bytes bs } ∧
    bs.length = vlenOf v ∧
    (∀ j b, bs[j]? = some b → b.toNat % 128 = v.toNat / 2 ^ (7 * j) % 128 ∧
      (b.toNat < 128 ↔ j + 1 = bs.length)) ∧
    (∀ b, 2 ≤ bs.length → bs[bs.length - 1]? = some b → b ≠ 0) ∧
    (∀ b, bs.length = 10 → bs[9]? = some b → b = 1)

/-- No record is the beginning of another: `VENC` is injective and self-delimiting (42 R114 items
3 and 4). -/
def Obligations.VencIsSelfDelimiting : Prop :=
  ∀ (v v' : Value) (tail tail' : List Byte), vencOf v ++ tail = vencOf v' ++ tail' →
    v = v' ∧ tail = tail'

/-- `VDEC` inverts `VENC`, wherever the record stands, and accepts nothing else (42 R117). -/
def Obligations.VdecInvertsVenc : Prop :=
  ∀ s : State,
    (∀ (v : Value) (before after : List Byte) (n : Nat),
      n ≤ (before ++ vencOf v ++ after).length → before.length + (vencOf v).length ≤ n →
      exec (.vdec (before ++ vencOf v ++ after) before.length n) s =
        .next { s with out := .value v (before.length + vlenOf v) }) ∧
    (∀ (bs : List Byte) (v : Value),
      exec (.vdec bs 0 bs.length) s = .next { s with out := .value v bs.length } →
      bs = vencOf v)

/-- `VDEC` refuses the four byte sequences the encoder never produces (30 R74, 42 R117). -/
def Obligations.VdecRefusesCorrupt : Prop :=
  ∀ (s : State) (bs : List Byte),
    (∀ b ∈ bs, 128 ≤ b.toNat) →
    exec (.vdec bs 0 bs.length) s = .next { s with out := .corrupt } ∧
    (∀ last : Byte, last.toNat < 128 →
      (1 ≤ bs.length → last = 0 →
        exec (.vdec (bs ++ [last]) 0 (bs.length + 1)) s = .next { s with out := .corrupt }) ∧
      (10 ≤ bs.length →
        exec (.vdec (bs ++ [last]) 0 (bs.length + 1)) s = .next { s with out := .corrupt }) ∧
      (bs.length = 9 → last ≠ 1 →
        exec (.vdec (bs ++ [last]) 0 (bs.length + 1)) s = .next { s with out := .corrupt }))

/-- `PARSE` of a concatenation of records returns the intervals, for any number of them and any
durations (42 R116, R118). -/
def Obligations.ParseInvertsRecords : Prop :=
  ∀ (s : State) (l : List (Duration × Level)),
    exec (.parse (l.flatMap (fun r => recordOf r.1 r.2))
      (l.flatMap (fun r => recordOf r.1 r.2)).length) s = .next { s with out := .intervals l }

/-- The rows `REC1` to `REC10`: a record of minimum length says the interval whose duration is
`V >> 4` and whose level is `V & 0xF` (30 R64, R66). -/
def Obligations.RecordRowsSayIntervals : Prop :=
  ∀ (s : State) (i : Instr) (v : Nat), recordRowValue i = some v →
    (i.wf s.cfg = true → exec i s = .next { s with
      out := .intervals [(BitVec.ofNat 60 (v / 16), BitVec.ofNat 4 (v % 16))] }) ∧
    (i.wf s.cfg = false → exec i s = .next { s with out := .corrupt })

/-- Every record the encoder writes is one of the ten rows, well-formed (30 R66); that the row, run
as an instruction, answers its interval is the model's reading (log 16). -/
def Obligations.EncodedRecordsFitRows : Prop :=
  ∀ (s : State) (d : Duration) (l : Level), ∃ i : Instr,
    decode (.record (recordOf d l)) = .ok i ∧ i.wf s.cfg = true ∧
    exec i s = .next { s with out := .intervals [(d, l)] }

/-! ## Whole-machine rules -/

/-- FATAL is terminal: a step that is not `RESET` changes only what is put out (60 R186, R188). -/
def Obligations.FatalIsTerminal : Prop :=
  ∀ (s t : State) (f : Fetch) (rest : List Fetch), s.mode = .fatal → s.stimulus = f :: rest →
    step s = .next t →
    (decode f = .ok .reset ∧ t.mode = .idle) ∨
      t = { s with stimulus := rest, out := t.out }

/-- The mode transitions of 10 R38 are complete, and each Fatal comes from its own step. -/
def Obligations.ModeTransitionsComplete : Prop :=
  ∀ (s t : State) (e : Nat) (rest : List Fetch) (i : Instr), Inv s →
    s.stimulus = .event e :: rest → decodeEvent e = .ok i → step s = .next t →
    modeMove i s.mode t.mode ∧
    (t.mode = .fatal → s.mode ≠ .fatal →
      (s.seqState = .idle ∧ t.fatalReason = .dmaError) ∨
      (s.seqState = .encode ∧ t.fatalReason = .syncLoss) ∨
      (s.seqState = .check ∧ t.fatalReason = .overrun))

/-- Within a session the `bytes` HOST reads never decreases and no valid byte of `EB` it reads
changes, whatever write of a record it reads between (20 R56 items 1 and 2). -/
def Obligations.ValidBytesNeverChange : Prop :=
  ∀ (s t : State) (f : Fetch) (rest : List Fetch), Inv s → s.stimulus = f :: rest →
    decode f ≠ .ok .arm → decode f ≠ .ok .reset → step s = .next t →
    (hostView s).bytes ≤ (hostView t).bytes ∧
    ∀ a, a < (hostView s).bytes → ebByte (hostView t) a = ebByte (hostView s) a

/-- While the mode is SUSPENDED, FATAL or IDLE, `bytes`, `last_value`, `last_duration` and `EB` do
not change until `ARM` or `RESET` (20 R55, R56 item 4), nor do the mode, `fatal_reason`,
`fatal_ctx`, `IRQ_EN`, `seq_state` and `cur_half`. Of what HOST reads only `HT`, `TC`, `ERR` and
`SYNC_OUT` may change, and only in SUSPENDED (43 R128 corner case 3). -/
def Obligations.QuietModesKeepHostFields : Prop :=
  ∀ (s t : State) (f : Fetch) (rest : List Fetch), Inv s → Quiet s → s.stimulus = f :: rest →
    decode f ≠ .ok .arm → decode f ≠ .ok .reset → step s = .next t →
    hostView s = s ∧ hostView t = t ∧
    t.bytes = s.bytes ∧ t.lastValue = s.lastValue ∧ t.lastDuration = s.lastDuration ∧
    t.eb = s.eb ∧ t.mode = s.mode ∧ t.fatalReason = s.fatalReason ∧ t.fatalCtx = s.fatalCtx ∧
    t.irqEn = s.irqEn ∧ t.seqState = s.seqState ∧ t.curHalf = s.curHalf ∧
    (s.mode ≠ .suspended → t.ht = s.ht ∧ t.tc = s.tc ∧ t.err = s.err ∧ t.syncOut = s.syncOut)

/-- Whatever write of a record HOST reads after, the valid bytes it sees are whole records, and
those of the `ENC_STEP` once it is complete (20 R49). -/
def Obligations.ViewsHoldWholeRecords : Prop :=
  ∀ s : State, Inv s →
    (parseOf (ebData (hostView s)) (hostView s).bytes).isSome = true ∧
    (∀ a, a < s.bytes → ebByte (hostView s) a = ebByte s a) ∧
    (s.emission = none → hostView s = s) ∧
    ∀ e, s.emission = some e → ∃ t, exec .encStep s = .next t ∧
      ((hostView s).bytes = s.bytes ∨ (hostView s).bytes = t.bytes) ∧
      ∀ a, a < (hostView s).bytes → ebByte (hostView s) a = ebByte t a

/-- Overrun detection is complete: once the DMA is back inside the half being processed before
`SEQ_CLEAR`, the dispatch never ends `Normal`, and its `SEQ_CHECK` raises OVERRUN (45 R170). -/
def Obligations.OverrunNeverMissed : Prop :=
  ∀ (s : State) (run : List State), BufferInv s → s.mode = .running →
    (s.seqState = .encode ∨ s.seqState = .clear) → dmaInside s s.curHalf → runningChain s run →
    ∀ t ∈ run, t.seqState ≠ .idle ∧
      (t.seqState = .check → ∃ u, exec .seqCheck t = .next u ∧ u.fatalReason = .overrun)

/-- SEQ never observes the unspecified contents of `PP` (45 R168): an `ENC_STEP` is the same
whatever the unwritten words are. -/
def Obligations.UnwrittenWordsNeverObserved : Prop :=
  ∀ (s t : State) (epoch : Nat), BufferInv s → exec .encStep s = .next t →
    exec .encStep { s with epoch := epoch } = .next { t with epoch := epoch }

/-- The sync bit and the bits outside `EDGE_MASK` and `RESERVED_MASK` influence nothing `ENC_STEP`
writes but the offending word in `fatal_ctx` (30 R61, 60 R181; log 18). -/
def Obligations.PayloadBitsNeverInfluence : Prop :=
  ∀ (s t : State) (pp' : List (Nat × SampleWord)), s.cfg.WF → exec .encStep s = .next t →
    (∀ i, ppWord { s with pp := pp' } i &&& (s.cfg.edgeMask ||| s.cfg.reservedMask) =
      ppWord s i &&& (s.cfg.edgeMask ||| s.cfg.reservedMask)) →
    ∃ c, exec .encStep { s with pp := pp' } = .next { t with pp := pp', fatalCtx := c } ∧
      (t.mode ≠ .fatal → c = t.fatalCtx) ∧
      ctxHalf c = ctxHalf t.fatalCtx ∧ ctxPos s.cfg c = ctxPos s.cfg t.fatalCtx

/-! ## Between the steps of a dispatch -/

/-- The visible writes of a record in the order of 20 R49. After `k` of them HOST sees the first
`k` bytes of the record, `bytes` advanced once all are written, and `last_value` still the level
of the interval the record closes (20 R50); all `L + 2` of them make up the `ENC_STEP`. -/
def Obligations.VisibleWritesMakeUpStep : Prop :=
  ∀ (s : State) (p : Nat), encoding s → edgeAt s p → fits s p →
    word s p &&& s.cfg.reservedMask = 0 → s.bytes + 10 ≤ s.cfg.c →
    (∀ k, 1 ≤ k → k ≤ (recordOf (elapsed s p) s.lastValue).length + 1 →
      ∃ t, seqWrites k s = some t ∧
        (hostView t).bytes =
          (if (recordOf (elapsed s p) s.lastValue).length < k
            then s.bytes + (recordOf (elapsed s p) s.lastValue).length else s.bytes) ∧
        (hostView t).lastValue = s.lastValue ∧ (hostView t).lastDuration = s.lastDuration ∧
        ebStored s (hostView t) s.bytes ((recordOf (elapsed s p) s.lastValue).take k)) ∧
    ∃ u, exec .encStep s = .next u ∧
      seqWrites ((recordOf (elapsed s p) s.lastValue).length + 2) s =
        some { u with out := .none }

/-- An `ENC_STEP` whose writes have begun is completed by SEQ: its record is stored, `bytes` and
`last_value` are written, whatever DMA and HOST did in between (20 R49; log 13). -/
def Obligations.EncStepFinishesEmission : Prop :=
  ∀ (s : State) (e : Emission), s.emission = some e → s.seqState = .encode → s.mode = .running →
    s.scanPos ≤ s.cfg.h →
    ∃ t, t = { s with
        eb := t.eb, bytes := s.bytes + e.record.length, lastValue := e.level, emission := none } ∧
      ebStored s t s.bytes e.record ∧ ∀ i ∈ [Instr.encStep, .seq], exec i s = .next t

/-- A dispatch with both flags pending at entry, interleaved with any steps of other agents. `SEQ`
enters it on half 0; while a dispatch is in progress with the other half's flag set, every step
leaves it so, or throttles, or raises `Fatal(SYNC_LOSS)`, or is the `SEQ_CHECK` that raises
`Fatal(OVERRUN)`, or is `RESET`: it never ends `Normal` (44 R151, R154). -/
def Obligations.OtherFlagHeldUntilCheck : Prop :=
  (∀ s : State, ready s → s.err = false → s.ht = true → s.tc = true →
    ∃ t, exec .seq s = .next t ∧ overdue t ∧ t.curHalf = .half0) ∧
  (∀ s t : State, overdue s → step s = .next t →
    (overdue t ∧ t.curHalf = s.curHalf) ∨
    (s.seqState = .encode ∧ t.mode = .suspended ∧ t.seqState = .idle) ∨
    (s.seqState = .encode ∧ t.mode = .fatal ∧ t.fatalReason = .syncLoss) ∨
    (s.seqState = .check ∧ t.mode = .fatal ∧ t.fatalReason = .overrun) ∨
    (t.mode = .idle ∧ ∃ f rest, s.stimulus = f :: rest ∧ decode f = .ok .reset))

/-- `ENC_STEP` and `ENCODE_HALF` offered where they are not enabled leave the state, and so does
`ENCODE_HALF` of the half that is not being processed (41 R90, R91; logs 10, 15). -/
def Obligations.EncoderWaits : Prop :=
  ∀ s : State,
    (s.seqState ≠ .encode ∨ s.mode ≠ .running →
      exec .encStep s = .next s ∧ ∀ half, exec (.encodeHalf half) s = .next s) ∧
    ∀ half, half ≠ s.curHalf → exec (.encodeHalf half) s = .next s

/-- A duration sum that would reach `2^60` is refused by the `ENC_STEP` that adds it, whatever the
step would do with it (10 R14, 41 R91 corner case 3, 93 U3; log 8), and so by `SEQ`, `ENCODE_HALF`
and `DISPATCH`. Below that the step runs and the sum is exact. -/
def Obligations.DurationOverflowRefused : Prop :=
  (∀ (s : State) (p : Nat), encoding s → stopAt s p →
    (¬ fits s p → ∀ i ∈ [Instr.encStep, .seq, .encodeHalf s.curHalf],
      exec i s = .refused .durationOverflow) ∧
    (fits s p → ∃ t, (∀ i ∈ [Instr.encStep, .seq], exec i s = .next t) ∧
      (t.durAcc.toNat = s.durAcc.toNat + (p - s.scanPos) ∨
        (t.durAcc = 0 ∧ t.scanPos = p + 1)))) ∧
  ∀ (s : State) (half : Half), Inv s → ready s → s.err = false →
    ((half = .half0 ∧ s.ht = true) ∨ (half = .half1 ∧ s.ht = false ∧ s.tc = true)) →
    (exec .dispatch s = .refused .durationOverflow ↔
      bigEncode s.cfg (halfWords s half) 0
        { out := [], n := s.bytes, level := s.lastValue, dur := s.lastDuration } = .tooLong)
end

