-- ==== Sys2Proof/Laws/Memory.lean ====
section
/-! SUPPORT. The laws of the sparse memory: a read after a write, the canonical form, and that equal contents
are equal lists. -/

namespace Sys2Proof.Machine

variable {α : Type}

@[simp] theorem Memory.read_nil (i : Nat) : Memory.read ([] : List (Nat × α)) i = none := rfl

theorem Memory.read_cons (a : Nat) (v : α) (m : List (Nat × α)) (i : Nat) :
    Memory.read ((a, v) :: m) i = if i = a then some v else Memory.read m i := rfl

/-- A read after a write: the value at the written address, anything else as before. -/
theorem Memory.read_write (m : List (Nat × α)) (i : Nat) (x : α) (a : Nat) :
    Memory.read (Memory.write m i x) a = if a = i then some x else Memory.read m a := by
  induction m with
  | nil => rfl
  | cons c m ih =>
    obtain ⟨b, v⟩ := c
    unfold Memory.write
    by_cases h1 : i < b
    · simp only [h1, if_true, Memory.read_cons]
    · by_cases h2 : i = b
      · subst h2
        simp only [Nat.lt_irrefl, if_false, if_true, Memory.read_cons]
        by_cases h : a = i <;> simp [h]
      · simp only [h1, h2, if_false, Memory.read_cons, ih]
        by_cases h : a = i
        · subst h; simp [h2]
        · simp [h]

@[simp] theorem Memory.read_write_self (m : List (Nat × α)) (i : Nat) (x : α) :
    Memory.read (Memory.write m i x) i = some x := by
  simp [Memory.read_write]

/-- A read after writing consecutive cells. -/
theorem Memory.read_writeList (xs : List α) : ∀ (m : List (Nat × α)) (i a : Nat),
    Memory.read (Memory.writeList m i xs) a =
      if i ≤ a ∧ a < i + xs.length then xs[a - i]? else Memory.read m a := by
  induction xs with
  | nil =>
    intro m i a
    have : ¬ (i ≤ a ∧ a < i) := by omega
    simp [Memory.writeList, this]
  | cons x xs ih =>
    intro m i a
    simp only [Memory.writeList, ih, Memory.read_write, List.length_cons]
    by_cases h1 : i + 1 ≤ a ∧ a < i + 1 + xs.length
    · have h2 : i ≤ a ∧ a < i + (xs.length + 1) := by omega
      have h3 : a - i = (a - (i + 1)) + 1 := by omega
      simp [h1, h2, h3]
    · by_cases h4 : a = i
      · subst h4
        simp
      · have h2 : ¬ (i ≤ a ∧ a < i + (xs.length + 1)) := by omega
        rw [if_neg h1, if_neg h2, if_neg h4]

/-- Every address of a written list comes from the list or from the new cell. -/
theorem Memory.mem_write {m : List (Nat × α)} {i : Nat} {x : α} {c : Nat × α}
    (h : c ∈ Memory.write m i x) : c = (i, x) ∨ c ∈ m := by
  induction m with
  | nil => simpa [Memory.write] using h
  | cons d m ih =>
    obtain ⟨b, v⟩ := d
    unfold Memory.write at h
    split at h
    · simpa using h
    · split at h
      · rename_i h2
        subst h2
        simp only [List.mem_cons] at h ⊢
        tauto
      · simp only [List.mem_cons] at h ⊢
        rcases h with h | h
        · tauto
        · rcases ih h with h | h <;> tauto

/-- A write keeps the canonical form. -/
theorem Memory.write_wf {m : List (Nat × α)} (i : Nat) (x : α) (h : Memory.wf m) :
    Memory.wf (Memory.write m i x) := by
  induction m with
  | nil => simp [Memory.write, Memory.wf]
  | cons d m ih =>
    obtain ⟨b, v⟩ := d
    simp only [Memory.wf, List.pairwise_cons] at h ⊢
    unfold Memory.write
    split
    · rename_i h1
      simp only [List.pairwise_cons, List.mem_cons]
      refine ⟨?_, h.1, h.2⟩
      rintro c (rfl | hc)
      · exact h1
      · exact lt_trans h1 (h.1 c hc)
    · split
      · simpa using h
      · simp only [List.pairwise_cons]
        refine ⟨fun c hc => ?_, ih h.2⟩
        rcases Memory.mem_write hc with rfl | hc
        · simp only; omega
        · exact h.1 c hc

/-- Writing consecutive cells keeps the canonical form. -/
theorem Memory.writeList_wf (xs : List α) : ∀ {m : List (Nat × α)} (i : Nat), Memory.wf m →
    Memory.wf (Memory.writeList m i xs) := by
  induction xs with
  | nil => intro m i h; exact h
  | cons x xs ih => intro m i h; exact ih _ (Memory.write_wf i x h)

/-- A listed value is a cell of the list. -/
theorem Memory.mem_of_read {m : List (Nat × α)} {i : Nat} {v : α} (h : Memory.read m i = some v) :
    (i, v) ∈ m := by
  induction m with
  | nil => simp at h
  | cons d m ih =>
    obtain ⟨b, w⟩ := d
    rw [Memory.read_cons] at h
    split at h
    · rename_i h1
      simp_all
    · exact List.mem_cons_of_mem _ (ih h)

theorem Memory.read_none_of_lt {m : List (Nat × α)} {i : Nat} (h : ∀ c ∈ m, i < c.1) :
    Memory.read m i = none := by
  cases hr : Memory.read m i with
  | none => rfl
  | some v => exact absurd (h _ (Memory.mem_of_read hr)) (lt_irrefl _)

/-- Two canonical memories with the same contents are the same list. -/
theorem Memory.ext_of_wf : ∀ {m n : List (Nat × α)}, Memory.wf m → Memory.wf n →
    (∀ i, Memory.read m i = Memory.read n i) → m = n := by
  intro m
  induction m with
  | nil =>
    intro n _ _ h
    cases n with
    | nil => rfl
    | cons d n => obtain ⟨b, w⟩ := d; have := h b; simp [Memory.read_cons] at this
  | cons c m ih =>
    intro n hm hn h
    cases n with
    | nil => obtain ⟨a, v⟩ := c; have := h a; simp [Memory.read_cons] at this
    | cons d n =>
      obtain ⟨a, v⟩ := c
      obtain ⟨b, w⟩ := d
      simp only [Memory.wf, List.pairwise_cons] at hm hn
      have hab : a = b := by
        rcases Nat.lt_trichotomy a b with h1 | h1 | h1
        · have := h a
          rw [Memory.read_cons, if_pos rfl, Memory.read_cons, if_neg (by omega),
            Memory.read_none_of_lt (fun c hc => lt_trans h1 (hn.1 c hc))] at this
          simp at this
        · exact h1
        · have := h b
          rw [Memory.read_cons, if_neg (by omega), Memory.read_cons, if_pos rfl,
            Memory.read_none_of_lt (fun c hc => lt_trans h1 (hm.1 c hc))] at this
          simp at this
      subst hab
      have hv := h a
      simp only [Memory.read_cons, if_true, Option.some.injEq] at hv
      subst hv
      have hmn : m = n := by
        refine ih hm.2 hn.2 (fun i => ?_)
        by_cases hi : i = a
        · subst hi
          rw [Memory.read_none_of_lt hm.1, Memory.read_none_of_lt hn.1]
        · have := h i
          simpa [Memory.read_cons, hi] using this
      rw [hmn]

end Sys2Proof.Machine
end

