-- ==== Sys2Proof/Laws/Operands.lean ====
section
/-! SUPPORT. The bits of levels, deposits and the edge mask (30_encoding.md R62, R63), and the size of a number
in bits. -/

namespace Sys2Proof.Machine

theorem bitOf_eq (n i : Nat) : bitOf n i = (n.testBit i).toNat := by
  rw [bitOf, Nat.testBit, Nat.and_one_is_mod, Nat.one_and_eq_mod_two]
  rcases Nat.mod_two_eq_zero_or_one (n >>> i) with h | h <;> simp [h]

theorem bitOf_lt (n i : Nat) : bitOf n i < 2 := by
  rw [bitOf_eq]; cases n.testBit i <;> simp

/-- `2^(bitLen n - 1) <= n < 2^(bitLen n)`. -/
theorem lt_two_pow_bitLen (n : Nat) : n < 2 ^ bitLen n := by
  unfold bitLen
  split
  · simp_all
  · exact Nat.lt_log2_self

theorem bitLen_le_iff (n k : Nat) : bitLen n ≤ k ↔ n < 2 ^ k := by
  unfold bitLen
  split
  · simp_all
  · rename_i h
    rw [Nat.succ_le_iff, Nat.log2_lt h]

theorem levelOf_toNat (c : Config) (s : SampleWord) :
    (levelOf c s).toNat = (s.testBit c.ch0).toNat + 2 * (s.testBit c.ch1).toNat +
      4 * (s.testBit c.ch2).toNat + 8 * (s.testBit c.ch3).toNat := by
  simp only [levelOf, bitOf_eq, BitVec.toNat_ofNat]
  cases s.testBit c.ch0 <;> cases s.testBit c.ch1 <;> cases s.testBit c.ch2 <;>
    cases s.testBit c.ch3 <;> rfl

/-- Bit `i` of a level is channel `i` of the sample (30 R62). -/
theorem levelOf_getLsbD (c : Config) (s : SampleWord) :
    (levelOf c s).getLsbD 0 = s.testBit c.ch0 ∧ (levelOf c s).getLsbD 1 = s.testBit c.ch1 ∧
    (levelOf c s).getLsbD 2 = s.testBit c.ch2 ∧ (levelOf c s).getLsbD 3 = s.testBit c.ch3 := by
  simp only [levelOf, bitOf_eq]
  cases s.testBit c.ch0 <;> cases s.testBit c.ch1 <;> cases s.testBit c.ch2 <;>
    cases s.testBit c.ch3 <;> decide

/-- A level is its four bits. -/
theorem level_ext {l m : Level} (h0 : l.getLsbD 0 = m.getLsbD 0) (h1 : l.getLsbD 1 = m.getLsbD 1)
    (h2 : l.getLsbD 2 = m.getLsbD 2) (h3 : l.getLsbD 3 = m.getLsbD 3) : l = m := by
  apply BitVec.eq_of_getLsbD_eq
  intro i hi
  interval_cases i <;> assumption

theorem testBit_edgeMask (c : Config) (i : Nat) :
    c.edgeMask.testBit i =
      (decide (i = c.ch0) || decide (i = c.ch1) || decide (i = c.ch2) || decide (i = c.ch3)) := by
  simp only [Config.edgeMask, Nat.one_shiftLeft, Nat.testBit_or, Nat.testBit_two_pow]
  simp only [eq_comm]

/-- Two numbers that share no bit add without carry. -/
theorem add_eq_or_of_and {a b : Nat} (h : a &&& b = 0) : a + b = a ||| b := by
  have hlt : a + b < 2 ^ (a + b) := Nat.lt_two_pow_self
  have ha : a < 2 ^ (a + b) := by omega
  have hb : b < 2 ^ (a + b) := by omega
  have hv : BitVec.ofNat (a + b) a &&& BitVec.ofNat (a + b) b = 0#(a + b) := by
    apply BitVec.eq_of_toNat_eq
    rw [BitVec.toNat_and, BitVec.toNat_ofNat, BitVec.toNat_ofNat, Nat.mod_eq_of_lt ha,
      Nat.mod_eq_of_lt hb, h]
    simp
  have := congrArg BitVec.toNat (BitVec.add_eq_or_of_and_eq_zero _ _ hv)
  rwa [BitVec.toNat_add, BitVec.toNat_or, BitVec.toNat_ofNat, BitVec.toNat_ofNat,
    Nat.mod_eq_of_lt ha, Nat.mod_eq_of_lt hb, Nat.mod_eq_of_lt hlt] at this

theorem and_eq_zero_of_testBit {a b : Nat}
    (h : ∀ i, a.testBit i = true → b.testBit i = true → False) : a &&& b = 0 := by
  apply Nat.eq_of_testBit_eq
  intro i
  rw [Nat.testBit_and, Nat.zero_testBit, Bool.eq_false_iff, ne_eq, Bool.and_eq_true]
  exact fun hi => h i hi.1 hi.2

theorem testBit_bool_shiftLeft (b : Bool) (p i : Nat) :
    (b.toNat <<< p).testBit i = (decide (i = p) && b) := by
  cases b
  · simp
  · simp only [Bool.toNat_true, Nat.one_shiftLeft, Nat.testBit_two_pow, Bool.and_true]
    simp only [eq_comm]

/-- The sum of 30 R63 over distinct positions is the OR of its terms. -/
theorem depositOf_eq_or {c : Config} (h : c.WF) (l : Level) :
    depositOf c l = (((bitOf l.toNat 0 <<< c.ch0) ||| (bitOf l.toNat 1 <<< c.ch1)) |||
      (bitOf l.toNat 2 <<< c.ch2)) ||| (bitOf l.toNat 3 <<< c.ch3) := by
  obtain ⟨_, _, ⟨h01, h02, h03, h12, h13, h23⟩, _⟩ := h
  simp only [depositOf, bitOf_eq]
  have e1 := add_eq_or_of_and (and_eq_zero_of_testBit
    (a := (l.toNat.testBit 0).toNat <<< c.ch0) (b := (l.toNat.testBit 1).toNat <<< c.ch1) ?_)
  have e2 := add_eq_or_of_and (and_eq_zero_of_testBit
    (a := (l.toNat.testBit 0).toNat <<< c.ch0 ||| (l.toNat.testBit 1).toNat <<< c.ch1)
    (b := (l.toNat.testBit 2).toNat <<< c.ch2) ?_)
  have e3 := add_eq_or_of_and (and_eq_zero_of_testBit
    (a := (l.toNat.testBit 0).toNat <<< c.ch0 ||| (l.toNat.testBit 1).toNat <<< c.ch1 |||
      (l.toNat.testBit 2).toNat <<< c.ch2) (b := (l.toNat.testBit 3).toNat <<< c.ch3) ?_)
  · rw [e1, e2, e3]
  all_goals
    intro i
    simp only [Nat.testBit_or, testBit_bool_shiftLeft, Bool.and_eq_true, Bool.or_eq_true,
      decide_eq_true_eq]
    omega

/-- The bits of a deposit: bit `CH_POS[k]` is bit `k` of the level, the others 0 (30 R63). -/
theorem testBit_depositOf {c : Config} (h : c.WF) (l : Level) (i : Nat) :
    (depositOf c l).testBit i =
      (decide (i = c.ch0) && l.getLsbD 0 || decide (i = c.ch1) && l.getLsbD 1 ||
        decide (i = c.ch2) && l.getLsbD 2 || decide (i = c.ch3) && l.getLsbD 3) := by
  rw [depositOf_eq_or h]
  simp only [bitOf_eq, Nat.testBit_or, testBit_bool_shiftLeft, BitVec.getLsbD]

/-! ### `fatal_ctx` -/

theorem halfCode_lt (h : Half) : halfCode h < 2 := by cases h <;> decide

/-- The fields of a context that fits, and its width (10_state.md R28). -/
theorem packCtx_fields {c : Config} {half : Half} {pos word : Nat} (hp : pos < 2 ^ c.posW)
    (hw : word < 2 ^ c.w) :
    packCtx c half pos word < 2 ^ c.ctxW ∧ ctxHalf (packCtx c half pos word) = halfCode half ∧
      ctxPos c (packCtx c half pos word) = pos ∧ ctxWord c (packCtx c half pos word) = word := by
  have hh := halfCode_lt half
  have h1 : 2 ^ (1 + c.posW) = 2 * 2 ^ c.posW := by rw [Nat.pow_add]
  have h2 : 2 ^ c.ctxW = 2 * 2 ^ c.posW * 2 ^ c.w := by rw [Config.ctxW, Nat.pow_add, h1]
  have hlow : halfCode half + 2 * pos < 2 * 2 ^ c.posW := by omega
  have hdiv : packCtx c half pos word / (2 * 2 ^ c.posW) = word := by
    rw [packCtx, h1, Nat.add_mul_div_left _ _ (by positivity), Nat.div_eq_of_lt hlow, Nat.zero_add]
  have hhalf : packCtx c half pos word / 2 = pos + 2 ^ c.posW * word := by
    rw [packCtx, h1, Nat.mul_assoc]; omega
  refine ⟨?_, ?_, ?_, ?_⟩
  · rw [h2, Nat.mul_comm, ← Nat.div_lt_iff_lt_mul (by positivity), hdiv]; exact hw
  · rw [ctxHalf, packCtx, h1, Nat.mul_assoc]; omega
  · rw [ctxPos, hhalf, Nat.add_mul_mod_self_left, Nat.mod_eq_of_lt hp]
  · rw [ctxWord, h1, hdiv, Nat.mod_eq_of_lt hw]

end Sys2Proof.Machine
end

