-- ==== Sys2Proof/Laws/Varint.lean ====
section
/-! SUPPORT. The bytes of a record (30_encoding.md R65): `VENC` writes the record bytes of its value, their shape,
their value, and what `VDEC` does on them. -/

namespace Sys2Proof.Machine

/-! ### The record value -/

/-- `(duration << 4) | level` is `16 * duration + level` (30 R64). -/
theorem recordValueOf_toNat (d : Duration) (l : Level) :
    (recordValueOf d l).toNat = 16 * d.toNat + l.toNat := by
  have hd := d.isLt
  have hl := l.isLt
  simp only [recordValueOf, BitVec.toNat_or, BitVec.toNat_shiftLeft, BitVec.toNat_setWidth]
  rw [Nat.mod_eq_of_lt (a := d.toNat) (by omega), Nat.mod_eq_of_lt (a := l.toNat) (by omega),
    Nat.shiftLeft_eq, Nat.mod_eq_of_lt (a := d.toNat * 2 ^ 4) (by omega), ← Nat.shiftLeft_eq,
    ← Nat.shiftLeft_add_eq_or_of_lt (by omega), Nat.shiftLeft_eq]
  omega

theorem durationOf_toNat (v : Value) : (durationOf v).toNat = v.toNat / 16 := by
  have := v.isLt
  simp only [durationOf, BitVec.toNat_setWidth, BitVec.toNat_ushiftRight, Nat.shiftRight_eq_div_pow]
  omega

theorem levelOfValue_toNat (v : Value) : (levelOfValue v).toNat = v.toNat % 16 := by
  simp [levelOfValue]

@[simp] theorem durationOf_recordValueOf (d : Duration) (l : Level) :
    durationOf (recordValueOf d l) = d := by
  apply BitVec.eq_of_toNat_eq
  have := l.isLt
  rw [durationOf_toNat, recordValueOf_toNat]
  omega

@[simp] theorem levelOfValue_recordValueOf (d : Duration) (l : Level) :
    levelOfValue (recordValueOf d l) = l := by
  apply BitVec.eq_of_toNat_eq
  have := l.isLt
  rw [levelOfValue_toNat, recordValueOf_toNat]
  omega

/-! ### Record bytes -/

@[simp] theorem recordBytes_length : ∀ (k v : Nat), (recordBytes k v).length = k
  | 0, _ => rfl
  | 1, _ => rfl
  | k + 2, v => by simp [recordBytes, recordBytes_length (k + 1)]

theorem recordBytes_succ_succ (k v : Nat) : recordBytes (k + 2) v =
    BitVec.ofNat 8 (128 + v % 128) :: recordBytes (k + 1) (v / 128) := rfl

/-- Byte `j` of a record: group `j`, with the continuation bit in all but the last. -/
theorem recordBytes_getElem? : ∀ (k v j : Nat), j < k → (recordBytes k v)[j]? =
    some (BitVec.ofNat 8 ((if j + 1 = k then 0 else 128) + v / 128 ^ j % 128))
  | 0, _, _, h => by omega
  | 1, v, 0, _ => by simp [recordBytes]
  | 1, v, j + 1, h => by omega
  | k + 2, v, 0, _ => by simp [recordBytes]
  | k + 2, v, j + 1, h => by
    rw [recordBytes_succ_succ, List.getElem?_cons_succ,
      recordBytes_getElem? (k + 1) (v / 128) j (by omega), Nat.div_div_eq_div_mul, Nat.pow_succ']
    simp

theorem recordShape_recordBytes : ∀ (k v : Nat), 1 ≤ k → recordShape (recordBytes k v) = true
  | 0, _, h => by omega
  | 1, v, _ => by simp [recordBytes, recordShape]; omega
  | k + 2, v, _ => by
    have ih := recordShape_recordBytes (k + 1) (v / 128) (by omega)
    obtain ⟨b, bs, hb⟩ : ∃ b bs, recordBytes (k + 1) (v / 128) = b :: bs := by
      cases h : recordBytes (k + 1) (v / 128) with
      | nil => simpa using congrArg List.length h
      | cons b bs => exact ⟨b, bs, rfl⟩
    rw [recordBytes_succ_succ, hb, recordShape, ← hb, ih]
    simp
    omega

theorem recordValue_recordBytes : ∀ (k v : Nat), v < 128 ^ k → recordValue (recordBytes k v) = v
  | 0, v, h => by simp at h; simp [recordBytes, recordValue, h]
  | 1, v, h => by simp at h; simp [recordBytes, recordValue]; omega
  | k + 2, v, h => by
    have h' : v / 128 < 128 ^ (k + 1) := by
      rw [Nat.div_lt_iff_lt_mul (by omega), ← Nat.pow_succ]; exact h
    rw [recordBytes_succ_succ, recordValue, recordValue_recordBytes (k + 1) (v / 128) h']
    simp
    omega

/-! ### `VLEN` -/

/-- `VLEN(V)` is the number of 7-bit groups: `V < 128^VLEN`, and no fewer do. -/
theorem vlenOf_spec (v : Value) : 1 ≤ vlenOf v ∧ vlenOf v ≤ 10 ∧ v.toNat < 128 ^ vlenOf v ∧
    (∀ k, 1 ≤ k → v.toNat < 128 ^ k → vlenOf v ≤ k) := by
  have hpow : ∀ k, (128 : Nat) ^ k = 2 ^ (7 * k) := fun k => by
    rw [show (128 : Nat) = 2 ^ 7 by norm_num, ← Nat.pow_mul]
  have h64 : bitLen v.toNat ≤ 64 := (bitLen_le_iff _ _).2 v.isLt
  unfold vlenOf
  split
  · rename_i h
    exact ⟨by omega, by omega, by simpa using h, fun k hk _ => hk⟩
  · rename_i h
    have h8 : 8 ≤ bitLen v.toNat := by
      by_contra hc
      exact h ((bitLen_le_iff _ _).1 (by omega))
    refine ⟨by omega, by omega, ?_, fun k _ hk => ?_⟩
    · rw [hpow, ← bitLen_le_iff]; omega
    · rw [hpow, ← bitLen_le_iff] at hk; omega

/-! ### `VENC` -/

theorem vencLoop_succ (n : Nat) (v : Value) : vencLoop (n + 1) v =
    if v.toNat < 128 then [BitVec.ofNat 8 v.toNat]
    else BitVec.ofNat 8 (128 + v.toNat % 128) :: vencLoop n (v >>> 7) := by
  have hz : (v >>> 7 = 0) ↔ v.toNat < 128 := by
    rw [← BitVec.toNat_inj]
    simp [Nat.shiftRight_eq_div_pow]
  have hg : ((v.setWidth 7).setWidth 8 : Byte) = BitVec.ofNat 8 (v.toNat % 128) := by
    apply BitVec.eq_of_toNat_eq
    simp
  simp only [vencLoop, hz, hg]
  split
  · rename_i h
    rw [Nat.mod_eq_of_lt h]
  · congr 1
    generalize hx : v.toNat % 128 = x
    have hx' : x < 128 := by omega
    clear hx
    interval_cases x <;> rfl

theorem vencLoop_eq_recordBytes : ∀ (k n : Nat) (v : Value), k + 1 ≤ n → v.toNat < 128 ^ (k + 1) →
    (k = 0 ∨ 128 ^ k ≤ v.toNat) → vencLoop n v = recordBytes (k + 1) v.toNat
  | 0, n + 1, v, _, h, _ => by
    simp at h
    simp [vencLoop_succ, h, recordBytes, Nat.mod_eq_of_lt h]
  | k + 1, n + 1, v, hn, h, hk => by
    have hk' : 128 ^ (k + 1) ≤ v.toNat := by omega
    have hge : 128 ≤ v.toNat := le_trans (by rw [Nat.pow_succ']; exact Nat.le_mul_of_pos_right _ (by positivity)) hk'
    have hsh : (v >>> 7).toNat = v.toNat / 128 := by simp [Nat.shiftRight_eq_div_pow]
    rw [vencLoop_succ, if_neg (by omega), recordBytes_succ_succ,
      vencLoop_eq_recordBytes k n (v >>> 7) (by omega) ?_ ?_, hsh]
    · rw [hsh, Nat.div_lt_iff_lt_mul (by omega), ← Nat.pow_succ]; exact h
    · right
      rw [hsh, Nat.le_div_iff_mul_le (by omega), ← Nat.pow_succ]; exact hk'

/-- `VENC(V)` is the record of `VLEN(V)` bytes with the value `V`. -/
theorem vencOf_eq (v : Value) : vencOf v = recordBytes (vlenOf v) v.toNat := by
  obtain ⟨h1, h10, hlt, hmin⟩ := vlenOf_spec v
  obtain ⟨k, hk⟩ : ∃ k, vlenOf v = k + 1 := ⟨vlenOf v - 1, by omega⟩
  rw [hk] at h10 hlt hmin ⊢
  refine vencLoop_eq_recordBytes k maxRec v h10 hlt ?_
  by_cases h0 : k = 0
  · exact .inl h0
  · right
    by_contra hc
    have := hmin k (by omega) (by omega)
    omega

@[simp] theorem vencOf_length (v : Value) : (vencOf v).length = vlenOf v := by
  rw [vencOf_eq, recordBytes_length]

/-- A record of `k` bytes has minimum length when its top group is not 0. -/
theorem vlenOf_eq_of_range {k : Nat} {v : Value} (hk : 1 ≤ k) (hlt : v.toNat < 128 ^ k)
    (hge : k = 1 ∨ 128 ^ (k - 1) ≤ v.toNat) : vlenOf v = k := by
  obtain ⟨h1, _, hlt', hmin⟩ := vlenOf_spec v
  refine le_antisymm (hmin k hk hlt) ?_
  by_contra hc
  rcases hge with h | h
  · omega
  · have : 128 ^ vlenOf v ≤ 128 ^ (k - 1) := Nat.pow_le_pow_right (by omega) (by omega)
    omega

/-! ### `VDEC` -/

/-- One round of `VDEC` on a byte that goes on. -/
theorem vdecLoop_continue {bs : List Byte} {a n fuel j : Nat} {v : Value} {b : Byte}
    (hn : a + j < n) (hj : j < 9) (hb : bs[a + j]? = some b) (hc : 128 ≤ b.toNat) :
    vdecLoop bs a n (fuel + 1) j v =
      vdecLoop bs a n fuel (j + 1) (v ||| ((b.setWidth 7).setWidth 64 <<< (7 * j))) := by
  have h9 : ¬ (j = 9 ∧ b ≠ 1#8) := by omega
  simp only [vdecLoop, if_neg (show ¬ n ≤ a + j by omega), if_neg (show ¬ j = 10 by omega), hb]
  rw [if_neg (by simpa using h9), if_neg (show ¬ b.toNat < 128 by omega)]

/-- The last round of `VDEC`. -/
theorem vdecLoop_last {bs : List Byte} {a n fuel j : Nat} {v : Value} {b : Byte}
    (hn : a + j < n) (hj : j < 9 ∨ (j = 9 ∧ b = 1#8)) (hb : bs[a + j]? = some b)
    (hc : b.toNat < 128) (h0 : j = 0 ∨ b ≠ 0#8) :
    vdecLoop bs a n (fuel + 1) j v =
      some (v ||| ((b.setWidth 7).setWidth 64 <<< (7 * j)), a + (j + 1)) := by
  have h9 : ¬ (j = 9 ∧ b ≠ 1#8) := by rintro ⟨h, h'⟩; rcases hj with hj | hj; omega; exact h' hj.2
  simp only [vdecLoop, if_neg (show ¬ n ≤ a + j by omega), if_neg (show ¬ j = 10 by omega), hb]
  rw [if_neg (by simpa using h9), if_pos hc, if_neg]
  rintro ⟨h, h'⟩
  rcases h0 with h0 | h0
  · omega
  · exact h0 h'

/-- OR-ing a group above the bits already taken adds it. -/
theorem or_group_toNat {v : Value} {b : Byte} {j : Nat} (hv : v.toNat < 128 ^ j)
    (hg : b.toNat % 128 * 128 ^ j < 2 ^ 64) :
    (v ||| ((b.setWidth 7).setWidth 64 <<< (7 * j))).toNat =
      v.toNat + b.toNat % 128 * 128 ^ j := by
  have hpow : (128 : Nat) ^ j = 2 ^ (7 * j) := by
    rw [show (128 : Nat) = 2 ^ 7 by norm_num, ← Nat.pow_mul]
  rw [hpow] at hv hg ⊢
  have h7 : b.toNat % 128 % 2 ^ 64 = b.toNat % 128 := Nat.mod_eq_of_lt (by omega)
  simp only [BitVec.toNat_or, BitVec.toNat_shiftLeft, BitVec.toNat_setWidth]
  rw [show (2 : Nat) ^ 7 = 128 by norm_num, h7, Nat.shiftLeft_eq, Nat.mod_eq_of_lt hg,
    ← Nat.shiftLeft_eq, Nat.lor_comm, ← Nat.shiftLeft_add_eq_or_of_lt hv, Nat.shiftLeft_eq]
  omega

/-- `VDEC` on the bytes of a minimum-length record that stand at `a + j`, the first `j` groups
taken: it returns the value and the index just past the record. -/
theorem vdecLoop_recordBytes (bs : List Byte) (a n : Nat) : ∀ (k j fuel u : Nat) (v : Value),
    1 ≤ k → j + k ≤ 10 → k ≤ fuel → a + j + k ≤ n →
    (∀ i, i < k → bs[a + j + i]? = (recordBytes k u)[i]?) →
    v.toNat < 128 ^ j → u < 128 ^ k → (j = 0 ∧ k = 1 ∨ 128 ^ (k - 1) ≤ u) →
    v.toNat + u * 128 ^ j < 2 ^ 64 →
    vdecLoop bs a n fuel j v = some (BitVec.ofNat 64 (v.toNat + u * 128 ^ j), a + (j + k))
  | 0, _, _, _, _, hk, _, _, _, _, _, _, _, _ => by omega
  | 1, j, fuel + 1, u, v, _, hj, _, hn, hb, hv, hu, hmin, hlt => by
    simp at hu
    have hb0 := hb 0 (by omega)
    simp only [Nat.add_zero, recordBytes, Nat.mod_eq_of_lt hu, List.getElem?_cons_zero] at hb0
    have hbn : (BitVec.ofNat 8 u).toNat = u := by simp; omega
    have h9 : j < 9 ∨ (j = 9 ∧ BitVec.ofNat 8 u = 1#8) := by
      by_cases h : j < 9
      · exact .inl h
      · have hj9 : j = 9 := by omega
        subst hj9
        right
        have : u = 1 := by
          have h1 : 1 ≤ u := by rcases hmin with h | h; omega; simpa using h
          norm_num at hlt
          omega
        simp [this]
    have h0 : j = 0 ∨ BitVec.ofNat 8 u ≠ 0#8 := by
      rcases hmin with h | h
      · exact .inl h.1
      · right
        intro hc
        have := congrArg BitVec.toNat hc
        rw [hbn] at this
        simp at this h
        omega
    rw [vdecLoop_last (by omega) h9 hb0 (by omega) h0]
    congr 2
    apply BitVec.eq_of_toNat_eq
    rw [or_group_toNat hv (by rw [hbn, Nat.mod_eq_of_lt hu]; omega), hbn, Nat.mod_eq_of_lt hu,
      BitVec.toNat_ofNat, Nat.mod_eq_of_lt hlt]
  | k + 2, j, fuel + 1, u, v, _, hj, hf, hn, hb, hv, hu, hmin, hlt => by
    have hb0 := hb 0 (by omega)
    rw [Nat.add_zero, recordBytes_succ_succ, List.getElem?_cons_zero] at hb0
    have hbn : (BitVec.ofNat 8 (128 + u % 128)).toNat = 128 + u % 128 := by simp; omega
    have hpos : 0 < 128 ^ j := by positivity
    have hsplit : u * 128 ^ j = u % 128 * 128 ^ j + u / 128 * 128 ^ (j + 1) := by
      conv_lhs => rw [← Nat.mod_add_div u 128]
      rw [Nat.pow_succ, Nat.add_mul]
      congr 1
      rw [Nat.mul_comm 128 (u / 128), Nat.mul_assoc, Nat.mul_comm 128 (128 ^ j)]
    have hmod : (128 + u % 128) % 128 = u % 128 := by omega
    have hor : (v ||| ((BitVec.setWidth 64 (BitVec.setWidth 7 (BitVec.ofNat 8 (128 + u % 128))))
        <<< (7 * j))).toNat = v.toNat + u % 128 * 128 ^ j := by
      rw [or_group_toNat hv (by rw [hbn, hmod]; omega), hbn, hmod]
    rw [vdecLoop_continue (by omega) (by omega) hb0 (by omega),
      vdecLoop_recordBytes bs a n (k + 1) (j + 1) fuel (u / 128) _ (by omega) (by omega) (by omega)
        (by omega) (fun i hi => ?_) ?_ ?_ ?_ ?_, hor]
    · congr 2
      · congr 1; omega
      · omega
    · rw [hor, Nat.pow_succ]
      have : u % 128 * 128 ^ j ≤ 127 * 128 ^ j := Nat.mul_le_mul_right _ (by omega)
      omega
    · rw [Nat.div_lt_iff_lt_mul (by omega), ← Nat.pow_succ]; exact hu
    · right
      have h : 128 ^ (k + 1) ≤ u := by rcases hmin with h | h; omega; simpa using h
      simp only [Nat.add_sub_cancel]
      rw [Nat.le_div_iff_mul_le (by omega), ← Nat.pow_succ]; exact h
    · rw [hor]; omega
    · have := hb (i + 1) (by omega)
      rw [recordBytes_succ_succ, List.getElem?_cons_succ] at this
      rw [← this]
      congr 1
      omega

/-! ### `PARSE` -/


/-- A record that `VDEC` accepts is read alike from any bytes that begin with it. -/
theorem vdecLoop_mono {bs bs' : List Byte} {a n n' : Nat} (hn : n ≤ n')
    (hb : ∀ i, i < n → bs'[i]? = bs[i]?) : ∀ (fuel j : Nat) (v : Value) (r : Value × Nat),
    vdecLoop bs a n fuel j v = some r →
      vdecLoop bs' a n' fuel j v = some r ∧ a + j < r.2 ∧ r.2 ≤ n
  | 0, _, _, _, h => by simp [vdecLoop] at h
  | fuel + 1, j, v, r, h => by
    simp only [vdecLoop] at h ⊢
    split at h
    · cases h
    rename_i h1
    split at h
    · cases h
    rename_i h2
    rw [if_neg (by omega), if_neg h2, hb _ (by omega)]
    split at h
    · cases h
    · rename_i b hbb
      split at h
      · cases h
      · rename_i h9
        simp only [if_neg h9]
        split at h
        · rename_i hl
          split at h
          · cases h
          · rename_i h0
            cases h
            rw [if_pos hl, if_neg h0]
            refine ⟨rfl, ?_, ?_⟩ <;> simp only <;> omega
        · rename_i hl
          obtain ⟨g1, g2, g3⟩ := vdecLoop_mono hn hb fuel (j + 1) _ r h
          rw [if_neg hl]
          exact ⟨g1, by omega, g3⟩

/-- `PARSE` goes on where the valid bytes are continued by further records. -/
theorem parseLoop_append {bs bs' : List Byte} {n n' : Nat} (hn : n ≤ n')
    (hb : ∀ i, i < n → bs'[i]? = bs[i]?) {fuel' : Nat} {l' : List (Duration × Level)}
    (h' : ∀ k, parseLoop bs' n' (k + fuel') n = some l') :
    ∀ (fuel a : Nat) (l : List (Duration × Level)), parseLoop bs n fuel a = some l → a ≤ n →
      parseLoop bs' n' (fuel + fuel') a = some (l ++ l')
  | 0, a, l, h, _ => by
    simp only [parseLoop] at h
    split at h
    · rename_i ha
      cases h
      subst ha
      simpa using h' 0
    · cases h
  | fuel + 1, a, l, h, han => by
    simp only [parseLoop] at h
    split at h
    · rename_i ha
      cases h
      subst ha
      exact h' (fuel + 1)
    · rename_i ha
      split at h
      · cases h
      · rename_i v a' hv
        obtain ⟨g1, g2, g3⟩ := vdecLoop_mono hn hb 11 0 0 _ hv
        split at h
        · cases h
        · rename_i rest hrest
          cases h
          have ih := parseLoop_append hn hb h' fuel a' rest hrest g3
          have hne : a ≠ n' := by omega
          rw [show fuel + 1 + fuel' = (fuel + fuel') + 1 by omega]
          simp only [parseLoop, if_neg hne, vdecOf, g1, ih, List.cons_append]

theorem parseLoop_end (bs : List Byte) (n k : Nat) : parseLoop bs n k n = some [] := by
  cases k <;> simp [parseLoop]

/-- `PARSE` of whole records followed by one more (42 R118). -/
theorem parseOf_append {bs : List Byte} {l : List (Duration × Level)} (v : Value)
    (h : parseOf bs bs.length = some l) :
    parseOf (bs ++ vencOf v) (bs ++ vencOf v).length =
      some (l ++ [(durationOf v, levelOfValue v)]) := by
  obtain ⟨h1, h10, hlt, hmin⟩ := vlenOf_spec v
  have hv : vdecOf (bs ++ vencOf v) bs.length (bs ++ vencOf v).length =
      some (v, (bs ++ vencOf v).length) := by
    have hu : (v.toNat : Nat) * 128 ^ 0 = v.toNat := by simp
    have hk := vdecLoop_recordBytes (bs ++ vencOf v) bs.length (bs ++ vencOf v).length
      (vlenOf v) 0 11 v.toNat 0 h1 (by omega) (by omega) (by simp)
      (fun i hi => by rw [List.getElem?_append_right (by omega), vencOf_eq]; congr 1; omega)
      (by simp) hlt (by
        by_cases h0 : vlenOf v = 1
        · exact .inl ⟨rfl, h0⟩
        · right
          by_contra hc
          have := hmin (vlenOf v - 1) (by omega) (by omega)
          omega) (by simpa using v.isLt)
    rw [vdecOf, hk]
    simp
  have hne : bs.length ≠ (bs ++ vencOf v).length := by simp; omega
  rw [parseOf, show (bs ++ vencOf v).length = bs.length + vlenOf v by simp] at *
  refine parseLoop_append (by omega) (fun i hi => by rw [List.getElem?_append_left hi]) ?_ _ _ _ h
    (Nat.zero_le _)
  intro k
  obtain ⟨m, hm⟩ : ∃ m, k + vlenOf v = m + 1 := ⟨k + vlenOf v - 1, by omega⟩
  rw [hm]
  simp only [parseLoop, if_neg hne, hv, parseLoop_end]

end Sys2Proof.Machine
end

