-- ==== Sys2Proof/Laws/Encoder.lean ====
section
/-! SUPPORT. What the scan finds (40_edge_detector.md R84), what edges are in terms of levels (30 R63), and what
one `ENC_STEP` can do (41 R91). -/

namespace Sys2Proof.Machine

/-! ### Scanning -/

/-- What the scan finds: every element before the result agrees with the reference under the
mask, and the element at a result before the end does not. -/
theorem scanLoop_spec (s : State) (mask reference : Nat) : ∀ (n p : Nat),
    p ≤ scanLoop s mask reference n p ∧ scanLoop s mask reference n p ≤ p + n ∧
    (∀ i, p ≤ i → i < scanLoop s mask reference n p → ppWord s i &&& mask = reference &&& mask) ∧
    (scanLoop s mask reference n p < p + n →
      ppWord s (scanLoop s mask reference n p) &&& mask ≠ reference &&& mask)
  | 0, p => ⟨le_refl _, le_refl _, fun i h1 h2 => by simp only [scanLoop] at h2; omega,
      fun h => absurd h (lt_irrefl _)⟩
  | n + 1, p => by
    by_cases h : ppWord s p &&& mask ≠ reference &&& mask
    · have hp : scanLoop s mask reference (n + 1) p = p := by simp only [scanLoop, if_pos h]
      rw [hp]
      exact ⟨le_refl _, by omega, fun i h1 h2 => by omega, fun _ => h⟩
    · have hp : scanLoop s mask reference (n + 1) p = scanLoop s mask reference n (p + 1) := by
        simp only [scanLoop, if_neg h]
      obtain ⟨h1, h2, h3, h4⟩ := scanLoop_spec s mask reference n (p + 1)
      rw [hp]
      refine ⟨by omega, by omega, fun i hi hi' => ?_, fun h' => h4 (by omega)⟩
      by_cases hip : i = p
      · subst hip; exact not_not.1 h
      · exact h3 i (by omega) hi'

/-- The result of the scan is determined by where it stops. -/
theorem scanLoop_eq {s : State} {mask reference n p q : Nat} (h1 : p ≤ q) (h2 : q ≤ p + n)
    (h3 : ∀ i, p ≤ i → i < q → ppWord s i &&& mask = reference &&& mask)
    (h4 : q < p + n → ppWord s q &&& mask ≠ reference &&& mask) :
    scanLoop s mask reference n p = q := by
  obtain ⟨g1, g2, g3, g4⟩ := scanLoop_spec s mask reference n p
  rcases Nat.lt_trichotomy (scanLoop s mask reference n p) q with h | h | h
  · exact absurd (h3 _ g1 h) (g4 (by omega))
  · exact h
  · exact absurd (g3 q h1 h) (h4 (by omega))

/-- Two states whose words agree under the mask scan alike. -/
theorem scanLoop_congr {s t : State} {mask reference : Nat} : ∀ (n p : Nat),
    (∀ i, p ≤ i → i < p + n → ppWord s i &&& mask = ppWord t i &&& mask) →
    scanLoop s mask reference n p = scanLoop t mask reference n p
  | 0, _, _ => rfl
  | n + 1, p, h => by
    have h0 := h p (le_refl _) (by omega)
    simp only [scanLoop, h0]
    rw [scanLoop_congr n (p + 1) (fun i h1 h2 => h i (by omega) (by omega))]

/-! ### Edges are changes of level -/

/-- A masked sample equals the masked deposit of a level exactly when it has that level. -/
theorem masked_eq_iff {c : Config} (h : c.WF) (w : SampleWord) (l : Level) :
    (w &&& c.edgeMask = depositOf c l &&& c.edgeMask) ↔ levelOf c w = l := by
  obtain ⟨g0, g1, g2, g3⟩ := levelOf_getLsbD c w
  obtain ⟨_, _, ⟨h01, h02, h03, h12, h13, h23⟩, _⟩ := id h
  have key : ∀ i, (c.edgeMask.testBit i = true → w.testBit i = (depositOf c l).testBit i) ↔
      (i = c.ch0 → w.testBit c.ch0 = l.getLsbD 0) ∧ (i = c.ch1 → w.testBit c.ch1 = l.getLsbD 1) ∧
      (i = c.ch2 → w.testBit c.ch2 = l.getLsbD 2) ∧ (i = c.ch3 → w.testBit c.ch3 = l.getLsbD 3) := by
    intro i
    simp only [testBit_edgeMask, testBit_depositOf h]
    by_cases e0 : i = c.ch0
    · subst e0; simp [h01, h02, h03]
    · by_cases e1 : i = c.ch1
      · subst e1; simp [e0, h12, h13]
      · by_cases e2 : i = c.ch2
        · subst e2; simp [e0, e1, h23]
        · by_cases e3 : i = c.ch3
          · subst e3; simp [e0, e1, e2]
          · simp [e0, e1, e2, e3]
  constructor
  · intro hm
    have hb : ∀ i, c.edgeMask.testBit i = true → w.testBit i = (depositOf c l).testBit i := by
      intro i hi
      have := congrArg (fun n => n.testBit i) hm
      simpa [Nat.testBit_and, hi] using this
    refine level_ext ?_ ?_ ?_ ?_
    · rw [g0]; exact ((key _).1 (hb c.ch0)).1 rfl
    · rw [g1]; exact ((key _).1 (hb c.ch1)).2.1 rfl
    · rw [g2]; exact ((key _).1 (hb c.ch2)).2.2.1 rfl
    · rw [g3]; exact ((key _).1 (hb c.ch3)).2.2.2 rfl
  · intro hl
    subst hl
    apply Nat.eq_of_testBit_eq
    intro i
    simp only [Nat.testBit_and]
    by_cases hi : c.edgeMask.testBit i = true
    · rw [(key i).2 ⟨fun _ => g0.symm, fun _ => g1.symm, fun _ => g2.symm, fun _ => g3.symm⟩ hi]
    · rw [Bool.not_eq_true] at hi; simp [hi]

/-- The next edge position: every sample before it has the level of the open interval, and the
sample at a position before the end of the half has another (40 R83, R85). -/
theorem edgePos_spec {s : State} (h : s.cfg.WF) (hs : s.scanPos ≤ s.cfg.h) :
    s.scanPos ≤ edgePos s ∧ edgePos s ≤ s.cfg.h ∧
    (∀ i, s.scanPos ≤ i → i < edgePos s → levelOf s.cfg (ppWord s (halfBase s + i)) = s.lastValue) ∧
    (edgePos s < s.cfg.h → levelOf s.cfg (ppWord s (halfBase s + edgePos s)) ≠ s.lastValue) := by
  obtain ⟨h1, h2, h3, h4⟩ := scanLoop_spec s s.cfg.edgeMask (depositOf s.cfg s.lastValue)
    (halfBase s + s.cfg.h - (halfBase s + s.scanPos)) (halfBase s + s.scanPos)
  have he : edgePos s = scanLoop s s.cfg.edgeMask (depositOf s.cfg s.lastValue)
    (halfBase s + s.cfg.h - (halfBase s + s.scanPos)) (halfBase s + s.scanPos) - halfBase s := rfl
  generalize scanLoop s s.cfg.edgeMask (depositOf s.cfg s.lastValue)
    (halfBase s + s.cfg.h - (halfBase s + s.scanPos)) (halfBase s + s.scanPos) = q at *
  refine ⟨by omega, by omega, fun i hi hi' => ?_, fun hlt hc => ?_⟩
  · exact (masked_eq_iff h _ _).1 (h3 (halfBase s + i) (by omega) (by omega))
  · have hq : halfBase s + edgePos s = q := by omega
    rw [hq] at hc
    exact h4 (by omega) ((masked_eq_iff h _ _).2 hc)

/-- The next edge position is determined by the levels. -/
theorem edgePos_eq {s : State} (h : s.cfg.WF) (hs : s.scanPos ≤ s.cfg.h) {p : Nat}
    (h1 : s.scanPos ≤ p) (h2 : p ≤ s.cfg.h)
    (h3 : ∀ i, s.scanPos ≤ i → i < p → levelOf s.cfg (ppWord s (halfBase s + i)) = s.lastValue)
    (h4 : p < s.cfg.h → levelOf s.cfg (ppWord s (halfBase s + p)) ≠ s.lastValue) :
    edgePos s = p := by
  obtain ⟨g1, g2, g3, g4⟩ := edgePos_spec h hs
  rcases Nat.lt_trichotomy (edgePos s) p with hc | hc | hc
  · exact absurd (h3 _ g1 hc) (g4 (by omega))
  · exact hc
  · exact absurd (g3 p h1 hc) (h4 (by omega))

/-! ### One `ENC_STEP` -/

/-- Everything one enabled `ENC_STEP` can do: one of the four arms of a new step, or the rest of
one begun. -/
theorem encStepOp_cases {s : State} (he : stepEnabled s .encode = true) :
    (s.emission = none ∧ edgePos s = s.cfg.h ∧ encStepOp s = { s with
      durAcc := spanDuration s, lastDuration := spanDuration s, scanPos := s.cfg.h,
      seqState := .clear }) ∨
    (s.emission = none ∧ edgePos s ≠ s.cfg.h ∧
      ppWord s (halfBase s + edgePos s) &&& s.cfg.reservedMask ≠ 0 ∧
      encStepOp s = raiseFatal .syncLoss s.curHalf (edgePos s)
        (ppWord s (halfBase s + edgePos s)) { s with durAcc := spanDuration s }) ∨
    (s.emission = none ∧ edgePos s ≠ s.cfg.h ∧
      ppWord s (halfBase s + edgePos s) &&& s.cfg.reservedMask = 0 ∧ s.cfg.c - s.bytes < 10 ∧
      encStepOp s = throttleAt (spanDuration s) { s with durAcc := spanDuration s }) ∨
    (∃ bs l, s.emission = none ∧ scanArm s = .emit bs l (edgePos s) ∧
      encStepOp s = finishEmission bs l (startEmission bs l (edgePos s) s)) ∨
    (∃ e, s.emission = some e ∧ encStepOp s = finishEmission e.record e.level s) := by
  by_cases hm : s.emission = none
  · have hop : encStepOp s = applyArm (scanArm s) s := by
      simp only [encStepOp, he, if_true, encArm, hm]
    rw [hop]
    by_cases h1 : edgePos s = s.cfg.h
    · left; exact ⟨hm, h1, by simp only [scanArm, if_pos h1, applyArm]⟩
    · right
      by_cases h2 : ppWord s (halfBase s + edgePos s) &&& s.cfg.reservedMask ≠ 0
      · left; exact ⟨hm, h1, h2, by simp only [scanArm, if_neg h1, if_pos h2, applyArm]⟩
      · right
        have h2' := not_not.1 h2
        by_cases h3 : s.cfg.c - s.bytes < maxRec
        · left
          exact ⟨hm, h1, h2', h3, by simp only [scanArm, if_neg h1, if_neg h2, if_pos h3, applyArm]⟩
        · right; left
          have ha : scanArm s = .emit (vencOf (recordValueOf (spanDuration s) s.lastValue))
              (levelOf s.cfg (ppWord s (halfBase s + edgePos s))) (edgePos s) := by
            simp only [scanArm, if_neg h1, if_neg h2, if_neg h3]
          exact ⟨_, _, hm, ha, by rw [ha]; rfl⟩
  · obtain ⟨e, hm⟩ := Option.ne_none_iff_exists'.1 hm
    right; right; right; right
    exact ⟨e, hm, by simp only [encStepOp, he, if_true, encArm, hm, applyArm]⟩

/-- Everything known where a new `ENC_STEP` emits a record (41 R91). -/
theorem scanArm_emit {s : State} {bs : List Byte} {l : Level} {p : Nat}
    (h : scanArm s = .emit bs l p) :
    p = edgePos s ∧ edgePos s ≠ s.cfg.h ∧
      ppWord s (halfBase s + edgePos s) &&& s.cfg.reservedMask = 0 ∧ 10 ≤ s.cfg.c - s.bytes ∧
      bs = vencOf (recordValueOf (spanDuration s) s.lastValue) ∧
      l = levelOf s.cfg (ppWord s (halfBase s + edgePos s)) := by
  simp only [scanArm] at h
  split at h
  · cases h
  · rename_i h1
    split at h
    · cases h
    · rename_i h2
      split at h
      · cases h
      · rename_i h3
        cases h
        exact ⟨rfl, h1, not_not.1 h2, Nat.le_of_not_lt h3, rfl, rfl⟩

/-- The scan reads the memory `PP`, the configuration and the epoch only. -/
theorem scanLoop_eq_of {s t : State} (hc : t.cfg = s.cfg) (hp : t.pp = s.pp)
    (he : t.epoch = s.epoch) (mask reference n p : Nat) :
    scanLoop t mask reference n p = scanLoop s mask reference n p :=
  scanLoop_congr n p (fun i _ _ => by simp only [ppWord, hc, hp, he])

/-- What a new `ENC_STEP` does is decided by these fields alone (41 R91). -/
theorem scanArm_eq_of {s t : State} (hc : t.cfg = s.cfg) (hp : t.pp = s.pp)
    (he : t.epoch = s.epoch) (hh : t.curHalf = s.curHalf) (hs : t.scanPos = s.scanPos)
    (hd : t.durAcc = s.durAcc) (hl : t.lastValue = s.lastValue) (hb : t.bytes = s.bytes) :
    scanArm t = scanArm s := by
  have hw : ∀ i, ppWord t i = ppWord s i := fun i => by simp only [ppWord, hc, hp, he]
  have hb' : halfBase t = halfBase s := by simp only [halfBase, hc, hh]
  have hep : edgePos t = edgePos s := by
    simp only [edgePos, scanOf, scanLoop_eq_of hc hp he, hb', hs, hc, hl]
  simp only [scanArm, spanDuration, hw, hb', hep, hc, hs, hd, hl, hb]

/-- An `ENC_STEP` that is not enabled does nothing. -/
theorem encStepOp_of_disabled {s : State} (he : stepEnabled s .encode = false) :
    encStepOp s = s := by
  simp [encStepOp, he]

@[simp] theorem stepEnabled_iff (s : State) (q : SeqState) :
    stepEnabled s q = true ↔ s.seqState = q ∧ s.mode = .running := by
  simp [stepEnabled]

/-- Where a model does not refuse the `ENC_STEP` (10 R14, 40 R82). -/
theorem encRefusal_eq_none {s : State} : encRefusal s = none ↔
    (stepEnabled s .encode = true →
      s.scanPos ≤ s.cfg.h ∧ (s.emission = none → durationFits s)) := by
  unfold encRefusal
  split
  · rename_i he
    split
    · exact ⟨fun h => absurd h (by simp), fun h => absurd (h he).1 (by omega)⟩
    · rename_i hs
      split
      · rename_i h
        exact ⟨fun h => absurd h (by simp), fun h' => absurd ((h' he).2 h.1) h.2⟩
      · rename_i h
        exact ⟨fun _ _ => ⟨Nat.le_of_not_lt hs, fun hm => not_not.1 fun hd => h ⟨hm, hd⟩⟩,
          fun _ => rfl⟩
  · rename_i he
    exact ⟨fun _ h => absurd h he, fun _ => rfl⟩

/-- Where a model refuses the `ENC_STEP` for its duration (10 R14, 41 R91 corner case 3). -/
theorem encRefusal_overflow {s : State} : encRefusal s = some .durationOverflow ↔
    stepEnabled s .encode = true ∧ s.scanPos ≤ s.cfg.h ∧ s.emission = none ∧ ¬ durationFits s := by
  unfold encRefusal
  split
  · rename_i he
    split
    · exact ⟨fun h => absurd h (by simp), fun h => absurd h.2.1 (by omega)⟩
    · rename_i hs
      split
      · rename_i h; exact ⟨fun _ => ⟨he, Nat.le_of_not_lt hs, h⟩, fun _ => rfl⟩
      · rename_i h; exact ⟨fun h' => absurd h' (by simp), fun h' => absurd h'.2.2 h⟩
  · rename_i he
    exact ⟨fun h => absurd h (by simp), fun h => absurd h.1 he⟩

/-- Where `ENC_STEP` is not refused its duration is the exact sum (41 R100). -/
theorem spanDuration_toNat {s : State} (h : durationFits s) :
    (spanDuration s).toNat = s.durAcc.toNat + (edgePos s - s.scanPos) := by
  simp only [spanDuration, BitVec.toNat_add, BitVec.toNat_ofNat]
  have h' : s.durAcc.toNat + (edgePos s - s.scanPos) < 2 ^ 60 := h
  rw [Nat.mod_eq_of_lt (a := edgePos s - s.scanPos) (by omega), Nat.mod_eq_of_lt h']

/-- What `ENC_STEP` answers as a step of SEQ. -/
theorem encStepOutcome_next {s t : State} (h : encStepOutcome s = .next t) :
    encRefusal s = none ∧ t = encStepOp s := by
  unfold encStepOutcome at h
  split at h
  · cases h
  · cases h; exact ⟨by assumption, rfl⟩

/-- `ENC_STEP` leaves these alone in every arm. -/
theorem encStepOp_frame (s : State) :
    (encStepOp s).cfg = s.cfg ∧ (encStepOp s).pp = s.pp ∧ (encStepOp s).wrPtr = s.wrPtr ∧
    (encStepOp s).syncOut = s.syncOut ∧ (encStepOp s).ht = s.ht ∧ (encStepOp s).tc = s.tc ∧
    (encStepOp s).err = s.err ∧ (encStepOp s).curHalf = s.curHalf ∧
    (encStepOp s).epoch = s.epoch ∧ (encStepOp s).stimulus = s.stimulus ∧
    (encStepOp s).out = s.out := by
  cases he : stepEnabled s .encode with
  | false => simp [encStepOp_of_disabled he]
  | true =>
    rcases encStepOp_cases he with ⟨_, _, h⟩ | ⟨_, _, _, h⟩ | ⟨_, _, _, _, h⟩ | ⟨_, _, _, _, h⟩ |
      ⟨_, _, h⟩ <;>
      simp [h, raiseFatal, throttleAt, finishEmission, startEmission, appendBytes]

/-! ### The valid data -/

/-- Below `bytes`, `RDEB` reads the byte stored (43 R133). -/
theorem ebByte_of_lt {s : State} {a : Nat} (h : a < s.bytes) :
    ebByte s a = (Memory.read s.eb a).getD (Config.unspecifiedByte s.epoch a none) := by
  simp only [ebByte, if_pos h]
  cases Memory.read s.eb a <;> rfl

@[simp] theorem ebData_length (s : State) : (ebData s).length = s.bytes := by simp [ebData]

/-- `EBAPPEND` appends its bytes to the valid data (42 R113, R116). -/
theorem ebData_append (bs : List Byte) (s : State) :
    ebData (appendBytes bs s) = ebData s ++ bs := by
  apply List.ext_getElem?
  intro i
  simp only [ebData, appendBytes]
  by_cases h : i < s.bytes
  · rw [List.getElem?_append_left (by simp [h])]
    simp only [List.getElem?_map, List.getElem?_range (show i < s.bytes + bs.length by omega),
      List.getElem?_range h, Option.map_some]
    rw [ebByte_of_lt h, ebByte_of_lt (by simp only; omega), Memory.read_writeList,
      if_neg (by omega)]
  · by_cases h2 : i < s.bytes + bs.length
    · rw [List.getElem?_append_right (by simp; omega)]
      simp only [List.getElem?_map, List.getElem?_range h2, Option.map_some]
      rw [ebByte_of_lt (by simpa using h2), Memory.read_writeList, if_pos (by omega)]
      simp only [List.length_map, List.length_range]
      rw [List.getElem?_eq_getElem (by omega)]
      rfl
    · rw [List.getElem?_eq_none (by simp; omega), List.getElem?_eq_none (by simp; omega)]

end Sys2Proof.Machine
end

