-- ==== Sys2Proof/Laws/State.lean ====
section
/-! SUPPORT. What each named update of the state leaves in each field. -/

namespace Sys2Proof.Machine

/-! ### `answer` -/

@[simp] theorem answer_cfg (a : Answer) (s : State) :
    (answer a s).cfg = s.cfg := rfl

@[simp] theorem answer_lastValue (a : Answer) (s : State) :
    (answer a s).lastValue = s.lastValue := rfl

@[simp] theorem answer_lastDuration (a : Answer) (s : State) :
    (answer a s).lastDuration = s.lastDuration := rfl

@[simp] theorem answer_bytes (a : Answer) (s : State) :
    (answer a s).bytes = s.bytes := rfl

@[simp] theorem answer_durAcc (a : Answer) (s : State) :
    (answer a s).durAcc = s.durAcc := rfl

@[simp] theorem answer_scanPos (a : Answer) (s : State) :
    (answer a s).scanPos = s.scanPos := rfl

@[simp] theorem answer_curHalf (a : Answer) (s : State) :
    (answer a s).curHalf = s.curHalf := rfl

@[simp] theorem answer_seqState (a : Answer) (s : State) :
    (answer a s).seqState = s.seqState := rfl

@[simp] theorem answer_wrPtr (a : Answer) (s : State) :
    (answer a s).wrPtr = s.wrPtr := rfl

@[simp] theorem answer_syncOut (a : Answer) (s : State) :
    (answer a s).syncOut = s.syncOut := rfl

@[simp] theorem answer_ht (a : Answer) (s : State) :
    (answer a s).ht = s.ht := rfl

@[simp] theorem answer_tc (a : Answer) (s : State) :
    (answer a s).tc = s.tc := rfl

@[simp] theorem answer_err (a : Answer) (s : State) :
    (answer a s).err = s.err := rfl

@[simp] theorem answer_irqEn (a : Answer) (s : State) :
    (answer a s).irqEn = s.irqEn := rfl

@[simp] theorem answer_mode (a : Answer) (s : State) :
    (answer a s).mode = s.mode := rfl

@[simp] theorem answer_fatalReason (a : Answer) (s : State) :
    (answer a s).fatalReason = s.fatalReason := rfl

@[simp] theorem answer_fatalCtx (a : Answer) (s : State) :
    (answer a s).fatalCtx = s.fatalCtx := rfl

@[simp] theorem answer_pp (a : Answer) (s : State) :
    (answer a s).pp = s.pp := rfl

@[simp] theorem answer_eb (a : Answer) (s : State) :
    (answer a s).eb = s.eb := rfl

@[simp] theorem answer_emission (a : Answer) (s : State) :
    (answer a s).emission = s.emission := rfl

@[simp] theorem answer_epoch (a : Answer) (s : State) :
    (answer a s).epoch = s.epoch := rfl

@[simp] theorem answer_stimulus (a : Answer) (s : State) :
    (answer a s).stimulus = s.stimulus := rfl

@[simp] theorem answer_out (a : Answer) (s : State) :
    (answer a s).out = a := rfl

/-! ### `raiseFatal` -/

@[simp] theorem raiseFatal_cfg (r : FatalReason) (h : Half) (p w : Nat) (s : State) :
    (raiseFatal r h p w s).cfg = s.cfg := rfl

@[simp] theorem raiseFatal_lastValue (r : FatalReason) (h : Half) (p w : Nat) (s : State) :
    (raiseFatal r h p w s).lastValue = s.lastValue := rfl

@[simp] theorem raiseFatal_lastDuration (r : FatalReason) (h : Half) (p w : Nat) (s : State) :
    (raiseFatal r h p w s).lastDuration = s.lastDuration := rfl

@[simp] theorem raiseFatal_bytes (r : FatalReason) (h : Half) (p w : Nat) (s : State) :
    (raiseFatal r h p w s).bytes = s.bytes := rfl

@[simp] theorem raiseFatal_durAcc (r : FatalReason) (h : Half) (p w : Nat) (s : State) :
    (raiseFatal r h p w s).durAcc = s.durAcc := rfl

@[simp] theorem raiseFatal_scanPos (r : FatalReason) (h : Half) (p w : Nat) (s : State) :
    (raiseFatal r h p w s).scanPos = s.scanPos := rfl

@[simp] theorem raiseFatal_curHalf (r : FatalReason) (h : Half) (p w : Nat) (s : State) :
    (raiseFatal r h p w s).curHalf = s.curHalf := rfl

@[simp] theorem raiseFatal_seqState (r : FatalReason) (h : Half) (p w : Nat) (s : State) :
    (raiseFatal r h p w s).seqState = s.seqState := rfl

@[simp] theorem raiseFatal_wrPtr (r : FatalReason) (h : Half) (p w : Nat) (s : State) :
    (raiseFatal r h p w s).wrPtr = s.wrPtr := rfl

@[simp] theorem raiseFatal_syncOut (r : FatalReason) (h : Half) (p w : Nat) (s : State) :
    (raiseFatal r h p w s).syncOut = s.syncOut := rfl

@[simp] theorem raiseFatal_ht (r : FatalReason) (h : Half) (p w : Nat) (s : State) :
    (raiseFatal r h p w s).ht = s.ht := rfl

@[simp] theorem raiseFatal_tc (r : FatalReason) (h : Half) (p w : Nat) (s : State) :
    (raiseFatal r h p w s).tc = s.tc := rfl

@[simp] theorem raiseFatal_err (r : FatalReason) (h : Half) (p w : Nat) (s : State) :
    (raiseFatal r h p w s).err = s.err := rfl

@[simp] theorem raiseFatal_irqEn (r : FatalReason) (h : Half) (p w : Nat) (s : State) :
    (raiseFatal r h p w s).irqEn = s.irqEn := rfl

@[simp] theorem raiseFatal_mode (r : FatalReason) (h : Half) (p w : Nat) (s : State) :
    (raiseFatal r h p w s).mode = .fatal := rfl

@[simp] theorem raiseFatal_fatalReason (r : FatalReason) (h : Half) (p w : Nat) (s : State) :
    (raiseFatal r h p w s).fatalReason = r := rfl

@[simp] theorem raiseFatal_fatalCtx (r : FatalReason) (h : Half) (p w : Nat) (s : State) :
    (raiseFatal r h p w s).fatalCtx = packCtx s.cfg h p w := rfl

@[simp] theorem raiseFatal_pp (r : FatalReason) (h : Half) (p w : Nat) (s : State) :
    (raiseFatal r h p w s).pp = s.pp := rfl

@[simp] theorem raiseFatal_eb (r : FatalReason) (h : Half) (p w : Nat) (s : State) :
    (raiseFatal r h p w s).eb = s.eb := rfl

@[simp] theorem raiseFatal_emission (r : FatalReason) (h : Half) (p w : Nat) (s : State) :
    (raiseFatal r h p w s).emission = s.emission := rfl

@[simp] theorem raiseFatal_epoch (r : FatalReason) (h : Half) (p w : Nat) (s : State) :
    (raiseFatal r h p w s).epoch = s.epoch := rfl

@[simp] theorem raiseFatal_stimulus (r : FatalReason) (h : Half) (p w : Nat) (s : State) :
    (raiseFatal r h p w s).stimulus = s.stimulus := rfl

@[simp] theorem raiseFatal_out (r : FatalReason) (h : Half) (p w : Nat) (s : State) :
    (raiseFatal r h p w s).out = s.out := rfl

/-! ### `throttleAt` -/

@[simp] theorem throttleAt_cfg (d : Duration) (s : State) :
    (throttleAt d s).cfg = s.cfg := rfl

@[simp] theorem throttleAt_lastValue (d : Duration) (s : State) :
    (throttleAt d s).lastValue = s.lastValue := rfl

@[simp] theorem throttleAt_lastDuration (d : Duration) (s : State) :
    (throttleAt d s).lastDuration = d := rfl

@[simp] theorem throttleAt_bytes (d : Duration) (s : State) :
    (throttleAt d s).bytes = s.bytes := rfl

@[simp] theorem throttleAt_durAcc (d : Duration) (s : State) :
    (throttleAt d s).durAcc = s.durAcc := rfl

@[simp] theorem throttleAt_scanPos (d : Duration) (s : State) :
    (throttleAt d s).scanPos = s.scanPos := rfl

@[simp] theorem throttleAt_curHalf (d : Duration) (s : State) :
    (throttleAt d s).curHalf = s.curHalf := rfl

@[simp] theorem throttleAt_seqState (d : Duration) (s : State) :
    (throttleAt d s).seqState = .idle := rfl

@[simp] theorem throttleAt_wrPtr (d : Duration) (s : State) :
    (throttleAt d s).wrPtr = s.wrPtr := rfl

@[simp] theorem throttleAt_syncOut (d : Duration) (s : State) :
    (throttleAt d s).syncOut = s.syncOut := rfl

@[simp] theorem throttleAt_ht (d : Duration) (s : State) :
    (throttleAt d s).ht = s.ht := rfl

@[simp] theorem throttleAt_tc (d : Duration) (s : State) :
    (throttleAt d s).tc = s.tc := rfl

@[simp] theorem throttleAt_err (d : Duration) (s : State) :
    (throttleAt d s).err = s.err := rfl

@[simp] theorem throttleAt_irqEn (d : Duration) (s : State) :
    (throttleAt d s).irqEn = false := rfl

@[simp] theorem throttleAt_mode (d : Duration) (s : State) :
    (throttleAt d s).mode = .suspended := rfl

@[simp] theorem throttleAt_fatalReason (d : Duration) (s : State) :
    (throttleAt d s).fatalReason = s.fatalReason := rfl

@[simp] theorem throttleAt_fatalCtx (d : Duration) (s : State) :
    (throttleAt d s).fatalCtx = s.fatalCtx := rfl

@[simp] theorem throttleAt_pp (d : Duration) (s : State) :
    (throttleAt d s).pp = s.pp := rfl

@[simp] theorem throttleAt_eb (d : Duration) (s : State) :
    (throttleAt d s).eb = s.eb := rfl

@[simp] theorem throttleAt_emission (d : Duration) (s : State) :
    (throttleAt d s).emission = s.emission := rfl

@[simp] theorem throttleAt_epoch (d : Duration) (s : State) :
    (throttleAt d s).epoch = s.epoch := rfl

@[simp] theorem throttleAt_stimulus (d : Duration) (s : State) :
    (throttleAt d s).stimulus = s.stimulus := rfl

@[simp] theorem throttleAt_out (d : Duration) (s : State) :
    (throttleAt d s).out = s.out := rfl

/-! ### `appendBytes` -/

@[simp] theorem appendBytes_cfg (bs : List Byte) (s : State) :
    (appendBytes bs s).cfg = s.cfg := rfl

@[simp] theorem appendBytes_lastValue (bs : List Byte) (s : State) :
    (appendBytes bs s).lastValue = s.lastValue := rfl

@[simp] theorem appendBytes_lastDuration (bs : List Byte) (s : State) :
    (appendBytes bs s).lastDuration = s.lastDuration := rfl

@[simp] theorem appendBytes_bytes (bs : List Byte) (s : State) :
    (appendBytes bs s).bytes = s.bytes + bs.length := rfl

@[simp] theorem appendBytes_durAcc (bs : List Byte) (s : State) :
    (appendBytes bs s).durAcc = s.durAcc := rfl

@[simp] theorem appendBytes_scanPos (bs : List Byte) (s : State) :
    (appendBytes bs s).scanPos = s.scanPos := rfl

@[simp] theorem appendBytes_curHalf (bs : List Byte) (s : State) :
    (appendBytes bs s).curHalf = s.curHalf := rfl

@[simp] theorem appendBytes_seqState (bs : List Byte) (s : State) :
    (appendBytes bs s).seqState = s.seqState := rfl

@[simp] theorem appendBytes_wrPtr (bs : List Byte) (s : State) :
    (appendBytes bs s).wrPtr = s.wrPtr := rfl

@[simp] theorem appendBytes_syncOut (bs : List Byte) (s : State) :
    (appendBytes bs s).syncOut = s.syncOut := rfl

@[simp] theorem appendBytes_ht (bs : List Byte) (s : State) :
    (appendBytes bs s).ht = s.ht := rfl

@[simp] theorem appendBytes_tc (bs : List Byte) (s : State) :
    (appendBytes bs s).tc = s.tc := rfl

@[simp] theorem appendBytes_err (bs : List Byte) (s : State) :
    (appendBytes bs s).err = s.err := rfl

@[simp] theorem appendBytes_irqEn (bs : List Byte) (s : State) :
    (appendBytes bs s).irqEn = s.irqEn := rfl

@[simp] theorem appendBytes_mode (bs : List Byte) (s : State) :
    (appendBytes bs s).mode = s.mode := rfl

@[simp] theorem appendBytes_fatalReason (bs : List Byte) (s : State) :
    (appendBytes bs s).fatalReason = s.fatalReason := rfl

@[simp] theorem appendBytes_fatalCtx (bs : List Byte) (s : State) :
    (appendBytes bs s).fatalCtx = s.fatalCtx := rfl

@[simp] theorem appendBytes_pp (bs : List Byte) (s : State) :
    (appendBytes bs s).pp = s.pp := rfl

@[simp] theorem appendBytes_eb (bs : List Byte) (s : State) :
    (appendBytes bs s).eb = Memory.writeList s.eb s.bytes bs := rfl

@[simp] theorem appendBytes_emission (bs : List Byte) (s : State) :
    (appendBytes bs s).emission = s.emission := rfl

@[simp] theorem appendBytes_epoch (bs : List Byte) (s : State) :
    (appendBytes bs s).epoch = s.epoch := rfl

@[simp] theorem appendBytes_stimulus (bs : List Byte) (s : State) :
    (appendBytes bs s).stimulus = s.stimulus := rfl

@[simp] theorem appendBytes_out (bs : List Byte) (s : State) :
    (appendBytes bs s).out = s.out := rfl

/-! ### `enterHalf` -/

@[simp] theorem enterHalf_cfg (h : Half) (s : State) :
    (enterHalf h s).cfg = s.cfg := rfl

@[simp] theorem enterHalf_lastValue (h : Half) (s : State) :
    (enterHalf h s).lastValue = s.lastValue := rfl

@[simp] theorem enterHalf_lastDuration (h : Half) (s : State) :
    (enterHalf h s).lastDuration = s.lastDuration := rfl

@[simp] theorem enterHalf_bytes (h : Half) (s : State) :
    (enterHalf h s).bytes = s.bytes := rfl

@[simp] theorem enterHalf_durAcc (h : Half) (s : State) :
    (enterHalf h s).durAcc = s.lastDuration := rfl

@[simp] theorem enterHalf_scanPos (h : Half) (s : State) :
    (enterHalf h s).scanPos = 0 := rfl

@[simp] theorem enterHalf_curHalf (h : Half) (s : State) :
    (enterHalf h s).curHalf = h := rfl

@[simp] theorem enterHalf_seqState (h : Half) (s : State) :
    (enterHalf h s).seqState = .encode := rfl

@[simp] theorem enterHalf_wrPtr (h : Half) (s : State) :
    (enterHalf h s).wrPtr = s.wrPtr := rfl

@[simp] theorem enterHalf_syncOut (h : Half) (s : State) :
    (enterHalf h s).syncOut = s.syncOut := rfl

@[simp] theorem enterHalf_ht (h : Half) (s : State) :
    (enterHalf h s).ht = s.ht := rfl

@[simp] theorem enterHalf_tc (h : Half) (s : State) :
    (enterHalf h s).tc = s.tc := rfl

@[simp] theorem enterHalf_err (h : Half) (s : State) :
    (enterHalf h s).err = s.err := rfl

@[simp] theorem enterHalf_irqEn (h : Half) (s : State) :
    (enterHalf h s).irqEn = s.irqEn := rfl

@[simp] theorem enterHalf_mode (h : Half) (s : State) :
    (enterHalf h s).mode = .running := rfl

@[simp] theorem enterHalf_fatalReason (h : Half) (s : State) :
    (enterHalf h s).fatalReason = s.fatalReason := rfl

@[simp] theorem enterHalf_fatalCtx (h : Half) (s : State) :
    (enterHalf h s).fatalCtx = s.fatalCtx := rfl

@[simp] theorem enterHalf_pp (h : Half) (s : State) :
    (enterHalf h s).pp = s.pp := rfl

@[simp] theorem enterHalf_eb (h : Half) (s : State) :
    (enterHalf h s).eb = s.eb := rfl

@[simp] theorem enterHalf_emission (h : Half) (s : State) :
    (enterHalf h s).emission = s.emission := rfl

@[simp] theorem enterHalf_epoch (h : Half) (s : State) :
    (enterHalf h s).epoch = s.epoch := rfl

@[simp] theorem enterHalf_stimulus (h : Half) (s : State) :
    (enterHalf h s).stimulus = s.stimulus := rfl

@[simp] theorem enterHalf_out (h : Half) (s : State) :
    (enterHalf h s).out = s.out := rfl

/-! ### `sampleOp` -/

@[simp] theorem sampleOp_cfg (w : SampleWord) (s : State) :
    (sampleOp w s).cfg = s.cfg := rfl

@[simp] theorem sampleOp_lastValue (w : SampleWord) (s : State) :
    (sampleOp w s).lastValue = s.lastValue := rfl

@[simp] theorem sampleOp_lastDuration (w : SampleWord) (s : State) :
    (sampleOp w s).lastDuration = s.lastDuration := rfl

@[simp] theorem sampleOp_bytes (w : SampleWord) (s : State) :
    (sampleOp w s).bytes = s.bytes := rfl

@[simp] theorem sampleOp_durAcc (w : SampleWord) (s : State) :
    (sampleOp w s).durAcc = s.durAcc := rfl

@[simp] theorem sampleOp_scanPos (w : SampleWord) (s : State) :
    (sampleOp w s).scanPos = s.scanPos := rfl

@[simp] theorem sampleOp_curHalf (w : SampleWord) (s : State) :
    (sampleOp w s).curHalf = s.curHalf := rfl

@[simp] theorem sampleOp_seqState (w : SampleWord) (s : State) :
    (sampleOp w s).seqState = s.seqState := rfl

@[simp] theorem sampleOp_wrPtr (w : SampleWord) (s : State) :
    (sampleOp w s).wrPtr = (s.wrPtr + 1) % (2 * s.cfg.h) := rfl

@[simp] theorem sampleOp_syncOut (w : SampleWord) (s : State) :
    (sampleOp w s).syncOut = !s.syncOut := rfl

@[simp] theorem sampleOp_ht (w : SampleWord) (s : State) :
    (sampleOp w s).ht = (s.ht || decide (s.wrPtr + 1 = s.cfg.h)) := rfl

@[simp] theorem sampleOp_tc (w : SampleWord) (s : State) :
    (sampleOp w s).tc = (s.tc || decide (s.wrPtr + 1 = 2 * s.cfg.h)) := rfl

@[simp] theorem sampleOp_err (w : SampleWord) (s : State) :
    (sampleOp w s).err = s.err := rfl

@[simp] theorem sampleOp_irqEn (w : SampleWord) (s : State) :
    (sampleOp w s).irqEn = s.irqEn := rfl

@[simp] theorem sampleOp_mode (w : SampleWord) (s : State) :
    (sampleOp w s).mode = s.mode := rfl

@[simp] theorem sampleOp_fatalReason (w : SampleWord) (s : State) :
    (sampleOp w s).fatalReason = s.fatalReason := rfl

@[simp] theorem sampleOp_fatalCtx (w : SampleWord) (s : State) :
    (sampleOp w s).fatalCtx = s.fatalCtx := rfl

@[simp] theorem sampleOp_pp (w : SampleWord) (s : State) :
    (sampleOp w s).pp = Memory.write s.pp s.wrPtr w := rfl

@[simp] theorem sampleOp_eb (w : SampleWord) (s : State) :
    (sampleOp w s).eb = s.eb := rfl

@[simp] theorem sampleOp_emission (w : SampleWord) (s : State) :
    (sampleOp w s).emission = s.emission := rfl

@[simp] theorem sampleOp_epoch (w : SampleWord) (s : State) :
    (sampleOp w s).epoch = s.epoch := rfl

@[simp] theorem sampleOp_stimulus (w : SampleWord) (s : State) :
    (sampleOp w s).stimulus = s.stimulus := rfl

@[simp] theorem sampleOp_out (w : SampleWord) (s : State) :
    (sampleOp w s).out = s.out := rfl

/-! ### `State.taken` -/

@[simp] theorem taken_cfg (s : State) (rest : List Fetch) :
    (State.taken s rest).cfg = s.cfg := rfl

@[simp] theorem taken_lastValue (s : State) (rest : List Fetch) :
    (State.taken s rest).lastValue = s.lastValue := rfl

@[simp] theorem taken_lastDuration (s : State) (rest : List Fetch) :
    (State.taken s rest).lastDuration = s.lastDuration := rfl

@[simp] theorem taken_bytes (s : State) (rest : List Fetch) :
    (State.taken s rest).bytes = s.bytes := rfl

@[simp] theorem taken_durAcc (s : State) (rest : List Fetch) :
    (State.taken s rest).durAcc = s.durAcc := rfl

@[simp] theorem taken_scanPos (s : State) (rest : List Fetch) :
    (State.taken s rest).scanPos = s.scanPos := rfl

@[simp] theorem taken_curHalf (s : State) (rest : List Fetch) :
    (State.taken s rest).curHalf = s.curHalf := rfl

@[simp] theorem taken_seqState (s : State) (rest : List Fetch) :
    (State.taken s rest).seqState = s.seqState := rfl

@[simp] theorem taken_wrPtr (s : State) (rest : List Fetch) :
    (State.taken s rest).wrPtr = s.wrPtr := rfl

@[simp] theorem taken_syncOut (s : State) (rest : List Fetch) :
    (State.taken s rest).syncOut = s.syncOut := rfl

@[simp] theorem taken_ht (s : State) (rest : List Fetch) :
    (State.taken s rest).ht = s.ht := rfl

@[simp] theorem taken_tc (s : State) (rest : List Fetch) :
    (State.taken s rest).tc = s.tc := rfl

@[simp] theorem taken_err (s : State) (rest : List Fetch) :
    (State.taken s rest).err = s.err := rfl

@[simp] theorem taken_irqEn (s : State) (rest : List Fetch) :
    (State.taken s rest).irqEn = s.irqEn := rfl

@[simp] theorem taken_mode (s : State) (rest : List Fetch) :
    (State.taken s rest).mode = s.mode := rfl

@[simp] theorem taken_fatalReason (s : State) (rest : List Fetch) :
    (State.taken s rest).fatalReason = s.fatalReason := rfl

@[simp] theorem taken_fatalCtx (s : State) (rest : List Fetch) :
    (State.taken s rest).fatalCtx = s.fatalCtx := rfl

@[simp] theorem taken_pp (s : State) (rest : List Fetch) :
    (State.taken s rest).pp = s.pp := rfl

@[simp] theorem taken_eb (s : State) (rest : List Fetch) :
    (State.taken s rest).eb = s.eb := rfl

@[simp] theorem taken_emission (s : State) (rest : List Fetch) :
    (s.taken rest).emission = s.emission := rfl

@[simp] theorem taken_epoch (s : State) (rest : List Fetch) :
    (State.taken s rest).epoch = s.epoch := rfl

@[simp] theorem taken_stimulus (s : State) (rest : List Fetch) :
    (State.taken s rest).stimulus = rest := rfl

@[simp] theorem taken_out (s : State) (rest : List Fetch) :
    (State.taken s rest).out = .none := rfl

/-! ### `clearFlag` -/

@[simp] theorem clearFlag_cfg (h : Half) (s : State) : (clearFlag h s).cfg = s.cfg := by
  cases h <;> rfl

@[simp] theorem clearFlag_lastValue (h : Half) (s : State) : (clearFlag h s).lastValue = s.lastValue := by
  cases h <;> rfl

@[simp] theorem clearFlag_lastDuration (h : Half) (s : State) : (clearFlag h s).lastDuration = s.lastDuration := by
  cases h <;> rfl

@[simp] theorem clearFlag_bytes (h : Half) (s : State) : (clearFlag h s).bytes = s.bytes := by
  cases h <;> rfl

@[simp] theorem clearFlag_durAcc (h : Half) (s : State) : (clearFlag h s).durAcc = s.durAcc := by
  cases h <;> rfl

@[simp] theorem clearFlag_scanPos (h : Half) (s : State) : (clearFlag h s).scanPos = s.scanPos := by
  cases h <;> rfl

@[simp] theorem clearFlag_curHalf (h : Half) (s : State) : (clearFlag h s).curHalf = s.curHalf := by
  cases h <;> rfl

@[simp] theorem clearFlag_seqState (h : Half) (s : State) : (clearFlag h s).seqState = s.seqState := by
  cases h <;> rfl

@[simp] theorem clearFlag_wrPtr (h : Half) (s : State) : (clearFlag h s).wrPtr = s.wrPtr := by
  cases h <;> rfl

@[simp] theorem clearFlag_syncOut (h : Half) (s : State) : (clearFlag h s).syncOut = s.syncOut := by
  cases h <;> rfl

@[simp] theorem clearFlag_err (h : Half) (s : State) : (clearFlag h s).err = s.err := by
  cases h <;> rfl

@[simp] theorem clearFlag_irqEn (h : Half) (s : State) : (clearFlag h s).irqEn = s.irqEn := by
  cases h <;> rfl

@[simp] theorem clearFlag_mode (h : Half) (s : State) : (clearFlag h s).mode = s.mode := by
  cases h <;> rfl

@[simp] theorem clearFlag_fatalReason (h : Half) (s : State) : (clearFlag h s).fatalReason = s.fatalReason := by
  cases h <;> rfl

@[simp] theorem clearFlag_fatalCtx (h : Half) (s : State) : (clearFlag h s).fatalCtx = s.fatalCtx := by
  cases h <;> rfl

@[simp] theorem clearFlag_pp (h : Half) (s : State) : (clearFlag h s).pp = s.pp := by
  cases h <;> rfl

@[simp] theorem clearFlag_eb (h : Half) (s : State) : (clearFlag h s).eb = s.eb := by
  cases h <;> rfl

@[simp] theorem clearFlag_emission (h : Half) (s : State) :
    (clearFlag h s).emission = s.emission := by cases h <;> rfl

@[simp] theorem clearFlag_epoch (h : Half) (s : State) : (clearFlag h s).epoch = s.epoch := by
  cases h <;> rfl

@[simp] theorem clearFlag_stimulus (h : Half) (s : State) : (clearFlag h s).stimulus = s.stimulus := by
  cases h <;> rfl

@[simp] theorem clearFlag_out (h : Half) (s : State) : (clearFlag h s).out = s.out := by
  cases h <;> rfl

theorem clearFlag_ht (h : Half) (s : State) :
    (clearFlag h s).ht = match h with | .half0 => false | .half1 => s.ht := by
  cases h <;> rfl

theorem clearFlag_tc (h : Half) (s : State) :
    (clearFlag h s).tc = match h with | .half0 => s.tc | .half1 => false := by
  cases h <;> rfl

@[simp] theorem clearFlag_half0 (s : State) : clearFlag .half0 s = { s with ht := false } := rfl

@[simp] theorem clearFlag_half1 (s : State) : clearFlag .half1 s = { s with tc := false } := rfl

/-! ### `resetOp` -/

@[simp] theorem resetOp_cfg (s : State) : (resetOp s).cfg = s.cfg := rfl

@[simp] theorem resetOp_emission (s : State) : (resetOp s).emission = none := rfl

@[simp] theorem resetOp_epoch (s : State) : (resetOp s).epoch = s.epoch + 1 := rfl

@[simp] theorem resetOp_stimulus (s : State) : (resetOp s).stimulus = s.stimulus := rfl

theorem resetOp_eq (s : State) : resetOp s =
    { State.resetFor s.cfg with epoch := s.epoch + 1, stimulus := s.stimulus } := rfl

/-! ### `startEmission` -/

@[simp] theorem startEmission_cfg (bs : List Byte) (l : Level) (p : Nat) (s : State) :
    (startEmission bs l p s).cfg = s.cfg := rfl

@[simp] theorem startEmission_lastValue (bs : List Byte) (l : Level) (p : Nat) (s : State) :
    (startEmission bs l p s).lastValue = s.lastValue := rfl

@[simp] theorem startEmission_lastDuration (bs : List Byte) (l : Level) (p : Nat) (s : State) :
    (startEmission bs l p s).lastDuration = s.lastDuration := rfl

@[simp] theorem startEmission_bytes (bs : List Byte) (l : Level) (p : Nat) (s : State) :
    (startEmission bs l p s).bytes = s.bytes := rfl

@[simp] theorem startEmission_durAcc (bs : List Byte) (l : Level) (p : Nat) (s : State) :
    (startEmission bs l p s).durAcc = durReset := rfl

@[simp] theorem startEmission_scanPos (bs : List Byte) (l : Level) (p : Nat) (s : State) :
    (startEmission bs l p s).scanPos = p + 1 := rfl

@[simp] theorem startEmission_curHalf (bs : List Byte) (l : Level) (p : Nat) (s : State) :
    (startEmission bs l p s).curHalf = s.curHalf := rfl

@[simp] theorem startEmission_seqState (bs : List Byte) (l : Level) (p : Nat) (s : State) :
    (startEmission bs l p s).seqState = s.seqState := rfl

@[simp] theorem startEmission_wrPtr (bs : List Byte) (l : Level) (p : Nat) (s : State) :
    (startEmission bs l p s).wrPtr = s.wrPtr := rfl

@[simp] theorem startEmission_syncOut (bs : List Byte) (l : Level) (p : Nat) (s : State) :
    (startEmission bs l p s).syncOut = s.syncOut := rfl

@[simp] theorem startEmission_ht (bs : List Byte) (l : Level) (p : Nat) (s : State) :
    (startEmission bs l p s).ht = s.ht := rfl

@[simp] theorem startEmission_tc (bs : List Byte) (l : Level) (p : Nat) (s : State) :
    (startEmission bs l p s).tc = s.tc := rfl

@[simp] theorem startEmission_err (bs : List Byte) (l : Level) (p : Nat) (s : State) :
    (startEmission bs l p s).err = s.err := rfl

@[simp] theorem startEmission_irqEn (bs : List Byte) (l : Level) (p : Nat) (s : State) :
    (startEmission bs l p s).irqEn = s.irqEn := rfl

@[simp] theorem startEmission_mode (bs : List Byte) (l : Level) (p : Nat) (s : State) :
    (startEmission bs l p s).mode = s.mode := rfl

@[simp] theorem startEmission_fatalReason (bs : List Byte) (l : Level) (p : Nat) (s : State) :
    (startEmission bs l p s).fatalReason = s.fatalReason := rfl

@[simp] theorem startEmission_fatalCtx (bs : List Byte) (l : Level) (p : Nat) (s : State) :
    (startEmission bs l p s).fatalCtx = s.fatalCtx := rfl

@[simp] theorem startEmission_pp (bs : List Byte) (l : Level) (p : Nat) (s : State) :
    (startEmission bs l p s).pp = s.pp := rfl

@[simp] theorem startEmission_eb (bs : List Byte) (l : Level) (p : Nat) (s : State) :
    (startEmission bs l p s).eb = s.eb := rfl

@[simp] theorem startEmission_emission (bs : List Byte) (l : Level) (p : Nat) (s : State) :
    (startEmission bs l p s).emission = some { record := bs, level := l, seen := 1 } := rfl

@[simp] theorem startEmission_epoch (bs : List Byte) (l : Level) (p : Nat) (s : State) :
    (startEmission bs l p s).epoch = s.epoch := rfl

@[simp] theorem startEmission_stimulus (bs : List Byte) (l : Level) (p : Nat) (s : State) :
    (startEmission bs l p s).stimulus = s.stimulus := rfl

@[simp] theorem startEmission_out (bs : List Byte) (l : Level) (p : Nat) (s : State) :
    (startEmission bs l p s).out = s.out := rfl

/-! ### `advanceEmission` -/

@[simp] theorem advanceEmission_cfg (e : Emission) (s : State) :
    (advanceEmission e s).cfg = s.cfg := rfl

@[simp] theorem advanceEmission_lastValue (e : Emission) (s : State) :
    (advanceEmission e s).lastValue = s.lastValue := rfl

@[simp] theorem advanceEmission_lastDuration (e : Emission) (s : State) :
    (advanceEmission e s).lastDuration = s.lastDuration := rfl

@[simp] theorem advanceEmission_bytes (e : Emission) (s : State) :
    (advanceEmission e s).bytes = s.bytes := rfl

@[simp] theorem advanceEmission_durAcc (e : Emission) (s : State) :
    (advanceEmission e s).durAcc = s.durAcc := rfl

@[simp] theorem advanceEmission_scanPos (e : Emission) (s : State) :
    (advanceEmission e s).scanPos = s.scanPos := rfl

@[simp] theorem advanceEmission_curHalf (e : Emission) (s : State) :
    (advanceEmission e s).curHalf = s.curHalf := rfl

@[simp] theorem advanceEmission_seqState (e : Emission) (s : State) :
    (advanceEmission e s).seqState = s.seqState := rfl

@[simp] theorem advanceEmission_wrPtr (e : Emission) (s : State) :
    (advanceEmission e s).wrPtr = s.wrPtr := rfl

@[simp] theorem advanceEmission_syncOut (e : Emission) (s : State) :
    (advanceEmission e s).syncOut = s.syncOut := rfl

@[simp] theorem advanceEmission_ht (e : Emission) (s : State) :
    (advanceEmission e s).ht = s.ht := rfl

@[simp] theorem advanceEmission_tc (e : Emission) (s : State) :
    (advanceEmission e s).tc = s.tc := rfl

@[simp] theorem advanceEmission_err (e : Emission) (s : State) :
    (advanceEmission e s).err = s.err := rfl

@[simp] theorem advanceEmission_irqEn (e : Emission) (s : State) :
    (advanceEmission e s).irqEn = s.irqEn := rfl

@[simp] theorem advanceEmission_mode (e : Emission) (s : State) :
    (advanceEmission e s).mode = s.mode := rfl

@[simp] theorem advanceEmission_fatalReason (e : Emission) (s : State) :
    (advanceEmission e s).fatalReason = s.fatalReason := rfl

@[simp] theorem advanceEmission_fatalCtx (e : Emission) (s : State) :
    (advanceEmission e s).fatalCtx = s.fatalCtx := rfl

@[simp] theorem advanceEmission_pp (e : Emission) (s : State) :
    (advanceEmission e s).pp = s.pp := rfl

@[simp] theorem advanceEmission_eb (e : Emission) (s : State) :
    (advanceEmission e s).eb = s.eb := rfl

@[simp] theorem advanceEmission_emission (e : Emission) (s : State) :
    (advanceEmission e s).emission = some { e with seen := e.seen + 1 } := rfl

@[simp] theorem advanceEmission_epoch (e : Emission) (s : State) :
    (advanceEmission e s).epoch = s.epoch := rfl

@[simp] theorem advanceEmission_stimulus (e : Emission) (s : State) :
    (advanceEmission e s).stimulus = s.stimulus := rfl

@[simp] theorem advanceEmission_out (e : Emission) (s : State) :
    (advanceEmission e s).out = s.out := rfl

/-! ### `finishEmission` -/

@[simp] theorem finishEmission_cfg (bs : List Byte) (l : Level) (s : State) :
    (finishEmission bs l s).cfg = s.cfg := rfl

@[simp] theorem finishEmission_lastValue (bs : List Byte) (l : Level) (s : State) :
    (finishEmission bs l s).lastValue = l := rfl

@[simp] theorem finishEmission_lastDuration (bs : List Byte) (l : Level) (s : State) :
    (finishEmission bs l s).lastDuration = s.lastDuration := rfl

@[simp] theorem finishEmission_bytes (bs : List Byte) (l : Level) (s : State) :
    (finishEmission bs l s).bytes = s.bytes + bs.length := rfl

@[simp] theorem finishEmission_durAcc (bs : List Byte) (l : Level) (s : State) :
    (finishEmission bs l s).durAcc = s.durAcc := rfl

@[simp] theorem finishEmission_scanPos (bs : List Byte) (l : Level) (s : State) :
    (finishEmission bs l s).scanPos = s.scanPos := rfl

@[simp] theorem finishEmission_curHalf (bs : List Byte) (l : Level) (s : State) :
    (finishEmission bs l s).curHalf = s.curHalf := rfl

@[simp] theorem finishEmission_seqState (bs : List Byte) (l : Level) (s : State) :
    (finishEmission bs l s).seqState = s.seqState := rfl

@[simp] theorem finishEmission_wrPtr (bs : List Byte) (l : Level) (s : State) :
    (finishEmission bs l s).wrPtr = s.wrPtr := rfl

@[simp] theorem finishEmission_syncOut (bs : List Byte) (l : Level) (s : State) :
    (finishEmission bs l s).syncOut = s.syncOut := rfl

@[simp] theorem finishEmission_ht (bs : List Byte) (l : Level) (s : State) :
    (finishEmission bs l s).ht = s.ht := rfl

@[simp] theorem finishEmission_tc (bs : List Byte) (l : Level) (s : State) :
    (finishEmission bs l s).tc = s.tc := rfl

@[simp] theorem finishEmission_err (bs : List Byte) (l : Level) (s : State) :
    (finishEmission bs l s).err = s.err := rfl

@[simp] theorem finishEmission_irqEn (bs : List Byte) (l : Level) (s : State) :
    (finishEmission bs l s).irqEn = s.irqEn := rfl

@[simp] theorem finishEmission_mode (bs : List Byte) (l : Level) (s : State) :
    (finishEmission bs l s).mode = s.mode := rfl

@[simp] theorem finishEmission_fatalReason (bs : List Byte) (l : Level) (s : State) :
    (finishEmission bs l s).fatalReason = s.fatalReason := rfl

@[simp] theorem finishEmission_fatalCtx (bs : List Byte) (l : Level) (s : State) :
    (finishEmission bs l s).fatalCtx = s.fatalCtx := rfl

@[simp] theorem finishEmission_pp (bs : List Byte) (l : Level) (s : State) :
    (finishEmission bs l s).pp = s.pp := rfl

@[simp] theorem finishEmission_eb (bs : List Byte) (l : Level) (s : State) :
    (finishEmission bs l s).eb = Memory.writeList s.eb s.bytes bs := rfl

@[simp] theorem finishEmission_emission (bs : List Byte) (l : Level) (s : State) :
    (finishEmission bs l s).emission = none := rfl

@[simp] theorem finishEmission_epoch (bs : List Byte) (l : Level) (s : State) :
    (finishEmission bs l s).epoch = s.epoch := rfl

@[simp] theorem finishEmission_stimulus (bs : List Byte) (l : Level) (s : State) :
    (finishEmission bs l s).stimulus = s.stimulus := rfl

@[simp] theorem finishEmission_out (bs : List Byte) (l : Level) (s : State) :
    (finishEmission bs l s).out = s.out := rfl

/-! ### `hostView` -/

@[simp] theorem hostView_cfg (s : State) :
    (hostView s).cfg = s.cfg := by
  unfold hostView; split <;> rfl

@[simp] theorem hostView_lastValue (s : State) :
    (hostView s).lastValue = s.lastValue := by
  unfold hostView; split <;> rfl

@[simp] theorem hostView_lastDuration (s : State) :
    (hostView s).lastDuration = s.lastDuration := by
  unfold hostView; split <;> rfl

@[simp] theorem hostView_durAcc (s : State) :
    (hostView s).durAcc = s.durAcc := by
  unfold hostView; split <;> rfl

@[simp] theorem hostView_scanPos (s : State) :
    (hostView s).scanPos = s.scanPos := by
  unfold hostView; split <;> rfl

@[simp] theorem hostView_curHalf (s : State) :
    (hostView s).curHalf = s.curHalf := by
  unfold hostView; split <;> rfl

@[simp] theorem hostView_seqState (s : State) :
    (hostView s).seqState = s.seqState := by
  unfold hostView; split <;> rfl

@[simp] theorem hostView_wrPtr (s : State) :
    (hostView s).wrPtr = s.wrPtr := by
  unfold hostView; split <;> rfl

@[simp] theorem hostView_syncOut (s : State) :
    (hostView s).syncOut = s.syncOut := by
  unfold hostView; split <;> rfl

@[simp] theorem hostView_ht (s : State) :
    (hostView s).ht = s.ht := by
  unfold hostView; split <;> rfl

@[simp] theorem hostView_tc (s : State) :
    (hostView s).tc = s.tc := by
  unfold hostView; split <;> rfl

@[simp] theorem hostView_err (s : State) :
    (hostView s).err = s.err := by
  unfold hostView; split <;> rfl

@[simp] theorem hostView_irqEn (s : State) :
    (hostView s).irqEn = s.irqEn := by
  unfold hostView; split <;> rfl

@[simp] theorem hostView_mode (s : State) :
    (hostView s).mode = s.mode := by
  unfold hostView; split <;> rfl

@[simp] theorem hostView_fatalReason (s : State) :
    (hostView s).fatalReason = s.fatalReason := by
  unfold hostView; split <;> rfl

@[simp] theorem hostView_fatalCtx (s : State) :
    (hostView s).fatalCtx = s.fatalCtx := by
  unfold hostView; split <;> rfl

@[simp] theorem hostView_pp (s : State) :
    (hostView s).pp = s.pp := by
  unfold hostView; split <;> rfl

@[simp] theorem hostView_emission (s : State) :
    (hostView s).emission = s.emission := by
  unfold hostView; split <;> rfl

@[simp] theorem hostView_epoch (s : State) :
    (hostView s).epoch = s.epoch := by
  unfold hostView; split <;> rfl

@[simp] theorem hostView_stimulus (s : State) :
    (hostView s).stimulus = s.stimulus := by
  unfold hostView; split <;> rfl

@[simp] theorem hostView_out (s : State) :
    (hostView s).out = s.out := by
  unfold hostView; split <;> rfl

theorem hostView_none {s : State} (h : s.emission = none) : hostView s = s := by
  simp only [hostView, h]

theorem hostView_some {s : State} {e : Emission} (h : s.emission = some e) :
    hostView s = { s with
      eb := Memory.writeList s.eb s.bytes (e.record.take e.seen)
      bytes := if e.record.length < e.seen then s.bytes + e.record.length else s.bytes } := by
  simp only [hostView, h]

end Sys2Proof.Machine
end

