-- ==== Sys2Proof/Laws/Step.lean ====
section
/-! SUPPORT. What one step can do, said once: every step of the machine is a sequence of effects, each of one rule of
spec/ under its guard. Invariants are proved per effect. -/

namespace Sys2Proof.Machine

/-- The atomic effects of the block within a session, each under the guard of its rule, and the
putting out of an answer. -/
inductive Work : State → State → Prop where
  | answer (s : State) (a : Answer) : Work s (answer a s)
  | sample (s : State) (w : SampleWord) : modeSamples s.mode = true → w < 2 ^ s.cfg.w →
      s.wrPtr < 2 * s.cfg.h → Work s (sampleOp w s)
  | dmaerr (s : State) : modeSamples s.mode = true → Work s { s with err := true }
  | dmaFatal (s : State) : enterEnabled s = true → s.err = true →
      Work s (raiseFatal .dmaError .half0 0 0 s)
  | enter (s : State) (half : Half) : enterEnabled s = true → s.err = false →
      ownFlag s half = true → (half = .half1 → s.ht = false) → Work s (enterHalf half s)
  | encode (s : State) : stepEnabled s .encode = true → s.scanPos ≤ s.cfg.h →
      Work s (encStepOp s)
  | start (s : State) (bs : List Byte) (l : Level) (p : Nat) : stepEnabled s .encode = true →
      s.scanPos ≤ s.cfg.h → s.emission = none → scanArm s = .emit bs l p →
      Work s (startEmission bs l p s)
  | advance (s : State) (e : Emission) : stepEnabled s .encode = true → s.emission = some e →
      e.seen ≤ e.record.length → Work s (advanceEmission e s)
  | clear (s : State) : stepEnabled s .clear = true →
      Work s { clearFlag s.curHalf s with seqState := .check }
  | finish (s : State) : stepEnabled s .check = true → otherFlag s s.curHalf = false →
      Work s { s with seqState := .idle }
  | overrun (s : State) : stepEnabled s .check = true → otherFlag s s.curHalf = true →
      Work s (raiseFatal .overrun s.curHalf 0 0 s)

/-- All the atomic effects: those within a session, the two that begin one anew, and the taking of
a stimulus item. -/
inductive Move : State → State → Prop where
  | take (s : State) (rest : List Fetch) : Move s (s.taken rest)
  | work (s t : State) : Work s t → Move s t
  | arm (s : State) (o : Answer) : s.seqState = .idle → s.mode ≠ .fatal →
      Move s { s with
        wrPtr := 0, ht := false, tc := false, err := false, bytes := 0, lastDuration := 0,
        mode := .armed, irqEn := true, out := o }
  | reset (s : State) : Move s (resetOp s)

/-- Any number of effects within a session. -/
abbrev Works : State → State → Prop := Relation.ReflTransGen Work

/-- Any number of effects. -/
abbrev Moves : State → State → Prop := Relation.ReflTransGen Move

theorem Works.one {s t : State} (h : Work s t) : Works s t := Relation.ReflTransGen.single h

theorem Works.moves {s t : State} (h : Works s t) : Moves s t :=
  Relation.ReflTransGen.mono (fun a b => Move.work a b) _ _ h

/-- Taking a stimulus item leaves what SEQ does as it is. -/
@[simp] theorem scanArm_taken (s : State) (rest : List Fetch) :
    scanArm (s.taken rest) = scanArm s :=
  scanArm_eq_of rfl rfl rfl rfl rfl rfl rfl rfl

theorem works_answer (a : Answer) (s : State) : Works s (answer a s) :=
  .one (.answer s a)

theorem works_dispErrOp (s : State) : Works s (dispErrOp s) := by
  unfold dispErrOp
  split
  · rename_i h
    simp only [Bool.and_eq_true] at h
    exact .one (.dmaFatal s h.1 h.2)
  · exact .refl

theorem works_dispHalfOp (s : State) : Works s (dispHalfOp s) := by
  unfold dispHalfOp
  split
  · rename_i h
    simp only [Bool.and_eq_true, Bool.not_eq_true'] at h
    exact .one (.enter s .half0 h.1.1 h.1.2 h.2 (by simp))
  · exact .refl

theorem works_dispFullOp (s : State) : Works s (dispFullOp s) := by
  unfold dispFullOp
  split
  · rename_i h
    simp only [Bool.and_eq_true, Bool.not_eq_true'] at h
    exact .one (.enter s .half1 h.1.1.1 h.1.1.2 h.2 (fun _ => h.1.2))
  · exact .refl

theorem works_seqEnterOp (s : State) : Works s (seqEnterOp s) := by
  unfold seqEnterOp
  split
  · exact works_dispErrOp s
  · split
    · exact works_dispHalfOp s
    · exact works_dispFullOp s

theorem works_encStepOp {s : State} (h : stepEnabled s .encode = true → s.scanPos ≤ s.cfg.h) :
    Works s (encStepOp s) := by
  cases he : stepEnabled s .encode with
  | false => rw [encStepOp_of_disabled he]
  | true => exact .one (.encode s he (h he))

theorem works_seqClearOp (s : State) : Works s (seqClearOp s) := by
  unfold seqClearOp
  split
  · rename_i h; exact .one (.clear s h)
  · exact .refl

theorem works_seqCheckOp (s : State) : Works s (seqCheckOp s) := by
  unfold seqCheckOp
  split
  · rename_i h
    split
    · rename_i h'; exact .one (.overrun s h h')
    · rename_i h'; exact .one (.finish s h (by simpa using h'))
  · exact .refl

/-- An `ENC_STEP` keeps `scan_pos` in its range (10 R20). -/
theorem encStepOp_scanPos {s : State} (hs : s.scanPos ≤ s.cfg.h) (hp : edgePos s ≤ s.cfg.h) :
    (encStepOp s).scanPos ≤ s.cfg.h := by
  cases he : stepEnabled s .encode with
  | false => rwa [encStepOp_of_disabled he]
  | true =>
    rcases encStepOp_cases he with ⟨_, _, h⟩ | ⟨_, _, _, h⟩ | ⟨_, _, _, _, h⟩ |
      ⟨bs, l, _, ha, h⟩ | ⟨_, _, h⟩
    · simp only [h]; omega
    · simpa [h] using hs
    · simpa [h] using hs
    · have := (scanArm_emit ha).2.1
      simp only [h, finishEmission_scanPos, startEmission_scanPos]; omega
    · simpa [h] using hs

/-- The scan never leaves the half, well-formed configuration or not. -/
theorem edgePos_le {s : State} (hs : s.scanPos ≤ s.cfg.h) : edgePos s ≤ s.cfg.h := by
  have := (scanLoop_spec s s.cfg.edgeMask (depositOf s.cfg s.lastValue)
    (halfBase s + s.cfg.h - (halfBase s + s.scanPos)) (halfBase s + s.scanPos)).2.1
  simp only [edgePos, scanOf]
  omega

theorem works_encLoop : ∀ (n : Nat) {s : State}, s.scanPos ≤ s.cfg.h → Works s (encLoop n s)
  | 0, _, _ => .refl
  | n + 1, s, h => by
    have hc := (encStepOp_frame s).1
    exact (works_encStepOp (fun _ => h)).trans
      (works_encLoop n (by rw [hc]; exact encStepOp_scanPos h (edgePos_le h)))

/-- After `SEQ_ENTER` has taken place `scan_pos` is in its range, or `ENC_STEP` is not enabled. -/
theorem seqEnterOp_scan {s : State} (h : enterEnabled s = true) :
    stepEnabled (seqEnterOp s) .encode = true → (seqEnterOp s).scanPos = 0 := by
  intro he
  have hidle : s.seqState = .idle := by
    simp only [enterEnabled, Bool.and_eq_true, decide_eq_true_eq] at h; exact h.1.1
  unfold seqEnterOp dispErrOp dispHalfOp dispFullOp at he ⊢
  split at he <;> split at he <;> try split at he
  all_goals simp_all [raiseFatal, enterHalf]

theorem encLoop_of_disabled : ∀ (n : Nat) {s : State}, stepEnabled s .encode = false →
    encLoop n s = s
  | 0, _, _ => rfl
  | n + 1, s, h => by
    rw [encLoop, encStepOp_of_disabled h]; exact encLoop_of_disabled n h

/-- Where the first of several `ENC_STEP`s is enabled and none is refused, `scan_pos` is in its
range (10 R20). -/
theorem encLoopRefusal_scan {n : Nat} {s : State} (he : stepEnabled s .encode = true)
    (h : encLoopRefusal (n + 1) s = none) : s.scanPos ≤ s.cfg.h := by
  simp only [encLoopRefusal] at h
  split at h
  · cases h
  · rename_i hr; exact (encRefusal_eq_none.1 hr he).1

theorem works_dispatch {s : State} (h : enterEnabled s = true) :
    Works s (seqCheckOp (seqClearOp (encLoop (s.cfg.h + 1) (seqEnterOp s)))) := by
  refine (works_seqEnterOp s).trans (.trans ?_ ((works_seqClearOp _).trans (works_seqCheckOp _)))
  cases he : stepEnabled (seqEnterOp s) .encode with
  | false => rw [encLoop_of_disabled _ he]
  | true => exact works_encLoop _ (by rw [seqEnterOp_scan h he]; exact Nat.zero_le _)

theorem works_encStepOutcome {s t : State} (h : encStepOutcome s = .next t) : Works s t := by
  obtain ⟨hr, rfl⟩ := encStepOutcome_next h
  exact works_encStepOp (fun he => (encRefusal_eq_none.1 hr he).1)

theorem works_execSeq {s t : State} (h : execSeq s = .next t) : Works s t := by
  unfold execSeq at h
  split at h
  · cases h; exact works_dispErrOp s
  · cases h; exact works_dispHalfOp s
  · cases h; exact works_dispFullOp s
  · cases h; exact .refl
  · exact works_encStepOutcome h
  · cases h; exact works_seqClearOp s
  · cases h; exact works_seqCheckOp s

/-- Everything one visible write of SEQ can do: one more write of the step it is in, the first of
a step that emits a record, or a whole step (20 R49). -/
theorem execSeqWrite_cases (s : State) :
    (∃ e, stepEnabled s .encode = true ∧ s.emission = some e ∧ e.seen ≤ e.record.length ∧
      execSeqWrite s = .next (advanceEmission e s)) ∨
    (∃ bs l p, stepEnabled s .encode = true ∧ encRefusal s = none ∧ s.emission = none ∧
      scanArm s = .emit bs l p ∧ execSeqWrite s = .next (startEmission bs l p s)) ∨
    execSeqWrite s = execSeq s := by
  unfold execSeqWrite
  split
  · rename_i hc
    simp only [Bool.and_eq_true, Option.isNone_iff_eq_none] at hc
    split
    · rename_i e he
      split
      · rename_i hl; exact .inl ⟨e, hc.1, he, hl, rfl⟩
      · exact .inr (.inr rfl)
    · rename_i he
      split
      · rename_i bs l p ha; exact .inr (.inl ⟨bs, l, p, hc.1, hc.2, he, ha, rfl⟩)
      all_goals exact .inr (.inr rfl)
  · exact .inr (.inr rfl)

theorem works_execSeqWrite {s t : State} (h : execSeqWrite s = .next t) : Works s t := by
  rcases execSeqWrite_cases s with ⟨e, h1, h2, h3, hx⟩ | ⟨bs, l, p, h1, h2, h3, h4, hx⟩ | hx
  · rw [hx] at h; cases h; exact .one (.advance s e h1 h2 h3)
  · rw [hx] at h; cases h; exact .one (.start s bs l p h1 (encRefusal_eq_none.1 h2 h1).1 h3 h4)
  · exact works_execSeq (hx ▸ h)

theorem works_execRecord {s t : State} {k v : Nat} (h : readRecord k v s = .next t) :
    Works s t := by
  unfold readRecord at h
  split at h <;> (cases h; exact works_answer _ s)

/-- Every operation that can be fetched, but `ARM` and `RESET`, works within the session. -/
theorem works_exec {s t : State} {i : Instr} (hi : i.isInner = false) (ha : i ≠ .arm)
    (hr : i ≠ .reset) (h : exec i s = .next t) : Works s t := by
  cases i
  case nop => cases h; exact .refl
  case arm => exact absurd rfl ha
  case smp w =>
    simp only [exec, execSmp] at h
    split at h
    · exact absurd h (by simp)
    · rename_i hw
      split at h
      · split at h
        · cases h; exact .one (.sample s w (by assumption) (Nat.lt_of_not_le hw) (by assumption))
        · exact absurd h (by simp)
      · cases h; exact .refl
  case dmaerr =>
    simp only [exec, execDmaerr] at h
    split at h <;> cases h
    · exact .one (.dmaerr s (by assumption))
    · exact .refl
  case seq => exact works_execSeq h
  case rd f =>
    simp only [exec, execRd] at h
    split at h
    · cases h; exact works_answer _ s
    · exact absurd h (by simp)
  case rdeb a =>
    simp only [exec, execRdeb] at h
    split at h
    · cases h; exact works_answer _ s
    · exact absurd h (by simp)
  case reset => exact absurd rfl hr
  case reservedEv8 => cases h
  case reservedEv9 => cases h
  case reservedEv10 => cases h
  case reservedEv11 => cases h
  case reservedEv12 => cases h
  case reservedEv13 => cases h
  case reservedEv14 => cases h
  case reservedEv15 => cases h
  case dispErr => cases h; exact works_dispErrOp s
  case dispHalf => cases h; exact works_dispHalfOp s
  case dispFull => cases h; exact works_dispFullOp s
  case seqNone => cases h; exact .refl
  case encStep => exact works_encStepOutcome h
  case seqClear => cases h; exact works_seqClearOp s
  case seqCheck => cases h; exact works_seqCheckOp s
  case scan =>
    simp only [exec, execScan] at h
    split at h
    · cases h; exact works_answer _ s
    · exact absurd h (by simp)
  case level =>
    simp only [exec, execLevel] at h
    split at h
    · exact absurd h (by simp)
    · cases h; exact works_answer _ s
  case deposit => cases h; exact works_answer _ s
  case vlen => cases h; exact works_answer _ s
  case venc => cases h; exact works_answer _ s
  case vdec =>
    simp only [exec, execVdec] at h
    split at h <;> (cases h; exact works_answer _ s)
  case parse =>
    simp only [exec, execParse] at h
    split at h <;> (cases h; exact works_answer _ s)
  case ebappend => exact absurd hi (by simp [Instr.isInner])
  case encodeHalf =>
    simp only [exec, execEncodeHalf] at h
    split at h
    · rename_i he
      simp only [Bool.and_eq_true] at he
      split at h
      · exact absurd h (by simp)
      · rename_i hn
        cases h
        exact (works_encLoop _ (encLoopRefusal_scan he.1 hn)).trans (works_answer _ _)
    · cases h; exact .refl
  case seqEnter => cases h; exact works_seqEnterOp s
  case dispatch =>
    simp only [exec, execDispatch] at h
    split at h
    · split at h
      · exact absurd h (by simp)
      · cases h; exact (works_dispatch (by assumption)).trans (works_answer _ _)
    · cases h; exact .refl
  case throttle => exact absurd hi (by simp [Instr.isInner])
  case fatal => exact absurd hi (by simp [Instr.isInner])
  case rec1 => exact works_execRecord h
  case rec2 => exact works_execRecord h
  case rec3 => exact works_execRecord h
  case rec4 => exact works_execRecord h
  case rec5 => exact works_execRecord h
  case rec6 => exact works_execRecord h
  case rec7 => exact works_execRecord h
  case rec8 => exact works_execRecord h
  case rec9 => exact works_execRecord h
  case rec10 => exact works_execRecord h

/-- What a stimulus item decodes to can be fetched: no sub-step and no outcome (log 14). -/
theorem decode_not_inner {f : Fetch} {i : Instr} (h : decode f = .ok i) : i.isInner = false := by
  cases f with
  | event e =>
    simp only [decode, decodeEvent] at h
    split at h <;> (try split at h) <;> cases h <;> rfl
  | key k =>
    simp only [decode, decodeKey] at h
    cases h
    cases decodeKeyOp k <;> rfl
  | record bs =>
    simp only [decode, decodeRecord] at h
    split at h
    · split at h <;> (try split at h) <;> cases h <;> rfl
    · cases h
  | call j =>
    simp only [decode] at h
    split at h
    · cases h
      rename_i hc
      cases i <;> first | rfl | (exact absurd hc (by simp [Instr.isCallable]))
    · cases h
  | seqWrite => cases h

/-- A step that is neither `ARM` nor `RESET` works within the session. -/
theorem works_step {s t : State} {f : Fetch} {rest : List Fetch} (hs : s.stimulus = f :: rest)
    (ha : decode f ≠ .ok .arm) (hr : decode f ≠ .ok .reset) (h : step s = .next t) :
    Works (s.taken rest) t := by
  unfold step at h
  rw [hs] at h
  split at h
  · rename_i heq; cases heq
  · rename_i heq
    cases heq
    exact works_execSeqWrite h
  · split at h
    · rename_i heq _ i hd
      cases heq
      exact works_exec (decode_not_inner hd) (fun hi => ha (hi ▸ hd)) (fun hi => hr (hi ▸ hd)) h
    · cases h

/-- Every step of the machine is a sequence of moves. -/
theorem moves_step {s t : State} (h : step s = .next t) : Moves s t := by
  cases hs : s.stimulus with
  | nil =>
    simp only [step, hs] at h
    cases h; exact .refl
  | cons f rest =>
    by_cases ha : decode f = .ok .arm
    · have hf : step s = exec .arm (s.taken rest) := by
        cases f with
        | seqWrite => cases ha
        | event e => simp only [step, hs, ha]
        | key k => simp only [step, hs, ha]
        | record bs => simp only [step, hs, ha]
        | call i => simp only [step, hs, ha]
      rw [hf] at h
      simp only [exec, execArm] at h
      refine Relation.ReflTransGen.head (.take s rest) ?_
      split at h <;> cases h
      · rename_i he
        simp only [armEnabled, Bool.and_eq_true, decide_eq_true_eq] at he
        exact .single (.arm _ _ he.1 he.2)
      · exact .refl
    · by_cases hr : decode f = .ok .reset
      · have hf : step s = exec .reset (s.taken rest) := by
          cases f with
          | seqWrite => cases hr
          | event e => simp only [step, hs, hr]
          | key k => simp only [step, hs, hr]
          | record bs => simp only [step, hs, hr]
          | call i => simp only [step, hs, hr]
        rw [hf] at h
        cases h
        exact Relation.ReflTransGen.head (.take s rest) (.single (.reset _))
      · exact Relation.ReflTransGen.head (.take s rest) (works_step hs ha hr h).moves

/-- A property that every move keeps is kept by every step. -/
theorem step_keeps {P : State → Prop} (hP : ∀ s t, Move s t → P s → P t) {s t : State} (hs : P s)
    (h : step s = .next t) : P t := by
  have hm := moves_step h
  clear h
  induction hm with
  | refl => exact hs
  | tail _ hst ih => exact hP _ _ hst ih

/-- A property that the work within a session keeps is kept by every step but `ARM` and `RESET`. -/
theorem works_keep {P : State → Prop} (hP : ∀ s t, Work s t → P s → P t) {s t : State} (hs : P s)
    (h : Works s t) : P t := by
  induction h with
  | refl => exact hs
  | tail _ hst ih => exact hP _ _ hst ih

/-- The work within a session leaves the configuration, the epoch and the events to come alone. -/
theorem works_own {s t : State} (h : Works s t) :
    t.cfg = s.cfg ∧ t.epoch = s.epoch ∧ t.stimulus = s.stimulus := by
  induction h with
  | refl => exact ⟨rfl, rfl, rfl⟩
  | @tail b c _ hst ih =>
    rw [← ih.1, ← ih.2.1, ← ih.2.2]
    cases hst with
    | encode he hs =>
      obtain ⟨h1, _, _, _, _, _, _, _, h2, h3, _⟩ := encStepOp_frame b
      exact ⟨h1, h2, h3⟩
    | clear he => cases hc : b.curHalf <;> exact ⟨rfl, rfl, rfl⟩
    | _ => exact ⟨rfl, rfl, rfl⟩

end Sys2Proof.Machine
end

