-- ==== Sys2Proof/Tests/Slice0.lean ====
section
/-! SUPPORT. Tests: the checks of WellFormed, the decoding of words written out from the spec's
encodings, one-step tests with the results of 95_test_vectors.md, and witnesses for the hypotheses
of the obligations. -/

namespace Sys2Proof.Tests

open Sys2Proof Sys2Proof.Machine Sys2Proof.Claims

/-! ## Small states -/

/-- `CFG_T` after `RESET` (00 R8, 10 R36). -/
def base : State := State.resetFor Config.cfgT

/-- A dispatch in progress on half 0, its flag still set. -/
def busy : State :=
  { base with mode := .running, irqEn := true, ht := true, seqState := .encode, wrPtr := 4 }

/-- The half of vector E1: `PP[0..3] = [5, 5, 6, 6]`, level 5. -/
def halfE1 : State :=
  { busy with lastValue := 5, pp := [(0, 5), (1, 5), (2, 6), (3, 6)] }

/-- Some field of the state an operation answers. -/
def after {α : Type} (i : Instr) (s : State) (f : State → α) : Option α :=
  match exec i s with
  | .next t => some (f t)
  | .fault _ => none
  | .refused _ => none

/-- The reason an operation is refused. -/
def refusal (i : Instr) (s : State) : Option Refusal :=
  match exec i s with
  | .next _ => none
  | .fault _ => none
  | .refused r => some r

/-- Some field of the state a step answers. -/
def stepped {α : Type} (s : State) (f : State → α) : Option α :=
  match step s with
  | .next t => some (f t)
  | .fault _ => none
  | .refused _ => none

/-! ## WellFormed: an ill-formed term for each check -/

theorem test_wf_cfgT : Config.cfgT.WF := by decide
theorem test_wf_cfgU : Config.cfgU.WF := by decide
theorem test_wf_cfgS : Config.cfgS.WF := by decide
theorem test_wf_width : ¬ { Config.cfgT with w := 4, syncPos := 3, ch3 := 2 }.WF := by decide
theorem test_wf_channel_range : ¬ { Config.cfgT with ch3 := 16 }.WF := by decide
theorem test_wf_channels_distinct : ¬ { Config.cfgT with ch3 := 0 }.WF := by decide
theorem test_wf_sync_range : ¬ { Config.cfgT with syncPos := 16 }.WF := by decide
theorem test_wf_sync_channel : ¬ { Config.cfgT with syncPos := 2 }.WF := by decide
theorem test_wf_reserved_channel : ¬ { Config.cfgT with reservedMask := 0xFFE1 }.WF := by decide
theorem test_wf_reserved_sync : ¬ { Config.cfgT with reservedMask := 0x0010 }.WF := by decide
theorem test_wf_reserved_width : ¬ { Config.cfgT with reservedMask := 0x10000 }.WF := by decide
theorem test_wf_half : ¬ { Config.cfgT with h := 0 }.WF := by decide

theorem test_wf_smp : (Instr.smp 0x10000).wf Config.cfgT = false := by decide
theorem test_wf_smp_max : (Instr.smp 0xFFFF).wf Config.cfgT = true := by decide
theorem test_wf_rd : (Instr.rd 5).wf Config.cfgT = false := by decide
theorem test_wf_rdeb : (Instr.rdeb 32).wf Config.cfgT = false := by decide
theorem test_wf_reserved : ∀ i ∈ [Instr.reservedEv8 0, .reservedEv9 0, .reservedEv10 0,
    .reservedEv11 0, .reservedEv12 0, .reservedEv13 0, .reservedEv14 0, .reservedEv15 0],
    i.wf Config.cfgT = false := by decide
theorem test_wf_scan : ∀ i ∈ [Instr.scan 5 4 0xF 5, .scan 0 9 0xF 5, .scan 0 4 0x10000 5,
    .scan 0 4 0xF 0x10000], i.wf Config.cfgT = false := by decide
theorem test_wf_level : (Instr.level 0x10000).wf Config.cfgT = false := by decide
theorem test_wf_vdec : (Instr.vdec [0x25] 0 2).wf Config.cfgT = false := by decide
theorem test_wf_parse : (Instr.parse [] 1).wf Config.cfgT = false := by decide
theorem test_wf_ebappend : (Instr.ebappend []).wf Config.cfgT = false ∧
    (Instr.ebappend (List.replicate 11 0x80)).wf Config.cfgT = false := by decide
theorem test_wf_fatal : ∀ i ∈ [Instr.fatal .none .half0 0 0, .fatal .syncLoss .half0 8 0,
    .fatal .syncLoss .half0 0 0x10000], i.wf Config.cfgT = false := by decide
theorem test_wf_records : ∀ i ∈ [Instr.rec2 127, .rec3 0x3FFF, .rec4 0x1FFFFF, .rec5 0xFFFFFFF,
    .rec6 0x7FFFFFFFF, .rec7 0x3FFFFFFFFFF, .rec8 0x1FFFFFFFFFFFF, .rec9 0xFFFFFFFFFFFFFF],
    i.wf Config.cfgT = false := by decide

/-! ## Decoding, words written out from 30 R71, R69, R65 and R66 -/

theorem test_decode_nop : decode (.event 0x0) = .ok .nop := by decide
theorem test_decode_arm : decode (.event 0x1) = .ok .arm := by decide
theorem test_decode_smp : decode (.event 0x62) = .ok (.smp 0x0006) := by decide
theorem test_decode_smp_high : decode (.event 0x80002) = .ok (.smp 0x8000) := by decide
theorem test_decode_dmaerr : decode (.event 0x3) = .ok .dmaerr := by decide
theorem test_decode_seq : decode (.event 0x4) = .ok .seq := by decide
theorem test_decode_rd : decode (.event 0x15) = .ok (.rd 1) := by decide
theorem test_decode_rdeb : decode (.event 0x1F6) = .ok (.rdeb 31) := by decide
theorem test_decode_reset : decode (.event 0x7) = .ok .reset := by decide
theorem test_decode_arg : decode (.event 0x11) = .error (.argNotZero 1) := by decide
theorem test_decode_ev8 : decode (.event 0x8) = .ok (.reservedEv8 0) := by decide
theorem test_decode_ev9 : decode (.event 0x19) = .ok (.reservedEv9 1) := by decide
theorem test_decode_ev10 : decode (.event 0xA) = .ok (.reservedEv10 0) := by decide
theorem test_decode_ev11 : decode (.event 0xB) = .ok (.reservedEv11 0) := by decide
theorem test_decode_ev12 : decode (.event 0xC) = .ok (.reservedEv12 0) := by decide
theorem test_decode_ev13 : decode (.event 0xD) = .ok (.reservedEv13 0) := by decide
theorem test_decode_ev14 : decode (.event 0xE) = .ok (.reservedEv14 0) := by decide
theorem test_decode_ev15 : decode (.event 0xFF) = .ok (.reservedEv15 15) := by decide

theorem test_decode_dispErr : ∀ k ∈ [0b00100#5, 0b00101#5, 0b00110#5, 0b00111#5],
    decode (.key k) = .ok .dispErr := by decide
theorem test_decode_dispHalf : decode (.key 0b00001) = .ok .dispHalf ∧
    decode (.key 0b00011) = .ok .dispHalf := by decide
theorem test_decode_dispFull : decode (.key 0b00010) = .ok .dispFull := by decide
theorem test_decode_seqNone : decode (.key 0b00000) = .ok .seqNone := by decide
theorem test_decode_encStep : decode (.key 0b01000) = .ok .encStep ∧
    decode (.key 0b01111) = .ok .encStep := by decide
theorem test_decode_seqClear : decode (.key 0b10001) = .ok .seqClear := by decide
theorem test_decode_seqCheck : decode (.key 0b11010) = .ok .seqCheck := by decide

/- V2, V8, V10, V13, V15 to V18, V21, V23 of 95 V-VENC. -/
theorem test_decode_rec1 : decode (.record [0x25]) = .ok (.rec1 0x25) := by decide
theorem test_decode_rec2 : decode (.record [0xCA, 0x25]) = .ok (.rec2 0x12CA) := by decide
theorem test_decode_rec3 : decode (.record [0x80, 0x80, 0x01]) = .ok (.rec3 0x4000) := by decide
theorem test_decode_rec4 : decode (.record [0x83, 0xA4, 0xE8, 0x03]) = .ok (.rec4 0x7A1203) := by
  decide
theorem test_decode_rec5 : decode (.record [0x80, 0x80, 0x80, 0x80, 0x01]) =
    .ok (.rec5 0x10000000) := by decide
theorem test_decode_rec6 : decode (.record [0x80, 0x80, 0x80, 0x80, 0x80, 0x01]) =
    .ok (.rec6 0x800000000) := by decide
theorem test_decode_rec7 : decode (.record [0x80, 0x80, 0x80, 0x80, 0x80, 0x80, 0x01]) =
    .ok (.rec7 0x40000000000) := by decide
theorem test_decode_rec8 : decode (.record [0x80, 0x80, 0x80, 0x80, 0x80, 0x80, 0x80, 0x01]) =
    .ok (.rec8 0x2000000000000) := by decide
theorem test_decode_rec9 : decode (.record
    [0xFF, 0xFF, 0xFF, 0xFF, 0xFF, 0xFF, 0xFF, 0xFF, 0x7F]) = .ok (.rec9 0x7FFFFFFFFFFFFFFF) := by
  decide
theorem test_decode_rec10 : decode (.record
    [0xFF, 0xFF, 0xFF, 0xFF, 0xFF, 0xFF, 0xFF, 0xFF, 0xFF, 0x01]) =
    .ok (.rec10 0x7FFFFFFFFFFFFFFF) := by decide
theorem test_decode_rec10_last : decode (.record
    [0xFF, 0xFF, 0xFF, 0xFF, 0xFF, 0xFF, 0xFF, 0xFF, 0xFF, 0x02]) = .error .noRecord := by decide
theorem test_decode_inner : decode (.call .throttle) = .error .notCallable := by decide

theorem test_encode_smp : encode (.smp 0x0006) = .event 0x62 := by decide
theorem test_encode_rec4 : encode (.rec4 0x7A1203) = .record [0x83, 0xA4, 0xE8, 0x03] := by decide

theorem test_table_event : decodeTableWord 8 0x62 = some (.smp 6) := by decide
theorem test_table_key : decodeTableWord 8 0b11000 = some .seqCheck := by decide
theorem test_table_record : decodeTableWord 16 0xCA25 = some (.rec2 0x12CA) := by decide
theorem test_fetch_word : stepped (base.withFetchWord 8 0x01) (fun t => t.mode) = some .armed := by
  decide

/-! ## One step each; the results are those of 95_test_vectors.md, the vector named -/

theorem test_nop : after .nop busy (fun t => t) = some busy := by decide

/- M1 -/
theorem test_arm : after .arm { base with
      mode := .suspended, bytes := 27, lastDuration := 5, lastValue := 6, ht := true, wrPtr := 3 }
    (fun t => (t.mode, t.bytes, t.lastDuration, t.lastValue, t.ht, t.wrPtr)) =
    some (.armed, 0, 0, 6, false, 0) := by decide
/- M3 -/
theorem test_arm_waits : after .arm busy (fun t => t) = some busy := by decide

/- M6 -/
theorem test_smp_half : after (.smp 0x0006)
    { base with mode := .armed, wrPtr := 3, syncOut := true }
    (fun t => (t.pp, t.syncOut, t.ht, t.tc, t.wrPtr)) = some ([(3, 6)], false, true, false, 4) := by
  decide
/- M7 -/
theorem test_smp_full : after (.smp 0) { base with mode := .armed, wrPtr := 7 }
    (fun t => (t.pp, t.ht, t.tc, t.wrPtr)) = some ([(7, 0)], false, true, 0) := by decide

/- M12, M10 -/
theorem test_dmaerr : after .dmaerr busy (fun t => t.err) = some true := by decide
theorem test_dmaerr_idle : after .dmaerr base (fun t => t) = some base := by decide

/- Q4, Q6 -/
theorem test_seq : after .seq { base with mode := .armed, irqEn := true, ht := true, tc := true }
    (fun t => (t.curHalf, t.tc, t.seqState)) = some (.half0, true, .encode) := by decide
theorem test_seq_masked : after .seq { base with mode := .suspended, ht := true }
    (fun t => t.seqState) = some .idle := by decide

/- P1m: STATUS 0x0262 in the middle of a dispatch -/
theorem test_rd_status : after (.rd 0) busy (fun t => t.out) = some (.field 0 0x0262) := by decide
theorem test_rd_reserved : refusal (.rd 5) busy = some (.reservedField 5) := by decide

theorem test_rdeb : after (.rdeb 0) { base with eb := [(0, 0x25)], bytes := 1 } (fun t => t.out) =
    some (.byte 0x25) := by decide
theorem test_rdeb_range : refusal (.rdeb 32) base = some (.ebAddress 32) := by decide

/- P4, event 11 -/
theorem test_reset : after .reset { busy with mode := .fatal, fatalReason := .overrun, tc := true }
    statusField = some 0 := by decide

theorem test_reserved : refusal (.reservedEv8 0) base = some (.reservedEvent 8) := by decide

/- Q5 -/
theorem test_dispErr : after .dispErr { base with
      mode := .armed, irqEn := true, err := true, ht := true }
    (fun t => (t.mode, t.fatalReason, t.fatalCtx, t.seqState, t.err, t.ht)) =
    some (.fatal, .dmaError, 0, .idle, true, true) := by decide
/- Q2, P7: the carried duration -/
theorem test_dispHalf : after .dispHalf { base with
      mode := .armed, irqEn := true, ht := true, lastDuration := 8, scanPos := 4 }
    (fun t => (t.curHalf, t.scanPos, t.durAcc, t.mode, t.seqState)) =
    some (.half0, 0, 8, .running, .encode) := by decide
/- Q3 -/
theorem test_dispFull : after .dispFull { base with mode := .running, irqEn := true, tc := true }
    (fun t => (t.curHalf, t.seqState)) = some (.half1, .encode) := by decide
theorem test_seqNone : after .seqNone base (fun t => t) = some base := by decide

/- E1 -/
theorem test_encStep_record : after .encStep halfE1
    (fun t => (t.eb, t.bytes, t.lastValue, t.durAcc, t.scanPos)) =
    some ([(0, 0x25)], 1, 6, 0, 3) := by decide
/- E4 -/
theorem test_encStep_syncLoss : after .encStep { busy with
      curHalf := .half1, tc := true, scanPos := 1, durAcc := 7, lastValue := 2,
      pp := [(4, 0x0002), (5, 0x0002), (6, 0x0022), (7, 0x0043)] }
    (fun t => (t.durAcc, t.mode, t.fatalReason, t.fatalCtx, t.seqState)) =
    some (9, .fatal, .syncLoss, 0x00437, .encode) := by decide

/- Q7, Q8 -/
theorem test_seqClear_half : after .seqClear { busy with seqState := .clear, tc := true }
    (fun t => (t.ht, t.tc, t.seqState)) = some (false, true, .check) := by decide
theorem test_seqClear_full : after .seqClear { busy with
      seqState := .clear, tc := true, curHalf := .half1 }
    (fun t => (t.ht, t.tc, t.seqState)) = some (true, false, .check) := by
  decide
/- Q12, Q11 -/
theorem test_seqCheck_own : after .seqCheck { busy with seqState := .check }
    (fun t => (t.seqState, t.ht)) = some (.idle, true) := by decide
theorem test_seqCheck_overrun : after .seqCheck { busy with seqState := .check, curHalf := .half1 }
    (fun t => (t.mode, t.fatalReason, t.fatalCtx)) = some (.fatal, .overrun, 1) := by decide

/-- The memory of 95 section 2.1. -/
def scanMem : State :=
  { base with
      pp := [(0, 0x0005), (1, 0x0015), (2, 0x0005), (3, 0x0006), (4, 0x0006), (5, 0xFFE6),
        (6, 0x0007), (7, 0x0000)] }

/- SC5, SC8 -/
theorem test_scan : after (.scan 4 8 0x000F 0x0006) scanMem (fun t => t.out) =
    some (.position 6) := by decide
theorem test_scan_reference : after (.scan 0 4 0x000F 0xFFF5) scanMem (fun t => t.out) =
    some (.position 3) := by decide

/-- `CFG_U` after `RESET`. -/
def baseU : State := State.resetFor Config.cfgU

/- L5, L9 -/
theorem test_level : after (.level 0x0210) baseU (fun t => t.out) = some (.level 9) := by decide
theorem test_level_mask : after (.level 0xFCCF) baseU (fun t => t.out) = some (.level 0) := by
  decide
/- L11, L12 -/
theorem test_deposit : after (.deposit 9) baseU (fun t => t.out) = some (.word 0x0210) := by decide
theorem test_deposit_6 : after (.deposit 6) baseU (fun t => t.out) = some (.word 0x0120) := by
  decide
/- V3, V4 -/
theorem test_vlen_1 : after (.vlen 0x7F) base (fun t => t.out) = some (.length 1) := by decide
theorem test_vlen_2 : after (.vlen 0x80) base (fun t => t.out) = some (.length 2) := by decide
/- V13, V22 -/
theorem test_venc : after (.venc 0x7A1203) base (fun t => t.out) =
    some (.bytes [0x83, 0xA4, 0xE8, 0x03]) := by decide
theorem test_venc_10 : after (.venc 0x8000000000000000) base (fun t => t.out) =
    some (.bytes [0x80, 0x80, 0x80, 0x80, 0x80, 0x80, 0x80, 0x80, 0x80, 0x01]) := by decide
/- V8, and the first refusal below V-VENC -/
theorem test_vdec : after (.vdec [0x25, 0xCA, 0x25] 1 3) base (fun t => t.out) =
    some (.value 0x12CA 3) := by decide
theorem test_vdec_corrupt : after (.vdec [0x80, 0x00] 0 2) base (fun t => t.out) =
    some .corrupt := by decide
/- V-RT -/
theorem test_parse : after (.parse [0x25, 0x06, 0xCA, 0x25, 0xFF, 0xFF, 0xFF, 0xFF, 0xFF, 0xFF,
      0xFF, 0xFF, 0xFF, 0x01] 14) base (fun t => t.out) =
    some (.intervals [(2, 5), (0, 6), (300, 10), (0xFFFFFFFFFFFFFFF, 15)]) := by decide
theorem test_parse_runs_past : after (.parse [0x80] 1) base (fun t => t.out) = some .corrupt := by
  decide
/- A1, A3 -/
theorem test_ebappend : after (.ebappend [0xCA, 0x25]) { base with bytes := 1, eb := [(0, 0x25)] }
    (fun t => (t.eb, t.bytes)) = some ([(0, 0x25), (1, 0xCA), (2, 0x25)], 3) := by decide
theorem test_ebappend_full : refusal (.ebappend [0x25]) { base with bytes := 23 } =
    some .appendPrecondition := by decide
/- 41 R91 corner case 3, 93 U3: two more samples on 2^60 - 2, and on one less -/
theorem test_duration_overflow : ∀ i ∈ [Instr.encStep, .seq, .encodeHalf .half0],
    refusal i { halfE1 with durAcc := 0xFFFFFFFFFFFFFFE } = some .durationOverflow := by decide
theorem test_duration_largest : after .encStep { halfE1 with durAcc := 0xFFFFFFFFFFFFFFD }
    (fun t => (t.bytes, t.eb.getLast?)) = some (10, some (9, 0x01)) := by decide
/- E1 then E2 -/
theorem test_encodeHalf : after (.encodeHalf .half0) halfE1
    (fun t => (t.bytes, t.lastDuration, t.scanPos, t.seqState, t.out)) =
    some (1, 1, 4, .clear, .encoded .done) := by decide
/- Q3 -/
theorem test_seqEnter : after .seqEnter { base with mode := .armed, irqEn := true, tc := true }
    (fun t => (t.curHalf, t.mode)) = some (.half1, .running) := by decide
/- P1 -/
theorem test_dispatch : after .dispatch { halfE1 with mode := .armed, seqState := .idle }
    (fun t => (t.bytes, t.lastValue, t.lastDuration, t.ht, t.out)) =
    some (1, 6, 1, false, .dispatched .normal) := by decide
/- P9: the other half fills first -/
theorem test_dispatch_overrun : after .dispatch { halfE1 with
      mode := .armed, seqState := .idle, tc := true } (fun t => (t.bytes, t.seqState, t.out)) =
    some (1, .check, .dispatched (.fatal .overrun)) := by decide
/- E5 -/
theorem test_throttle : after .throttle { busy with durAcc := 100, lastValue := 1 }
    (fun t => (t.lastDuration, t.irqEn, t.mode, t.seqState, t.lastValue)) =
    some (100, false, .suspended, .idle, 1) := by decide
/- P5: the context 0x80014 -/
theorem test_fatal : after (.fatal .syncLoss .half0 2 0x8001) busy
    (fun t => (t.fatalReason, t.fatalCtx, t.mode, t.seqState)) =
    some (.syncLoss, 0x80014, .fatal, .encode) := by decide
theorem test_fatal_none : refusal (.fatal .none .half0 0 0) busy = some .fatalOperand := by decide

/- V2, V8, V10, V13, V15 to V18, V21, V23 -/
theorem test_rec1 : after (.rec1 0x25) base (fun t => t.out) = some (.intervals [(2, 5)]) := by
  decide
theorem test_rec2 : after (.rec2 0x12CA) base (fun t => t.out) = some (.intervals [(300, 10)]) := by
  decide
theorem test_rec2_padded : after (.rec2 0) base (fun t => t.out) = some .corrupt := by decide
theorem test_rec3 : after (.rec3 0x4000) base (fun t => t.out) = some (.intervals [(1024, 0)]) := by
  decide
theorem test_rec4 : after (.rec4 0x7A1203) base (fun t => t.out) =
    some (.intervals [(500000, 3)]) := by decide
theorem test_rec5 : after (.rec5 0x10000000) base (fun t => t.out) =
    some (.intervals [(0x1000000, 0)]) := by decide
theorem test_rec6 : after (.rec6 0x800000000) base (fun t => t.out) =
    some (.intervals [(0x80000000, 0)]) := by decide
theorem test_rec7 : after (.rec7 0x40000000000) base (fun t => t.out) =
    some (.intervals [(0x4000000000, 0)]) := by decide
theorem test_rec8 : after (.rec8 0x2000000000000) base (fun t => t.out) =
    some (.intervals [(0x200000000000, 0)]) := by decide
theorem test_rec9 : after (.rec9 0x7FFFFFFFFFFFFFFF) base (fun t => t.out) =
    some (.intervals [(0x7FFFFFFFFFFFFFF, 15)]) := by decide
theorem test_rec10 : after (.rec10 0x7FFFFFFFFFFFFFFF) base (fun t => t.out) =
    some (.intervals [(0xFFFFFFFFFFFFFFF, 15)]) := by decide

/-- The state after a list of stimulus items, if every step answers a next state. -/
def ran : List Fetch → State → Option State
  | [], s => some s
  | f :: fs, s =>
      match step { s with stimulus := [f] } with
      | .next t => ran fs t
      | .fault _ => none
      | .refused _ => none

/-- What HOST reads of a field at a point of a run. -/
def readAt (fs : List Fetch) (e : Nat) : Option Answer :=
  (ran (fs ++ [.event e]) halfE1).map (fun t => t.out)

/- 20 R50, the example of the rule, on E1: two reads in one gap of one `ENC_STEP`, `bytes` already
advanced and `last_value` still the old level; a DMA step falls between them -/
theorem test_seqWrite_bytes : readAt [.seqWrite, .seqWrite] 0x15 = some (.field 1 1) := by decide
theorem test_seqWrite_level : readAt [.seqWrite, .seqWrite, .event 0x15, .event 0x62] 0x25 =
    some (.field 2 5) := by decide
/- 20 R49: the byte is stored before `bytes` advances; the last write completes the step -/
theorem test_seqWrite_first : readAt [.seqWrite] 0x15 = some (.field 1 0) := by decide
theorem test_seqWrite_byte : readAt [.seqWrite, .seqWrite] 0x06 = some (.byte 0x25) := by decide
theorem test_seqWrite_complete : ran [.seqWrite, .seqWrite, .seqWrite] halfE1 =
    ran [.event 4] halfE1 := by decide

/- 30 R72: `HALF` has exactly `H` words -/
theorem test_half_words : halfEvents Config.cfgT [5, 5, 6, 6] =
    some [.event 0x52, .event 0x52, .event 0x62, .event 0x62] := by decide
theorem test_half_short : halfEvents Config.cfgT [5, 5, 6] = none ∧
    halfEvents Config.cfgT [5, 5, 6, 6, 6] = none := by decide

/-! ## Witnesses: states and operands that meet the hypotheses of the obligations -/

/-- The fields of `Inv`, as a check that can be evaluated. -/
def invCheck (s : State) : Bool :=
  decide s.cfg.WF && decide (s.bytes ≤ s.cfg.c) && decide (s.scanPos ≤ s.cfg.h) &&
  decide (s.wrPtr < 2 * s.cfg.h) && decide (s.mode = .fatal ↔ s.fatalReason ≠ .none) &&
  decide (s.mode = .idle → s.irqEn = false ∧ s.ht = false ∧ s.tc = false ∧ s.err = false ∧
    s.wrPtr = 0 ∧ s.bytes = 0 ∧ s.seqState = .idle) &&
  decide (s.mode = .suspended → s.irqEn = false ∧ s.seqState = .idle) &&
  decide (s.mode = .armed ∨ s.mode = .running → s.irqEn = true) &&
  decide (s.seqState ≠ .idle → s.mode = .running ∨ s.mode = .fatal) &&
  decide (s.mode = .fatal → (s.seqState = .encode ↔ s.fatalReason = .syncLoss) ∧
    (s.seqState = .check ↔ s.fatalReason = .overrun) ∧
    (s.seqState = .idle ↔ s.fatalReason = .dmaError)) &&
  decide (s.mode = .armed → s.bytes = 0 ∧ s.lastDuration = 0 ∧ s.seqState = .idle) &&
  (parseOf (ebData s) s.bytes).isSome && decide (∀ a, a < s.bytes → (Memory.read s.eb a).isSome) &&
  decide (Memory.wf s.pp) && s.pp.all (fun c => decide (c.1 < 2 * s.cfg.h ∧ c.2 < 2 ^ s.cfg.w)) &&
  decide (Memory.wf s.eb) && s.eb.all (fun c => decide (c.1 < s.cfg.c)) &&
  decide (s.fatalCtx < 2 ^ s.cfg.ctxW) && decide (s.fatalReason = .none → s.fatalCtx = 0) &&
  s.emission.isNone

theorem inv_of_check {s : State} (h : invCheck s = true) : Inv s := by
  simp only [invCheck, Bool.and_eq_true, decide_eq_true_eq, List.all_eq_true] at h
  obtain ⟨⟨⟨⟨⟨⟨⟨⟨⟨⟨⟨⟨⟨⟨⟨⟨⟨⟨⟨h1, h2⟩, h3⟩, h4⟩, h5⟩, h6⟩, h7⟩, h8⟩, h9⟩, h10⟩, h11⟩, h12⟩, h13⟩, h14⟩,
    h15⟩, h16⟩, h17⟩, h18⟩, h19⟩, h20⟩ := h
  exact ⟨h1, h2, h3, h4, h5, h6, h7, h8, h9, h10, h11, h12, h13, h14,
    fun a w hr => h15 _ (Memory.mem_of_read hr), h16, fun a b hr => h17 _ (Memory.mem_of_read hr),
    fun e he => by simp [he] at h20, h18, h19⟩

/-- Armed, nothing pending. -/
def armed : State := { base with mode := .armed, irqEn := true }

/-- The DMA has filled half 1 and is back inside half 0 while half 0 is being encoded. -/
def overtaken : State :=
  { halfE1 with
    wrPtr := 1, tc := true,
    pp := [(0, 6), (1, 5), (2, 6), (3, 6), (4, 6), (5, 6), (6, 6), (7, 6)] }

/-- A dispatch that died of an overrun (P4). -/
def dead : State :=
  { base with
    mode := .fatal, fatalReason := .overrun, seqState := .check, irqEn := true, tc := true }

/-- The half of E1 with one `SEQ` to come. -/
def halfSeq : State := { halfE1 with stimulus := [.event 4] }

theorem inv_halfE1 : Inv halfE1 := inv_of_check (by decide)
theorem inv_halfSeq : Inv halfSeq := inv_of_check (by decide)

/-- E1 after the first and the second of its three visible writes: its record, `bytes` seen as
advanced after the second. -/
def emittingE1 (seen : Nat) : State :=
  { halfE1 with
    scanPos := 3, durAcc := 0, emission := some { record := [0x25], level := 6, seen := seen } }

theorem run_emittingE1 : ran [.seqWrite] halfE1 = some (emittingE1 1) ∧
    ran [.seqWrite, .seqWrite] halfE1 = some (emittingE1 2) := by decide

theorem inv_emittingE1 : Inv (emittingE1 1) ∧ Inv (emittingE1 2) := by
  have h1 : Inv { emittingE1 1 with emission := none } := inv_of_check (by decide)
  have h2 : Inv { emittingE1 2 with emission := none } := inv_of_check (by decide)
  have hv : ([0x25] : List Byte) = vencOf 0x25 := by decide
  exact ⟨{ h1 with
      emitting := fun e he => by
        cases he; exact ⟨rfl, rfl, by decide, by decide, by decide, _, hv⟩ },
    { h2 with
      emitting := fun e he => by
        cases he; exact ⟨rfl, rfl, by decide, by decide, by decide, _, hv⟩ }⟩

theorem bufferInv_halfE1 : BufferInv halfE1 :=
  ⟨inv_halfE1, by decide, fun _ => by unfold halfWritten; decide, fun h => absurd h (by decide),
    by decide, by decide, by decide⟩
theorem bufferInv_halfSeq : BufferInv halfSeq :=
  ⟨inv_halfSeq, by decide, fun _ => by unfold halfWritten; decide, fun h => absurd h (by decide),
    by decide, by decide, by decide⟩

theorem bufferInv_overtaken : BufferInv overtaken :=
  ⟨inv_of_check (by decide), by decide, fun _ => by unfold halfWritten; decide,
    fun _ => by unfold halfWritten; decide, by decide, by decide, by decide⟩

theorem witness_ResetMeetsInvariant : Config.cfgU.WF ∧ Config.cfgS.WF := by decide

theorem witness_StepKeepsInvariant : Inv halfSeq ∧
    ∃ t, step halfSeq = .next t := ⟨inv_halfSeq, _, rfl⟩

theorem witness_StepKeepsBufferInvariant : BufferInv halfSeq ∧
    ∃ t, step halfSeq = .next t := ⟨bufferInv_halfSeq, _, rfl⟩

theorem witness_StepRunsDecodedInstruction :
    (∃ rest, { base with stimulus := [.event 0x62] }.stimulus = .event 0x62 :: rest) ∧
    decode (.event 0x62) = .ok (.smp 6) ∧ base.stimulus = [] ∧
    decode (.event 0x11) = .error (.argNotZero 1) ∧ Fetch.event 0x11 ≠ .seqWrite :=
  ⟨⟨_, rfl⟩, by decide, rfl, by decide, by decide⟩

theorem witness_DecodeEncodeAgree : (Instr.smp 0xFFFF).isInner = false := by decide

theorem witness_EncodeDecodeEventWord : decodeEvent 0x80012 = .ok (.smp 0x8001) := by decide

theorem witness_ArmOpensSession : base.seqState = .idle ∧ base.mode ≠ .fatal := by decide

theorem witness_ArmOpensSession_dispatch : busy.seqState ≠ .idle := by decide
theorem witness_ArmOpensSession_fatal : { dead with seqState := .idle }.mode = .fatal := by decide

theorem witness_SmpWritesSample_first : armed.cfg.WF ∧ armed.mode = .armed ∧
    0 < 2 ^ armed.cfg.w ∧ armed.wrPtr < 2 * armed.cfg.h := by decide
theorem witness_SmpWritesSample_last : busy.cfg.WF ∧ busy.mode = .running ∧
    0xFFFF < 2 ^ busy.cfg.w ∧ { busy with wrPtr := 7 }.wrPtr < 2 * busy.cfg.h := by decide

theorem witness_SmpWritesSample_away : 0xFFFF < 2 ^ base.cfg.w ∧ base.mode = .idle ∧
    dead.mode = .fatal ∧ 2 ^ base.cfg.w ≤ 0x10000 := by decide

theorem witness_DmaerrSetsErr : armed.mode = .armed ∧ busy.mode = .running ∧ base.mode = .idle ∧
    dead.mode = .fatal := by decide

theorem witness_RdReadsRegisters : base.emission = none ∧
    (∃ e, (emittingE1 1).emission = some e ∧ e.seen ≤ e.record.length) ∧
    ∃ e, (emittingE1 2).emission = some e ∧ e.record.length < e.seen :=
  ⟨rfl, ⟨_, rfl, by decide⟩, _, rfl, by decide⟩

theorem witness_RdebReadsByte_emission : ∃ e, (emittingE1 2).emission = some e ∧
    e.record.length < e.seen ∧ (emittingE1 2).bytes ≤ 0 ∧ e.record[0 - 0]? = some 0x25 :=
  ⟨_, rfl, by decide, by decide, rfl⟩

theorem witness_RdebReadsByte :
    31 < base.cfg.c ∧ base.cfg.c ≤ 32 ∧ 0 < { base with bytes := 1 }.bytes ∧
    Memory.read { base with eb := [(0, 0x25)] }.eb 0 = some 0x25 := by decide

theorem witness_SamplePositionLaw : armed.cfg.WF ∧ armed.mode = .armed ∧ armed.wrPtr = 0 ∧
    (∀ w ∈ [1, 2, 3, 4, 5, 6, 7, 8, 0xFFFF], w < 2 ^ armed.cfg.w) ∧
    [1, 2, 3, 4, 5, 6, 7, 8, 0xFFFF][1]? = some 2 ∧ 9 ≤ 1 + 2 * armed.cfg.h := by decide
/-- One sample: slot 1 is untouched, and so is the index past the buffer. -/
theorem witness_SamplePositionLaw_untouched : ∀ i ∈ [1, 7, 8],
    ∀ j, j < [(5 : SampleWord)].length → i ≠ j % (2 * armed.cfg.h) := by decide

theorem ready_armed : ready armed := by unfold ready; decide

theorem witness_EntryTakesCause_err : ready { armed with err := true, ht := true } ∧
    { armed with err := true, ht := true }.err = true := by unfold ready; decide
theorem witness_EntryTakesCause_half : ready { armed with ht := true, tc := true } ∧
    { armed with ht := true, tc := true }.err = false ∧
    { armed with ht := true, tc := true }.ht = true := by unfold ready; decide
theorem witness_EntryTakesCause_full : ready { armed with tc := true } ∧
    { armed with tc := true }.err = false ∧ { armed with tc := true }.ht = false ∧
    { armed with tc := true }.tc = true := by unfold ready; decide

theorem witness_EntryWaits_nothing : ¬ (ready armed ∧ (armed.err = true ∨ armed.ht = true ∨
    armed.tc = true)) ∧ armed.seqState = .idle := by unfold ready; decide
theorem witness_EntryWaits_masked : ¬ (ready { base with mode := .suspended, ht := true } ∧
    (base.err = true ∨ { base with ht := true }.ht = true ∨ base.tc = true)) := by
  unfold ready; decide

theorem witness_SeqClearClearsOwnFlag : { busy with seqState := .clear }.seqState = .clear ∧
    busy.mode = .running ∧ busy.curHalf = .half0 ∧
    { busy with curHalf := .half1 }.curHalf = .half1 ∧ dead.mode ≠ .running := by decide

theorem witness_SeqCheckFindsOverrun : { busy with seqState := .check }.seqState = .check ∧
    busy.mode = .running ∧ (busy.curHalf = .half0 ∧ busy.tc = false) ∧
    ({ busy with curHalf := .half1 }.curHalf = .half1 ∧ busy.ht = true) ∧
    (busy.curHalf = .half0 ∧ { busy with tc := true }.tc = true) ∧
    ({ busy with curHalf := .half1 }.curHalf = .half1 ∧ { busy with ht := false }.ht = false) := by
  decide

/-- The half of E1 complete, its dispatch not begun, in the state before the first dispatch. -/
def pending : State := { halfE1 with mode := .armed, seqState := .idle }

theorem witness_DispatchOutcomes : Inv pending ∧ ready pending ∧ pending.ht = true ∧
    dispatchFits pending ∧ dispatchFits { pending with err := true } :=
  ⟨inv_of_check (by decide), by unfold ready; decide, by decide, by unfold dispatchFits; decide,
    .inl rfl⟩
theorem witness_DispatchOutcomes_error : after .dispatch { pending with err := true }
    (fun t => t.out) = some (.dispatched (.fatal .dmaError)) := by decide
theorem witness_DispatchOutcomes_suspended : after .dispatch
    { pending with
      cfg := { Config.cfgT with c := 9 } } (fun t => t.out) = some (.dispatched .suspended) := by
  decide
theorem witness_DispatchOutcomes_syncLoss : after .dispatch
    { pending with
      pp := [(0, 5), (1, 5), (2, 5), (3, 0x8001)] } (fun t => t.out) =
    some (.dispatched (.fatal .syncLoss)) := by decide

theorem witness_BothFlagsNeverNormal : Inv { pending with tc := true } ∧
    ready { pending with tc := true } ∧ pending.err = false ∧ pending.ht = true ∧
    dispatchFits { pending with tc := true } ∧
    ∃ t, exec .dispatch { pending with tc := true } = .next t :=
  ⟨inv_of_check (by decide), by unfold ready; decide, by decide, by decide,
    by unfold dispatchFits; decide, _, rfl⟩

theorem witness_DispatchEndsWithinBound : Inv halfE1 ∧ halfE1.mode = .running ∧
    halfE1.seqState ≠ .idle ∧ enterEnabled pending = true ∧
    halfE1.durAcc.toNat + 2 * halfE1.cfg.h < 2 ^ 60 ∧
    halfE1.lastDuration.toNat + 2 * halfE1.cfg.h < 2 ^ 60 :=
  ⟨inv_halfE1, by decide, by decide, by decide, by decide, by decide⟩

theorem encoding_halfE1 : encoding halfE1 := ⟨by decide, rfl, rfl, by decide, rfl⟩

/-- The last word of the half is processed, the end of it still to be found (E3). -/
theorem witness_EncStepEndOfHalf : encoding { halfE1 with scanPos := 4 } ∧
    quietSpan { halfE1 with scanPos := 4 } 4 4 ∧ fits { halfE1 with scanPos := 4 } 4 :=
  ⟨⟨by decide, rfl, rfl, by decide, rfl⟩, fun i h1 h2 => absurd h2 (by omega),
    by unfold fits; decide⟩

theorem edgeAt_halfE1 (b : Nat) : edgeAt { halfE1 with bytes := b } 2 :=
  have h : levelOf halfE1.cfg (word halfE1 2) ≠ halfE1.lastValue := by decide
  ⟨Nat.zero_le 2, (by decide : 2 < halfE1.cfg.h), fun i _ hi =>
    (by decide : ∀ i, i < 2 → levelOf halfE1.cfg (word halfE1 i) = halfE1.lastValue) i hi, h⟩

/-- 10 bytes free, the least that takes a record (E6). -/
theorem witness_EncStepEmitsRecord : encoding { halfE1 with bytes := 22 } ∧
    edgeAt { halfE1 with bytes := 22 } 2 ∧ fits { halfE1 with bytes := 22 } 2 ∧
    word { halfE1 with bytes := 22 } 2 &&& halfE1.cfg.reservedMask = 0 ∧ 22 + 10 ≤ halfE1.cfg.c :=
  ⟨encoding_halfE1, edgeAt_halfE1 22, by unfold fits; decide, by decide, by decide⟩

/-- 9 bytes free (E5). -/
theorem witness_EncStepThrottles : encoding { halfE1 with bytes := 23 } ∧
    edgeAt { halfE1 with bytes := 23 } 2 ∧ fits { halfE1 with bytes := 23 } 2 ∧
    word { halfE1 with bytes := 23 } 2 &&& halfE1.cfg.reservedMask = 0 ∧ halfE1.cfg.c < 23 + 10 :=
  ⟨encoding_halfE1, edgeAt_halfE1 23, by unfold fits; decide, by decide, by decide⟩

/-- The half of E1 with so long a duration carried into it that two more samples reach `2^60`. -/
def overlong : State := { halfE1 with durAcc := 0xFFFFFFFFFFFFFFE }

/-- An edge with a reserved bit at the last word of the half. -/
def lost : State := { halfE1 with pp := [(0, 5), (1, 5), (2, 5), (3, 0x8001)] }

theorem witness_EncStepSyncLoss : encoding lost ∧ edgeAt lost 3 ∧ fits lost 3 ∧
    word lost 3 < 2 ^ lost.cfg.w ∧
    word lost 3 &&& lost.cfg.reservedMask ≠ 0 :=
  ⟨⟨by decide, rfl, rfl, by decide, rfl⟩, ⟨by decide, by decide, fun i _ hi =>
    (by decide : ∀ i, i < 3 → levelOf lost.cfg (word lost i) = lost.lastValue) i hi, by decide⟩,
    by unfold fits; decide, by decide, by decide⟩

theorem witness_EncodeHalfIsBigStep : encoding halfE1 ∧ halfE1.scanPos = 0 ∧
    halfE1.bytes ≤ halfE1.cfg.c := ⟨encoding_halfE1, by decide, by decide⟩
theorem witness_EncodeHalfIsBigStep_done : bigEncode halfE1.cfg (halfWords halfE1 .half0) 0
    { out := [], n := 0, level := 5, dur := 0 } =
    .done { out := [0x25], n := 1, level := 6, dur := 1 } := by decide
theorem witness_EncodeHalfIsBigStep_throttled : bigEncode halfE1.cfg (halfWords halfE1 .half0) 0
    { out := [], n := 23, level := 5, dur := 0 } =
    .throttled { out := [], n := 23, level := 5, dur := 2 } := by decide
theorem witness_EncodeHalfIsBigStep_syncLoss : bigEncode lost.cfg (halfWords lost .half0) 0
    { out := [], n := 0, level := 5, dur := 0 } =
    .syncLoss 3 0x8001 { out := [], n := 0, level := 5, dur := 3 } := by decide

/-- The longest carried duration that does not wrap. -/
theorem witness_EncodeHalfWithoutEdge :
    encoding { halfE1 with durAcc := 0xFFFFFFFFFFFFFFB, pp := [(0, 5), (1, 5), (2, 5), (3, 5)] } ∧
    quietSpan { halfE1 with pp := [(0, 5), (1, 5), (2, 5), (3, 5)] } 0 4 ∧
    (0xFFFFFFFFFFFFFFB : Duration).toNat + 4 < 2 ^ 60 :=
  ⟨⟨by decide, rfl, rfl, by decide, rfl⟩, fun i _ hi =>
    (by decide : ∀ i, i < 4 → levelOf Config.cfgT
      (word { halfE1 with pp := [(0, 5), (1, 5), (2, 5), (3, 5)] } i) = 5) i hi, by decide⟩

theorem witness_CaptureIsBigStep : Inv armed ∧ ready armed ∧ armed.wrPtr = 0 ∧ armed.err = false ∧
    armed.ht = false ∧ armed.tc = false ∧
    (∀ ws ∈ [[5, 5, 6, 6], [6, 6, 6, 6], [6, 7, 7, 7]], ws.length = armed.cfg.h ∧
      ∀ w ∈ ws, w < 2 ^ armed.cfg.w) ∧
    bigEncode armed.cfg [[5, 5, 6, 6], [6, 6, 6, 6], [6, 7, 7, 7]].flatten 0
      { out := [], n := armed.bytes, level := armed.lastValue, dur := armed.lastDuration } =
      .done { out := [0x00, 0x15, 0x66], n := 3, level := 7, dur := 2 } :=
  ⟨inv_of_check (by decide), ready_armed, by decide, by decide, by decide, by decide, by decide,
    by decide⟩

theorem witness_EbappendAppends :
    (1 ≤ (List.replicate 10 (0x80 : Byte)).length ∧ (List.replicate 10 (0x80 : Byte)).length ≤ 10 ∧
      { base with bytes := 22 }.bytes + 10 ≤ base.cfg.c) ∧
    ([] : List Byte).length = 0 ∧ 10 < (List.replicate 11 (0x80 : Byte)).length ∧
    base.cfg.c < { base with bytes := 23 }.bytes + 10 := by decide

theorem witness_OutcomesWriteTheirRegisters : FatalReason.overrun ≠ .none ∧
    7 < 2 ^ base.cfg.posW ∧ 0xFFFF < 2 ^ base.cfg.w := by decide

theorem witness_ScanFindsFirstDifference : (8 ≤ 8 ∧ 8 ≤ 2 * base.cfg.h) ∧ 4 < 5 ∧
    2 * base.cfg.h < 9 := by decide
theorem witness_ScanSplits : (0 ≤ 4 ∧ 4 ≤ 8 ∧ scanOf scanMem 0 4 0xF 5 < 4) ∧
    (0 ≤ 2 ∧ 2 ≤ 4 ∧ scanOf scanMem 0 2 0xF 5 = 2) := by decide

theorem witness_LevelDepositLaws : baseU.cfg.WF ∧ 0xFFFF < 2 ^ baseU.cfg.w := by decide

theorem witness_VencLayout : (vencOf 0x80)[1]? = some 1 ∧ 2 ≤ (vencOf 0x80).length ∧
    (vencOf 0x8000000000000000).length = 10 ∧ (vencOf 0x8000000000000000)[9]? = some 1 := by decide

theorem witness_VencIsSelfDelimiting : vencOf 0x25 ++ [0x80] = vencOf 0x25 ++ [0x80] := by decide

theorem witness_VdecInvertsVenc :
    (3 ≤ ([0x25] ++ vencOf 0x12CA ++ []).length ∧ [0x25].length + (vencOf 0x12CA).length ≤ 3) ∧
    exec (.vdec [0xCA, 0x25] 0 [0xCA, 0x25].length) base =
      .next { base with out := .value 0x12CA [0xCA, 0x25].length } :=
  ⟨by decide, rfl⟩

theorem witness_VdecRefusesCorrupt : (∀ b ∈ List.replicate 9 (0x80 : Byte), 128 ≤ b.toNat) ∧
    (∀ b ∈ List.replicate 10 (0x80 : Byte), 128 ≤ b.toNat) ∧
    (∀ b ∈ [(0x80 : Byte)], 128 ≤ b.toNat) ∧ (2 : Byte).toNat < 128 ∧ (2 : Byte) ≠ 1 ∧
    (0 : Byte).toNat < 128 := by decide

theorem witness_RecordRowsSayIntervals : ∀ r ∈ [(Instr.rec1 0, 0), (.rec2 0x80, 0x80),
    (.rec3 0x4000, 0x4000), (.rec4 0x200000, 0x200000), (.rec5 0x10000000, 0x10000000),
    (.rec6 0x800000000, 0x800000000), (.rec7 0x40000000000, 0x40000000000),
    (.rec8 0x2000000000000, 0x2000000000000), (.rec9 0x100000000000000, 0x100000000000000),
    (.rec10 0, 0x8000000000000000)],
    recordRowValue r.1 = some r.2 ∧ r.1.wf base.cfg = true := by decide
theorem witness_RecordRowsSayIntervals_short : ∀ r ∈ [(Instr.rec2 0x7F, 0x7F),
    (.rec9 0xFFFFFFFFFFFFFF, 0xFFFFFFFFFFFFFF)],
    recordRowValue r.1 = some r.2 ∧ r.1.wf base.cfg = false := by decide

theorem witness_FatalIsTerminal : dead.mode = .fatal ∧
    (∃ t, step { dead with stimulus := [.event 0x05] } = .next t) ∧
    (∃ t, step { dead with stimulus := [.event 0x07] } = .next t) := ⟨by decide, ⟨_, rfl⟩, ⟨_, rfl⟩⟩

theorem witness_ModeTransitionsComplete : Inv halfSeq ∧
    decodeEvent 4 = .ok .seq ∧ ∃ t, step halfSeq = .next t :=
  ⟨inv_halfSeq, by decide, _, rfl⟩
theorem witness_ModeTransitionsComplete_fatal : Inv { lost with stimulus := [.event 4] } ∧
    stepped { lost with stimulus := [.event 4] } (fun t => t.mode) = some .fatal :=
  ⟨inv_of_check (by decide), by decide⟩

theorem witness_ValidBytesNeverChange_emission :
    Inv { emittingE1 1 with stimulus := [.seqWrite] } ∧
    stepped { emittingE1 1 with stimulus := [.seqWrite] } (fun t => (hostView t).bytes) = some 1 :=
  have h := inv_emittingE1.1
  ⟨{ h with }, by decide⟩
theorem witness_ValidBytesNeverChange : Inv halfSeq ∧
    decode (.event 4) ≠ .ok .arm ∧ decode (.event 4) ≠ .ok .reset ∧
    ∃ t, step halfSeq = .next t :=
  ⟨inv_halfSeq, by decide, by decide, _, rfl⟩

theorem witness_QuietModesKeepHostFields : Inv { dead with stimulus := [.event 0x62] } ∧
    Quiet dead ∧ decode (.event 0x62) ≠ .ok .arm ∧ decode (.event 0x62) ≠ .ok .reset ∧
    ∃ t, step { dead with stimulus := [.event 0x62] } = .next t :=
  ⟨inv_of_check (by decide), .inr (.inl rfl), by decide, by decide, _, rfl⟩
theorem witness_QuietModesKeepHostFields_suspended :
    Inv { base with mode := .suspended, stimulus := [.event 2] } ∧
    Quiet { base with mode := .suspended } := ⟨inv_of_check (by decide), .inl rfl⟩
theorem witness_QuietModesKeepHostFields_idle :
    Inv { base with stimulus := [.event 0x62] } ∧ Quiet base ∧
    ∃ t, step { base with stimulus := [.event 0x62] } = .next t :=
  ⟨inv_of_check (by decide), .inr (.inr rfl), _, rfl⟩

theorem witness_ViewsHoldWholeRecords : Inv (emittingE1 2) ∧
    (hostView (emittingE1 2)).bytes = 1 ∧ (hostView (emittingE1 1)).bytes = 0 :=
  ⟨inv_emittingE1.2, by decide, by decide⟩

theorem witness_OverrunNeverMissed : BufferInv overtaken ∧ overtaken.mode = .running ∧
    overtaken.seqState = .encode ∧ dmaInside overtaken overtaken.curHalf ∧
    ∃ t, runningChain overtaken [t] :=
  ⟨bufferInv_overtaken, by decide, by decide, (by decide : overtaken.wrPtr < overtaken.cfg.h), _,
    .inl ⟨0x62, .smp 6, by decide, by simp, rfl⟩, rfl, trivial⟩

theorem witness_UnwrittenWordsNeverObserved : BufferInv halfE1 ∧
    ∃ t, exec .encStep halfE1 = .next t := ⟨bufferInv_halfE1, _, rfl⟩

/-- The same half with the sync bit of each word set. -/
theorem witness_PayloadBitsNeverInfluence : halfE1.cfg.WF ∧ (∃ t, exec .encStep halfE1 = .next t) ∧
    ∀ i, ppWord { halfE1 with pp := [(0, 0x15), (1, 0x15), (2, 0x16), (3, 0x16)] } i &&&
        (halfE1.cfg.edgeMask ||| halfE1.cfg.reservedMask) =
      ppWord halfE1 i &&& (halfE1.cfg.edgeMask ||| halfE1.cfg.reservedMask) := by
  refine ⟨by decide, ⟨_, rfl⟩, fun i => ?_⟩
  match i with
  | 0 => decide
  | 1 => decide
  | 2 => decide
  | 3 => decide
  | _ + 4 => rfl

theorem witness_SeqWriteMakesOneVisibleWrite :
    [Fetch.seqWrite] = .seqWrite :: [] ∧ (halfE1.seqState = .encode ∧ halfE1.mode = .running) ∧
    (∃ e, (emittingE1 1).emission = some e ∧ e.seen ≤ e.record.length) ∧
    (∃ e, (emittingE1 2).emission = some e ∧ e.record.length < e.seen) ∧
    (halfE1.cfg.WF ∧ halfE1.emission = none ∧ edgeAt halfE1 2 ∧
      word halfE1 2 &&& halfE1.cfg.reservedMask = 0 ∧ halfE1.bytes + 10 ≤ halfE1.cfg.c ∧
      fits halfE1 2) ∧ ¬ fits overlong 2 ∧
    (edgeAt lost 3 ∧ word lost 3 &&& lost.cfg.reservedMask ≠ 0) ∧
    quietSpan { halfE1 with scanPos := 4 } 4 4 ∧ base.seqState ≠ .encode :=
  ⟨rfl, by decide, ⟨_, rfl, by decide⟩, ⟨_, rfl, by decide⟩,
    ⟨by decide, rfl, edgeAt_halfE1 0, by decide, by decide, by unfold fits; decide⟩,
    by unfold fits; decide,
    ⟨witness_EncStepSyncLoss.2.1, by decide⟩, witness_EncStepEndOfHalf.2.1, by decide⟩

theorem witness_VisibleWritesMakeUpStep : encoding halfE1 ∧ edgeAt halfE1 2 ∧ fits halfE1 2 ∧
    word halfE1 2 &&& halfE1.cfg.reservedMask = 0 ∧ halfE1.bytes + 10 ≤ halfE1.cfg.c ∧
    (recordOf (elapsed halfE1 2) halfE1.lastValue).length = 1 :=
  ⟨encoding_halfE1, edgeAt_halfE1 0, by unfold fits; decide, by decide, by decide, by decide⟩

theorem witness_EncStepFinishesEmission : (∃ e, (emittingE1 2).emission = some e) ∧
    (emittingE1 2).seqState = .encode ∧ (emittingE1 2).mode = .running ∧
    (emittingE1 2).scanPos ≤ (emittingE1 2).cfg.h := ⟨⟨_, rfl⟩, by decide, by decide, by decide⟩

theorem witness_OtherFlagHeldUntilCheck_entry : ready { pending with tc := true } ∧
    pending.err = false ∧ pending.ht = true := by unfold ready; decide
theorem witness_OtherFlagHeldUntilCheck : overdue { halfSeq with tc := true } ∧
    (∃ t, step { halfSeq with tc := true } = .next t) ∧
    overdue { busy with seqState := .check, tc := true, stimulus := [.event 4] } ∧
    stepped { busy with seqState := .check, tc := true, stimulus := [.event 4] }
      (fun t => t.fatalReason) = some .overrun :=
  ⟨by unfold overdue; decide, ⟨_, rfl⟩, by unfold overdue; decide, by decide⟩

theorem witness_EncoderWaits : base.seqState ≠ .encode ∧
    { halfE1 with mode := .fatal }.mode ≠ .running ∧ Half.half1 ≠ halfE1.curHalf := by decide

theorem witness_DurationOverflowRefused : (encoding overlong ∧ stopAt overlong 2 ∧
    ¬ fits overlong 2) ∧ (encoding halfE1 ∧ stopAt halfE1 2 ∧ fits halfE1 2) :=
  ⟨⟨encoding_halfE1, .inl (edgeAt_halfE1 0), by unfold fits; decide⟩,
    encoding_halfE1, .inl (edgeAt_halfE1 0), by unfold fits; decide⟩

/-- The same with the duration still in `last_duration`, the dispatch not begun. -/
def pendingLong : State :=
  { halfE1 with seqState := .idle, lastDuration := 0xFFFFFFFFFFFFFFE }

theorem witness_DurationOverflowRefused_dispatch : Inv pendingLong ∧ ready pendingLong ∧
    pendingLong.err = false ∧ pendingLong.ht = true ∧
    bigEncode pendingLong.cfg (halfWords pendingLong .half0) 0
      { out := [], n := 0, level := 5, dur := 0xFFFFFFFFFFFFFFE } = .tooLong ∧
    refusal .dispatch pendingLong = some .durationOverflow :=
  ⟨inv_of_check (by decide), by unfold ready; decide, by decide, by decide, by decide, by decide⟩

end Sys2Proof.Tests
end

section
/-! SUPPORT. The invariant of 10_state.md R37 under every effect: reset meets it, and each effect of
`Work` and `Move` keeps it. -/

namespace Sys2Proof.Machine

/-! ### Guards -/

theorem modeServes_iff (m : Mode) : modeServes m = true ↔ m = .armed ∨ m = .running := by
  cases m <;> simp [modeServes]

theorem modeSamples_iff (m : Mode) :
    modeSamples m = true ↔ m = .armed ∨ m = .running ∨ m = .suspended := by
  cases m <;> simp [modeSamples]

/-- `SEQ_ENTER` is enabled in `S_IDLE`, ARMED or RUNNING, with `irq = 1` (10 R25, 44 R146). -/
theorem enterEnabled_iff (s : State) : enterEnabled s = true ↔
    s.seqState = .idle ∧ (s.mode = .armed ∨ s.mode = .running) ∧ s.irqEn = true ∧
      (s.err = true ∨ s.ht = true ∨ s.tc = true) := by
  simp only [enterEnabled, irq, Bool.and_eq_true, Bool.or_eq_true, decide_eq_true_eq,
    modeServes_iff]
  tauto

/-! ### Consequences of the invariant -/

/-- A record becomes visible only in `S_ENCODE` and RUNNING (20 R49). -/
theorem Inv.emission_none {s : State} (h : Inv s) (hs : s.seqState ≠ .encode) :
    s.emission = none :=
  Option.eq_none_iff_forall_ne_some.2 fun e he => hs (h.emitting e he).1

theorem Inv.reason_none {s : State} (h : Inv s) (hm : s.mode ≠ .fatal) :
    s.fatalReason = .none :=
  not_not.1 (mt h.fatalIff.2 hm)

/-- No valid byte is the empty list of records, whatever `EB` holds. -/
theorem recordsWhole_of_bytes_zero {s : State} (hb : s.bytes = 0) :
    (parseOf (ebData s) s.bytes).isSome = true := by
  rw [hb]; rfl

/-- A word of `PP` is `W` bits wide, written or not (10 R32, 93 U2). -/
theorem Inv.ppWord_lt {s : State} (h : Inv s) (i : Nat) : ppWord s i < 2 ^ s.cfg.w := by
  unfold ppWord
  split
  · exact (h.ppRange _ _ ‹_›).2
  · exact Nat.mod_lt _ (Nat.two_pow_pos _)

/-! ### Each effect keeps the invariant -/

theorem Inv.answer {s : State} (h : Inv s) (a : Answer) : Inv (answer a s) := { h with }

theorem Inv.taken {s : State} (h : Inv s) (rest : List Fetch) : Inv (s.taken rest) := { h with }

theorem Inv.sample {s : State} (h : Inv s) {w : SampleWord} (hm : modeSamples s.mode = true)
    (hw : w < 2 ^ s.cfg.w) : Inv (sampleOp w s) :=
  { h with
    ptrLt := Nat.mod_lt _ (Nat.zero_lt_of_lt h.ptrLt)
    idleQuiet := fun hi => by simp only [sampleOp_mode] at hi; simp [hi, modeSamples] at hm
    ppWf := Memory.write_wf _ _ h.ppWf
    ppRange := fun a v hv => by
      rw [sampleOp_pp, Memory.read_write] at hv
      split at hv
      · cases hv; exact ⟨‹a = s.wrPtr› ▸ h.ptrLt, hw⟩
      · exact h.ppRange a v hv }

theorem Inv.dmaerr {s : State} (h : Inv s) (hm : modeSamples s.mode = true) :
    Inv { s with err := true } :=
  { h with
    idleQuiet := fun hi => by simp only at hi; simp [hi, modeSamples] at hm }

/-- Taking Fatal keeps the invariant where the reason fits the step of the sequencer that raises it
and the context fits its fields (10 R37 items 3 and 7, 60 R181). -/
theorem Inv.raiseFatal {s : State} (h : Inv s) {r : FatalReason} {half : Half} {p w : Nat}
    (hr : r ≠ .none) (he : s.emission = none)
    (hq : (s.seqState = .encode ↔ r = .syncLoss) ∧ (s.seqState = .check ↔ r = .overrun) ∧
      (s.seqState = .idle ↔ r = .dmaError))
    (hp : p < 2 ^ s.cfg.posW) (hw : w < 2 ^ s.cfg.w) : Inv (raiseFatal r half p w s) :=
  { h with
    fatalIff := by simpa using hr
    idleQuiet := by simp
    suspendedMasked := by simp
    servingEnabled := by simp
    dispatchMode := by simp
    frozen := fun _ => hq
    armedFresh := by simp
    emitting := fun e he' => by simp [he] at he'
    ctxLt := (packCtx_fields hp hw).1
    ctxZero := fun hz => absurd hz hr }

theorem Inv.dmaFatal {s : State} (h : Inv s) (he : enterEnabled s = true) :
    Inv (Machine.raiseFatal .dmaError .half0 0 0 s) := by
  obtain ⟨hq, -, -, -⟩ := (enterEnabled_iff s).1 he
  exact h.raiseFatal (by simp) (h.emission_none (by simp [hq])) (by simp [hq])
    (Nat.two_pow_pos _) (Nat.two_pow_pos _)

theorem Inv.overrun {s : State} (h : Inv s) (he : stepEnabled s .check = true) :
    Inv (Machine.raiseFatal .overrun s.curHalf 0 0 s) := by
  obtain ⟨hq, -⟩ := (stepEnabled_iff s .check).1 he
  exact h.raiseFatal (by simp) (h.emission_none (by simp [hq])) (by simp [hq])
    (Nat.two_pow_pos _) (Nat.two_pow_pos _)

theorem Inv.enter {s : State} (h : Inv s) (half : Half) (he : enterEnabled s = true) :
    Inv (enterHalf half s) := by
  obtain ⟨hq, hm, hirq, -⟩ := (enterEnabled_iff s).1 he
  have hne : s.emission = none := h.emission_none (by simp [hq])
  have hr : s.fatalReason = .none := h.reason_none (by rcases hm with hm | hm <;> simp [hm])
  exact { h with
    scanLe := Nat.zero_le _
    fatalIff := by simp [hr]
    idleQuiet := by simp
    suspendedMasked := by simp
    servingEnabled := fun _ => hirq
    dispatchMode := fun _ => .inl rfl
    frozen := by simp
    armedFresh := by simp
    emitting := fun e he' => by simp [hne] at he' }

/-- Going on within a dispatch, or ending it, keeps the invariant: in mode RUNNING and outside an
emission only the sequencer's own registers and the two flags are written (44 R150, R151). -/
theorem Inv.goOn {s t : State} (h : Inv s) (hm : s.mode = .running) (he : s.emission = none)
    (ht : t = { s with seqState := t.seqState, ht := t.ht, tc := t.tc, durAcc := t.durAcc,
                       lastDuration := t.lastDuration, scanPos := t.scanPos })
    (hp : t.scanPos ≤ s.cfg.h) : Inv t := by
  rw [ht]
  exact { h with
    scanLe := hp
    idleQuiet := by simp [hm]
    suspendedMasked := by simp [hm]
    dispatchMode := fun _ => .inl hm
    frozen := by simp [hm]
    armedFresh := by simp [hm]
    emitting := fun e he' => by simp [he] at he' }

theorem Inv.clear {s : State} (h : Inv s) (he : stepEnabled s .clear = true) (half : Half) :
    Inv { clearFlag half s with seqState := .check } := by
  obtain ⟨hq, hm⟩ := (stepEnabled_iff s .clear).1 he
  have hne : s.emission = none := h.emission_none (by simp [hq])
  cases half with
  | half0 => exact h.goOn hm hne rfl h.scanLe
  | half1 => exact h.goOn hm hne rfl h.scanLe

theorem Inv.finish {s : State} (h : Inv s) (he : stepEnabled s .check = true) :
    Inv { s with seqState := .idle } := by
  obtain ⟨hq, hm⟩ := (stepEnabled_iff s .check).1 he
  exact h.goOn hm (h.emission_none (by simp [hq])) rfl h.scanLe

/-- A throttle leaves RUNNING for SUSPENDED with `IRQ_EN` off and the dispatch ended (41 R95). -/
theorem Inv.throttleAt {s : State} (h : Inv s) (hm : s.mode = .running) (he : s.emission = none)
    (d : Duration) : Inv (throttleAt d s) :=
  { h with
    fatalIff := by simp [h.reason_none (s := s) (by simp [hm])]
    idleQuiet := by simp
    suspendedMasked := fun _ => ⟨rfl, rfl⟩
    servingEnabled := by simp
    dispatchMode := by simp
    frozen := by simp
    armedFresh := by simp
    emitting := fun e he' => by simp [he] at he' }

/-- The first visible write of a record: the step has checked its space and `VENC` gives a byte at
least (41 R93, 42 R111). -/
theorem Inv.startEmission {s : State} (h : Inv s) (he : stepEnabled s .encode = true)
    {bs : List Byte} {l : Level} {p : Nat} (ha : scanArm s = .emit bs l p) :
    Inv (startEmission bs l p s) := by
  obtain ⟨hq, hm⟩ := (stepEnabled_iff s .encode).1 he
  obtain ⟨rfl, hne, -, hspace, rfl, -⟩ := scanArm_emit ha
  have hp : edgePos s ≤ s.cfg.h := edgePos_le h.scanLe
  have hb : s.bytes ≤ s.cfg.c := h.bytesLe
  exact { h with
    scanLe := by simp only [startEmission_scanPos, startEmission_cfg]; omega
    emitting := by
      rintro e ⟨⟩
      exact ⟨hq, hm, by simp only [startEmission_bytes, startEmission_cfg]; omega,
        le_refl _, by simp, _, rfl⟩ }

theorem Inv.advanceEmission {s : State} (h : Inv s) {e : Emission} (he : s.emission = some e)
    (hl : e.seen ≤ e.record.length) : Inv (advanceEmission e s) := by
  obtain ⟨hq, hm, hb, -, -, hv⟩ := h.emitting e he
  exact { h with
    emitting := by
      rintro e' ⟨⟩
      exact ⟨hq, hm, hb, Nat.le_add_left _ _, Nat.succ_le_succ hl, hv⟩ }

/-- The last visible writes of a record append one whole record to whole records, within the space
the step has checked (41 R93, R94, 42 R116). -/
theorem Inv.finishEmission {s : State} (h : Inv s) {e : Emission} (he : s.emission = some e) :
    Inv (finishEmission e.record e.level s) := by
  obtain ⟨hq, hm, hb, -, -, v, hv⟩ := h.emitting e he
  have hlen : e.record.length ≤ 10 := by
    rw [hv, vencOf_length]; exact (vlenOf_spec v).2.1
  exact { h with
    bytesLe := by simp only [finishEmission_bytes, finishEmission_cfg]; omega
    idleQuiet := by simp [hm]
    armedFresh := by simp [hm]
    recordsWhole := by
      obtain ⟨rows, hrows⟩ := Option.isSome_iff_exists.1 h.recordsWhole
      have happ := parseOf_append v (by rwa [ebData_length])
      rw [← hv, ← ebData_append, ebData_length] at happ
      exact Option.isSome_iff_exists.2 ⟨_, happ⟩
    bytesWritten := fun a ha => by
      rw [finishEmission_bytes] at ha
      rw [finishEmission_eb, Memory.read_writeList]
      split
      · rw [List.getElem?_eq_getElem (by omega)]; rfl
      · exact h.bytesWritten a (by omega)
    ebWf := Memory.writeList_wf _ _ h.ebWf
    ebRange := fun a b hab => by
      rw [finishEmission_eb, Memory.read_writeList] at hab
      rw [finishEmission_cfg]
      split at hab
      · omega
      · exact h.ebRange a b hab
    emitting := by rintro e' ⟨⟩ }

/-- Every arm of an enabled `ENC_STEP` keeps the invariant (41 R91). -/
theorem Inv.encStep {s : State} (h : Inv s) (he : stepEnabled s .encode = true) :
    Inv (encStepOp s) := by
  obtain ⟨hq, hm⟩ := (stepEnabled_iff s .encode).1 he
  have hp : edgePos s ≤ s.cfg.h := edgePos_le h.scanLe
  rcases encStepOp_cases he with ⟨hne, -, hop⟩ | ⟨hne, -, -, hop⟩ | ⟨hne, -, -, -, hop⟩ |
    ⟨bs, l, -, ha, hop⟩ | ⟨e, hsome, hop⟩
  case inl =>
    rw [hop]; exact h.goOn hm hne rfl (le_refl _)
  case inr.inl =>
    have hd : Inv { s with durAcc := spanDuration s } := { h with }
    rw [hop]
    exact hd.raiseFatal (by simp) hne (by simp [hq])
      (lt_of_le_of_lt hp (lt_two_pow_bitLen _)) (h.ppWord_lt _)
  case inr.inr.inl =>
    have hd : Inv { s with durAcc := spanDuration s } := { h with }
    rw [hop]; exact hd.throttleAt hm hne _
  case inr.inr.inr.inl =>
    rw [hop]; exact (h.startEmission he ha).finishEmission rfl
  case inr.inr.inr.inr =>
    rw [hop]; exact h.finishEmission hsome

/-- `ARM` opens a session with no byte valid (43 R125). -/
theorem Inv.arm {s : State} (h : Inv s) (hq : s.seqState = .idle) (hm : s.mode ≠ .fatal)
    (o : Answer) : Inv { s with
      wrPtr := 0, ht := false, tc := false, err := false, bytes := 0, lastDuration := 0,
      mode := .armed, irqEn := true, out := o } :=
  { h with
    bytesLe := Nat.zero_le _
    ptrLt := Nat.zero_lt_of_lt h.ptrLt
    fatalIff := by simp [h.reason_none hm]
    idleQuiet := by simp
    suspendedMasked := by simp
    servingEnabled := fun _ => rfl
    dispatchMode := fun hne => absurd hq hne
    frozen := by simp
    armedFresh := fun _ => ⟨rfl, rfl, hq⟩
    recordsWhole := recordsWhole_of_bytes_zero rfl
    bytesWritten := fun a ha => absurd ha (Nat.not_lt_zero a)
    emitting := fun e he => by simp [h.emission_none (s := s) (by simp [hq])] at he }

/-- The RESET column of 10 R36 meets the invariant in every well-formed configuration. -/
theorem inv_resetFor {c : Config} (hc : c.WF) : Inv (State.resetFor c) where
  wf := hc
  bytesLe := Nat.zero_le _
  scanLe := Nat.zero_le _
  ptrLt := by
    obtain ⟨-, -, -, -, -, hh⟩ := hc
    exact Nat.mul_pos Nat.two_pos hh
  fatalIff := by simp [State.resetFor]
  idleQuiet := fun _ => ⟨rfl, rfl, rfl, rfl, rfl, rfl, rfl⟩
  suspendedMasked := fun hm => by cases hm
  servingEnabled := fun hm => by rcases hm with hm | hm <;> cases hm
  dispatchMode := fun hq => absurd rfl hq
  frozen := fun hm => by cases hm
  armedFresh := fun hm => by cases hm
  recordsWhole := recordsWhole_of_bytes_zero rfl
  bytesWritten := fun a ha => absurd ha (Nat.not_lt_zero a)
  ppWf := List.Pairwise.nil
  ppRange := fun a w hw => by cases hw
  ebWf := List.Pairwise.nil
  ebRange := fun a b hb => by cases hb
  emitting := fun e he => by cases he
  ctxLt := Nat.two_pow_pos _
  ctxZero := fun _ => rfl

/-- `RESET` opens a new epoch; the invariant reads neither it nor the events to come. -/
theorem Inv.reset {s : State} (h : Inv s) : Inv (resetOp s) :=
  { inv_resetFor h.wf with
    recordsWhole := recordsWhole_of_bytes_zero rfl }

theorem Inv.work {s t : State} (h : Inv s) (hst : Work s t) : Inv t := by
  cases hst with
  | answer a => exact h.answer a
  | sample w hm hw _ => exact h.sample hm hw
  | dmaerr hm => exact h.dmaerr hm
  | dmaFatal he _ => exact h.dmaFatal he
  | enter half he _ _ _ => exact h.enter half he
  | encode he _ => exact h.encStep he
  | start bs l p he _ _ ha => exact h.startEmission he ha
  | advance e _ he hl => exact h.advanceEmission he hl
  | clear he => exact h.clear he _
  | finish he _ => exact h.finish he
  | overrun he _ => exact h.overrun he

theorem Inv.move {s t : State} (h : Inv s) (hst : Move s t) : Inv t := by
  cases hst with
  | take rest => exact h.taken rest
  | work _ hw => exact h.work hw
  | arm o hq hm => exact h.arm hq hm o
  | reset => exact h.reset

end Sys2Proof.Machine
end

section
/-! PROOFS. The invariants hold at reset and every step keeps them. -/

namespace Sys2Proof.Proofs

open Sys2Proof.Machine

/-- Settles O2: every step is a sequence of moves, and each move keeps `Inv`. -/
theorem stepKeepsInvariant : Obligations.StepKeepsInvariant := by
  intro s t hs hst
  exact step_keeps (fun _ _ hm h => h.move hm) hs hst

/-- Settles O1: nothing is written and no flag is set at reset, so `BufferInv` adds nothing. -/
theorem resetMeetsInvariant : Obligations.ResetMeetsInvariant := by
  have hreset : ∀ c : Config, c.WF → BufferInv (State.resetFor c) := fun c hc =>
    { base := inv_resetFor hc
      written := fun i hi => absurd hi (Nat.not_lt_zero i)
      htWritten := fun h => by cases h
      tcWritten := fun h => by cases h
      ownSet := fun h => by cases h
      htAhead := fun h => by cases h
      tcAhead := fun h => by cases h }
  exact ⟨hreset, hreset _ (by decide)⟩

end Sys2Proof.Proofs
end

section
/-! SUPPORT. The host port: what `RD` answers for each field of 10_state.md R29 to R31. -/

namespace Sys2Proof.Machine

/-- `RD` of a field that exists answers it as HOST sees the block, and changes nothing else
(20 R47). -/
theorem exec_rd_of_field {s : State} {f v : Nat} (h : fieldValue (hostView s) f = some v) :
    exec (.rd f) s = .next { s with out := .field f v } := by
  simp only [exec, execRd, h]; rfl

theorem fieldValue_reserved {f : Nat} (hf : 5 ≤ f) (s : State) : fieldValue s f = none := by
  obtain ⟨k, rfl⟩ := Nat.exists_eq_add_of_le' hf
  rfl

/-- HOST reads `bytes` as advanced once it has seen every byte of the record (20 R49). -/
theorem hostView_bytes_of_some {s : State} {e : Emission} (he : s.emission = some e) :
    (hostView s).bytes = if e.record.length < e.seen then s.bytes + e.record.length else s.bytes := by
  rw [hostView_some he]

/-- No write of a record in progress shows in `STATUS` (20 R49, 10 R29). -/
@[simp] theorem statusField_hostView (s : State) : statusField (hostView s) = statusField s := by
  simp only [statusField, hostView_mode, hostView_fatalReason, hostView_irqEn, hostView_ht,
    hostView_tc, hostView_err, hostView_seqState, hostView_curHalf, hostView_syncOut]

theorem modeCode_lt (m : Mode) : modeCode m < 8 := by cases m <;> decide

theorem reasonCode_lt (r : FatalReason) : reasonCode r < 4 := by cases r <;> decide

theorem seqStateCode_lt (q : SeqState) : seqStateCode q < 4 := by cases q <;> decide

/-- Each code fits the bits `STATUS` gives it, so no field runs into the next (10 R29). -/
theorem statusField_bits (s : State) :
    statusField s < 2 ^ 13 ∧ statusField s % 8 = modeCode s.mode ∧
    statusField s / 2 ^ 3 % 4 = reasonCode s.fatalReason ∧
    statusField s / 2 ^ 5 % 2 = s.irqEn.toNat ∧ statusField s / 2 ^ 6 % 2 = s.ht.toNat ∧
    statusField s / 2 ^ 7 % 2 = s.tc.toNat ∧ statusField s / 2 ^ 8 % 2 = s.err.toNat ∧
    statusField s / 2 ^ 9 % 4 = seqStateCode s.seqState ∧
    statusField s / 2 ^ 11 % 2 = halfCode s.curHalf ∧
    statusField s / 2 ^ 12 % 2 = s.syncOut.toNat := by
  have hmode := modeCode_lt s.mode
  have hreason := reasonCode_lt s.fatalReason
  have hseq := seqStateCode_lt s.seqState
  have hhalf := halfCode_lt s.curHalf
  have hirq := s.irqEn.toNat_lt
  have hht := s.ht.toNat_lt
  have htc := s.tc.toNat_lt
  have herr := s.err.toNat_lt
  have hsync := s.syncOut.toNat_lt
  simp only [statusField, Nat.shiftLeft_eq]
  omega

end Sys2Proof.Machine
end

section
/-! SUPPORT. Which step `SEQ` takes in each `seq_state` (30_encoding.md R69), and what the entry of a
dispatch can do (44 R146). -/

namespace Sys2Proof.Machine

theorem dispErrOp_of_disabled {s : State} (h : enterEnabled s = false) : dispErrOp s = s := by
  simp [dispErrOp, h]

theorem dispHalfOp_of_disabled {s : State} (h : enterEnabled s = false) : dispHalfOp s = s := by
  simp [dispHalfOp, h]

theorem dispFullOp_of_disabled {s : State} (h : enterEnabled s = false) : dispFullOp s = s := by
  simp [dispFullOp, h]

theorem seqEnterOp_of_disabled {s : State} (h : enterEnabled s = false) : seqEnterOp s = s := by
  simp only [seqEnterOp, dispErrOp_of_disabled h, dispHalfOp_of_disabled h,
    dispFullOp_of_disabled h, ite_self]

/-- An enabled entry raises Fatal for a transfer error (44 R147). -/
theorem seqEnterOp_of_err {s : State} (h : enterEnabled s = true) (herr : s.err = true) :
    seqEnterOp s = raiseFatal .dmaError .half0 0 0 s := by
  simp [seqEnterOp, dispErrOp, h, herr]

/-- An enabled entry without a transfer error takes half 0 before half 1 (44 R148, R149). -/
theorem seqEnterOp_of_half {s : State} (h : enterEnabled s = true) (herr : s.err = false)
    {half : Half}
    (hf : (half = .half0 ∧ s.ht = true) ∨ (half = .half1 ∧ s.ht = false ∧ s.tc = true)) :
    seqEnterOp s = enterHalf half s := by
  rcases hf with ⟨rfl, hht⟩ | ⟨rfl, hht, htc⟩
  · simp [seqEnterOp, dispHalfOp, h, herr, hht]
  · simp [seqEnterOp, dispFullOp, h, herr, hht, htc]

/-- Everything `SEQ_ENTER` can do. -/
theorem seqEnterOp_cases (s : State) :
    seqEnterOp s = s ∨
    (enterEnabled s = true ∧ seqEnterOp s = raiseFatal .dmaError .half0 0 0 s) ∨
    (enterEnabled s = true ∧ ∃ half, seqEnterOp s = enterHalf half s) := by
  cases h : enterEnabled s with
  | false => exact .inl (seqEnterOp_of_disabled h)
  | true =>
    cases herr : s.err with
    | true => exact .inr (.inl ⟨rfl, seqEnterOp_of_err h herr⟩)
    | false =>
      refine .inr (.inr ⟨rfl, ?_⟩)
      obtain ⟨-, -, -, hflag⟩ := (enterEnabled_iff s).1 h
      cases hht : s.ht with
      | true => exact ⟨_, seqEnterOp_of_half h herr (.inl ⟨rfl, hht⟩)⟩
      | false =>
        have htc : s.tc = true := by simpa [herr, hht] using hflag
        exact ⟨_, seqEnterOp_of_half h herr (.inr ⟨rfl, hht, htc⟩)⟩

/-- The row the key selects: the cause of the entry in `S_IDLE`, elsewhere the step `seq_state`
names, whatever the flags (30 R69). -/
theorem decodeKeyOp_seqKey (s : State) : decodeKeyOp (seqKey s) =
    match s.seqState with
    | .idle => if s.err then .dispErr else if s.ht then .dispHalf else if s.tc then .dispFull
        else .seqNone
    | .encode => .encStep
    | .clear => .seqClear
    | .check => .seqCheck := by
  simp only [seqKey]
  cases s.seqState <;> cases s.err <;> cases s.ht <;> cases s.tc <;> rfl

theorem execSeq_of_idle {s : State} (hq : s.seqState = .idle) :
    execSeq s = .next (seqEnterOp s) := by
  simp only [execSeq, decodeKeyOp_seqKey, hq, seqEnterOp]
  cases s.err
  case true => rfl
  cases s.ht
  case true => rfl
  cases htc : s.tc
  case true => rfl
  simp [dispFullOp, htc]

theorem execSeq_of_encode {s : State} (hq : s.seqState = .encode) :
    execSeq s = encStepOutcome s := by
  simp only [execSeq, decodeKeyOp_seqKey, hq]

theorem execSeq_of_clear {s : State} (hq : s.seqState = .clear) :
    execSeq s = .next (seqClearOp s) := by
  simp only [execSeq, decodeKeyOp_seqKey, hq]

theorem execSeq_of_check {s : State} (hq : s.seqState = .check) :
    execSeq s = .next (seqCheckOp s) := by
  simp only [execSeq, decodeKeyOp_seqKey, hq]

end Sys2Proof.Machine
end

section
/-! PROOFS. `RD`, `RESET` and the entry rows. -/

namespace Sys2Proof.Proofs

open Sys2Proof.Machine Sys2Proof.Claims

/-- Settles O14. -/
theorem rdStatusLayout : Obligations.RdStatusLayout := by
  intro s
  have hfield : fieldValue (hostView s) 0 = some (statusField s) :=
    congrArg some (statusField_hostView s)
  exact ⟨statusField s, exec_rd_of_field hfield, statusField_bits s⟩

/-- Settles O15. -/
theorem rdReadsRegisters : Obligations.RdReadsRegisters := by
  intro s
  have hbytes : fieldValue (hostView s) 1 = some (hostView s).bytes := rfl
  refine ⟨fun hne => ?_, fun e he hle => ?_, fun e he hlt => ?_, ?_, ?_, ?_, fun f hf => ?_⟩
  · rw [exec_rd_of_field hbytes, hostView_none hne]
  · rw [exec_rd_of_field hbytes, hostView_bytes_of_some he, if_neg (Nat.not_lt.2 hle)]
  · rw [exec_rd_of_field hbytes, hostView_bytes_of_some he, if_pos hlt]
  · exact exec_rd_of_field (congrArg (fun l : Level => some l.toNat) (hostView_lastValue s))
  · exact exec_rd_of_field (congrArg (fun d : Duration => some d.toNat) (hostView_lastDuration s))
  · exact exec_rd_of_field (congrArg some (hostView_fatalCtx s))
  · simp only [exec, execRd, fieldValue_reserved hf]

/-- Settles O17: `resetOp` is the RESET column, with two empty memories. -/
theorem resetClearsBlock : Obligations.ResetClearsBlock := by
  intro s
  refine ⟨resetOp s, rfl, ?_⟩
  simp [resetOp, State.resetFor]

/-- Settles O21: the guard of `SEQ_ENTER` is exactly the premise, and in `S_IDLE` the event `SEQ`
is `SEQ_ENTER`. -/
theorem entryWaits : Obligations.EntryWaits := by
  intro s hs
  have hdis : enterEnabled s = false := by
    rw [Bool.eq_false_iff, ne_eq, enterEnabled_iff]
    rintro ⟨hq, hm, hirq, hflag⟩
    exact hs ⟨⟨hq, hm, hirq⟩, hflag⟩
  refine ⟨?_, fun hq => ?_⟩
  · simp [exec, execSeqEnter, execDispErr, execDispHalf, execDispFull, execDispatch, hdis,
      seqEnterOp_of_disabled, dispErrOp_of_disabled, dispHalfOp_of_disabled,
      dispFullOp_of_disabled]
  · simp only [exec, execSeq_of_idle hq, seqEnterOp_of_disabled hdis]

end Sys2Proof.Proofs
end

section
/-! SUPPORT. The rows an event word decodes to, and where each event leaves `mode` (10_state.md
R38). -/

namespace Sys2Proof.Machine

/-- The rows of the event table, those with a reserved code by their meaning (30 R71, R75). -/
inductive EventRow : Instr → Prop where
  | nop : EventRow .nop
  | arm : EventRow .arm
  | smp (w : SampleWord) : EventRow (.smp w)
  | dmaerr : EventRow .dmaerr
  | seq : EventRow .seq
  | rd (f : Nat) : EventRow (.rd f)
  | rdeb (a : Nat) : EventRow (.rdeb a)
  | reset : EventRow .reset
  | reserved (i : Instr) : (∀ s, ∃ op, exec i s = .refused (.reservedEvent op)) → EventRow i

theorem eventRow_of_decodeEvent {e : Nat} {i : Instr} (h : decodeEvent e = .ok i) :
    EventRow i := by
  simp only [decodeEvent] at h
  split at h
  case h_1 => split at h <;> cases h; exact .nop
  case h_2 => split at h <;> cases h; exact .arm
  case h_3 => cases h; exact .smp _
  case h_4 => split at h <;> cases h; exact .dmaerr
  case h_5 => split at h <;> cases h; exact .seq
  case h_6 => cases h; exact .rd _
  case h_7 => cases h; exact .rdeb _
  case h_8 => split at h <;> cases h; exact .reset
  all_goals cases h; exact .reserved _ fun _ => ⟨_, rfl⟩

/-- An event word runs the row it decodes to (30 R70). -/
theorem step_of_event {s : State} {e : Nat} {rest : List Fetch} {i : Instr}
    (hs : s.stimulus = .event e :: rest) (hd : decodeEvent e = .ok i) :
    step s = exec i (s.taken rest) := by
  simp only [step, hs, decode, hd]

theorem execSmp_mode {s t : State} {w : SampleWord} (h : execSmp w s = .next t) :
    t.mode = s.mode := by
  unfold execSmp at h
  split at h
  · cases h
  split at h
  · split at h <;> cases h; rfl
  · cases h; rfl

theorem execDmaerr_mode {s t : State} (h : execDmaerr s = .next t) : t.mode = s.mode := by
  unfold execDmaerr at h
  split at h <;> (cases h; rfl)

theorem execRd_mode {s t : State} {f : Nat} (h : execRd f s = .next t) : t.mode = s.mode := by
  unfold execRd at h
  split at h <;> cases h; rfl

theorem execRdeb_mode {s t : State} {a : Nat} (h : execRdeb a s = .next t) :
    t.mode = s.mode := by
  unfold execRdeb at h
  split at h <;> cases h; rfl

theorem execArm_mode {s t : State} (h : execArm s = .next t) :
    t.mode = s.mode ∨ (s.mode ≠ .fatal ∧ t.mode = .armed) := by
  unfold execArm at h
  split at h <;> cases h
  · rename_i hen
    simp only [armEnabled, Bool.and_eq_true, decide_eq_true_eq] at hen
    exact .inr ⟨hen.2, rfl⟩
  · exact .inl rfl

/-- Each reason of Fatal belongs to one step of the sequencer (10 R38, 60 R181). -/
def fatalCause (q : SeqState) (r : FatalReason) : Prop :=
  (q = .idle ∧ r = .dmaError) ∨ (q = .encode ∧ r = .syncLoss) ∨ (q = .check ∧ r = .overrun)

/-- Where one step of SEQ may leave `mode` (10 R38). -/
def seqMove (s t : State) : Prop :=
  t.mode = s.mode ∨
  (s.mode = .armed ∧ t.mode = .running) ∨
  (s.mode = .running ∧ t.mode = .suspended) ∨
  ((s.mode = .armed ∨ s.mode = .running) ∧ t.mode = .fatal ∧ fatalCause s.seqState t.fatalReason)

theorem seqMove_seqEnterOp (s : State) : seqMove s (seqEnterOp s) := by
  rcases seqEnterOp_cases s with hop | ⟨hen, hop⟩ | ⟨hen, half, hop⟩
  · rw [hop]; exact .inl rfl
  · obtain ⟨hq, hm, -, -⟩ := (enterEnabled_iff s).1 hen
    rw [hop]; exact .inr (.inr (.inr ⟨hm, rfl, .inl ⟨hq, rfl⟩⟩))
  · obtain ⟨-, hm | hm, -, -⟩ := (enterEnabled_iff s).1 hen
    · rw [hop]; exact .inr (.inl ⟨hm, rfl⟩)
    · rw [hop]; exact .inl hm.symm

theorem seqMove_encStepOp (s : State) : seqMove s (encStepOp s) := by
  cases hen : stepEnabled s .encode with
  | false => rw [encStepOp_of_disabled hen]; exact .inl rfl
  | true =>
    obtain ⟨hq, hm⟩ := (stepEnabled_iff s .encode).1 hen
    rcases encStepOp_cases hen with ⟨-, -, hop⟩ | ⟨-, -, -, hop⟩ | ⟨-, -, -, -, hop⟩ |
      ⟨_, _, -, -, hop⟩ | ⟨_, -, hop⟩
    case inl => rw [hop]; exact .inl rfl
    case inr.inl => rw [hop]; exact .inr (.inr (.inr ⟨.inr hm, rfl, .inr (.inl ⟨hq, rfl⟩)⟩))
    case inr.inr.inl => rw [hop]; exact .inr (.inr (.inl ⟨hm, rfl⟩))
    case inr.inr.inr.inl => rw [hop]; exact .inl rfl
    case inr.inr.inr.inr => rw [hop]; exact .inl rfl

theorem seqMove_seqClearOp (s : State) : seqMove s (seqClearOp s) := by
  refine .inl ?_
  unfold seqClearOp
  split
  · exact clearFlag_mode _ _
  · rfl

theorem seqMove_seqCheckOp (s : State) : seqMove s (seqCheckOp s) := by
  unfold seqCheckOp
  split
  · rename_i hen
    obtain ⟨hq, hm⟩ := (stepEnabled_iff s .check).1 hen
    split
    · exact .inr (.inr (.inr ⟨.inr hm, rfl, .inr (.inr ⟨hq, rfl⟩)⟩))
    · exact .inl rfl
  · exact .inl rfl

theorem execSeq_seqMove {s t : State} (h : execSeq s = .next t) : seqMove s t := by
  cases hq : s.seqState with
  | idle =>
    rw [execSeq_of_idle hq] at h; cases h; exact seqMove_seqEnterOp s
  | encode =>
    rw [execSeq_of_encode hq] at h
    obtain ⟨-, rfl⟩ := encStepOutcome_next h
    exact seqMove_encStepOp s
  | clear =>
    rw [execSeq_of_clear hq] at h; cases h; exact seqMove_seqClearOp s
  | check =>
    rw [execSeq_of_check hq] at h; cases h; exact seqMove_seqCheckOp s

end Sys2Proof.Machine
end

section
/-! PROOFS. The transitions of `mode`. -/

namespace Sys2Proof.Proofs

open Sys2Proof.Machine Sys2Proof.Claims

/-- The two clauses of `ModeTransitionsComplete` for one event row. -/
def modeClauses (i : Instr) (s t : State) : Prop :=
  modeMove i s.mode t.mode ∧
    (t.mode = .fatal → s.mode ≠ .fatal → fatalCause s.seqState t.fatalReason)

theorem modeClauses_of_same {i : Instr} {s t : State} (hi : i ≠ .reset) (h : t.mode = s.mode) :
    modeClauses i s t :=
  ⟨.inr (.inl ⟨hi, h⟩), fun ht hs => absurd (h ▸ ht) hs⟩

theorem modeClauses_arm {s t : State} (h : exec .arm s = .next t) : modeClauses .arm s t := by
  rcases execArm_mode h with hsame | ⟨hs, ht⟩
  · exact modeClauses_of_same (by simp) hsame
  · exact ⟨.inr (.inr (.inl ⟨rfl, hs, ht⟩)), fun ht' => by simp [ht] at ht'⟩

theorem modeClauses_seq {s t : State} (h : exec .seq s = .next t) : modeClauses .seq s t := by
  rcases execSeq_seqMove h with hsame | ⟨hs, ht⟩ | ⟨hs, ht⟩ | ⟨hs, ht, hc⟩
  · exact modeClauses_of_same (by simp) hsame
  · exact ⟨.inr (.inr (.inr (.inl ⟨rfl, hs, .inl ht⟩))), fun ht' => by simp [ht] at ht'⟩
  · exact ⟨.inr (.inr (.inr (.inr ⟨rfl, hs, .inl ht⟩))), fun ht' => by simp [ht] at ht'⟩
  · refine ⟨?_, fun _ _ => hc⟩
    rcases hs with hs | hs
    · exact .inr (.inr (.inr (.inl ⟨rfl, hs, .inr ht⟩)))
    · exact .inr (.inr (.inr (.inr ⟨rfl, hs, .inr ht⟩)))

theorem modeClauses_exec {i : Instr} {s t : State} (hi : EventRow i) (h : exec i s = .next t) :
    modeClauses i s t := by
  cases hi with
  | nop => cases h; exact modeClauses_of_same (by simp) rfl
  | arm => exact modeClauses_arm h
  | smp w => exact modeClauses_of_same (by simp) (execSmp_mode h)
  | dmaerr => exact modeClauses_of_same (by simp) (execDmaerr_mode h)
  | seq => exact modeClauses_seq h
  | rd f => exact modeClauses_of_same (by simp) (execRd_mode h)
  | rdeb a => exact modeClauses_of_same (by simp) (execRdeb_mode h)
  | reset => cases h; exact ⟨.inl ⟨rfl, rfl⟩, fun hf => by cases hf⟩
  | reserved _ hr => obtain ⟨op, hop⟩ := hr s; rw [hop] at h; cases h

/-- Settles O49, row by row of the event table. -/
theorem modeTransitionsComplete : Obligations.ModeTransitionsComplete := by
  intro s t e rest i _ hstim hdec hstep
  rw [step_of_event hstim hdec] at hstep
  have hclauses : modeClauses i (s.taken rest) t :=
    modeClauses_exec (eventRow_of_decodeEvent hdec) hstep
  exact hclauses

end Sys2Proof.Proofs
end

section
/-! SUPPORT. The big-step encoder of 41_run_length_encoder.md R101 against `ENC_STEP` (R91): one
step of the machine is one run of equal samples and the edge after it. -/

namespace Sys2Proof.Machine

/-- A run of samples of the current level is counted, or reaches `2^60` (41 R101, 93 U3). -/
theorem bigEncode_run (c : Config) (xs : List SampleWord) : ∀ (run : List SampleWord) (j : Nat)
    (b : BigState), (∀ x ∈ run, levelOf c x = b.level) →
    bigEncode c (run ++ xs) j b =
      if b.dur.toNat + run.length < 2 ^ 60 then
        bigEncode c xs (j + run.length) { b with dur := b.dur + BitVec.ofNat 60 run.length }
      else .tooLong
  | [], j, b, _ => by
    have hlt : b.dur.toNat + 0 < 2 ^ 60 := b.dur.isLt
    rw [List.length_nil, if_pos hlt]
    simp
  | x :: run, j, b, hrun => by
    have hx : levelOf c x = b.level := hrun x (by simp)
    rw [List.cons_append, bigEncode, if_pos hx]
    by_cases hone : b.dur.toNat + 1 < 2 ^ 60
    · have hdur : (b.dur + 1).toNat = b.dur.toNat + 1 := by
        rw [BitVec.toNat_add]; exact Nat.mod_eq_of_lt hone
      rw [if_pos hone, bigEncode_run c xs run (j + 1) { b with dur := b.dur + 1 }
        (fun y hy => hrun y (by simp [hy]))]
      simp only [hdur, List.length_cons, BitVec.ofNat_add]
      congr 1
      · simp only [eq_iff_iff]; omega
      · congr 1
        · omega
        · rw [BitVec.add_assoc, BitVec.add_comm 1]
          rfl
    · rw [if_neg hone, if_neg (by simp only [List.length_cons]; omega)]

/-- The words of the half being processed from position `p` on. -/
def wordsFrom (s : State) (p : Nat) : List SampleWord :=
  (List.range' p (s.cfg.h - p)).map (fun i => ppWord s (halfBase s + i))

theorem halfWords_eq_wordsFrom (s : State) : halfWords s s.curHalf = wordsFrom s 0 := by
  rw [halfWords, wordsFrom, List.range_eq_range']
  rfl

theorem wordsFrom_end (s : State) : wordsFrom s s.cfg.h = [] := by simp [wordsFrom]

theorem wordsFrom_cons {s : State} {p : Nat} (hp : p < s.cfg.h) :
    wordsFrom s p = ppWord s (halfBase s + p) :: wordsFrom s (p + 1) := by
  obtain ⟨k, hk⟩ : ∃ k, s.cfg.h - p = k + 1 := ⟨s.cfg.h - p - 1, by omega⟩
  have hk' : s.cfg.h - (p + 1) = k := by omega
  rw [wordsFrom, wordsFrom, hk, hk', List.range'_succ, List.map_cons]

theorem wordsFrom_split {s : State} {p q : Nat} (hpq : p ≤ q) (hq : q ≤ s.cfg.h) :
    wordsFrom s p =
      (List.range' p (q - p)).map (fun i => ppWord s (halfBase s + i)) ++ wordsFrom s q := by
  have hlen : s.cfg.h - p = (q - p) + (s.cfg.h - q) := by omega
  have hq' : p + 1 * (q - p) = q := by omega
  rw [wordsFrom, wordsFrom, hlen, ← List.range'_append, List.map_append, hq']

theorem wordsFrom_eq_of {s t : State} (hc : t.cfg = s.cfg) (hp : t.pp = s.pp)
    (he : t.epoch = s.epoch) (hh : t.curHalf = s.curHalf) (p : Nat) :
    wordsFrom t p = wordsFrom s p := by
  simp only [wordsFrom, ppWord, halfBase, hc, hp, he, hh]

/-- The big-step encoder on the rest of the half, with the bytes `out` appended so far. -/
def bigRest (s : State) (out : List Byte) : BigStep :=
  bigEncode s.cfg (wordsFrom s s.scanPos) s.scanPos
    { out := out, n := s.bytes, level := s.lastValue, dur := s.durAcc }

/-- Where the big-step encoder goes when the machine's step takes the arm `arm` (41 R91, R101). -/
def bigArm (s : State) (out : List Byte) : EncArm → BigStep
  | .endOfHalf d => .done { out := out, n := s.bytes, level := s.lastValue, dur := d }
  | .syncLoss d p w => .syncLoss p w { out := out, n := s.bytes, level := s.lastValue, dur := d }
  | .backpressure d => .throttled { out := out, n := s.bytes, level := s.lastValue, dur := d }
  | .emit bs l p => bigRest (applyArm (.emit bs l p) s) (out ++ bs)
  | .finish bs l => bigRest (applyArm (.finish bs l) s) (out ++ bs)

/-- One new `ENC_STEP` is one stretch of the big-step encoder. -/
theorem bigRest_eq_bigArm {s : State} (hwf : s.cfg.WF) (hs : s.scanPos ≤ s.cfg.h)
    (out : List Byte) :
    bigRest s out = if durationFits s then bigArm s out (scanArm s) else .tooLong := by
  obtain ⟨hge, hle, hquiet, hedge⟩ := edgePos_spec hwf hs
  have hrun : ∀ x ∈ (List.range' s.scanPos (edgePos s - s.scanPos)).map
      (fun i => ppWord s (halfBase s + i)), levelOf s.cfg x = s.lastValue := by
    intro x hx
    obtain ⟨i, hi, rfl⟩ := List.mem_map.1 hx
    rw [List.mem_range'_1] at hi
    exact hquiet i hi.1 (by omega)
  rw [bigRest, wordsFrom_split hge hle, bigEncode_run _ _ _ _ _ hrun, List.length_map,
    List.length_range', Nat.add_sub_cancel' hge]
  refine if_congr Iff.rfl ?_ rfl
  change bigEncode s.cfg (wordsFrom s (edgePos s)) (edgePos s)
    { out := out, n := s.bytes, level := s.lastValue, dur := spanDuration s } = _
  by_cases hend : edgePos s = s.cfg.h
  · rw [hend, wordsFrom_end]
    simp only [scanArm, if_pos hend, bigEncode, bigArm]
  · have hlt : edgePos s < s.cfg.h := lt_of_le_of_ne hle hend
    rw [wordsFrom_cons hlt, bigEncode, if_neg (hedge hlt)]
    simp only [scanArm, if_neg hend]
    by_cases hsync : ppWord s (halfBase s + edgePos s) &&& s.cfg.reservedMask ≠ 0
    · simp only [if_pos hsync, bigArm]
    · by_cases hspace : s.cfg.c - s.bytes < maxRec
      · simp only [if_neg hsync, if_pos hspace, bigArm]
      · simp only [if_neg hsync, if_neg hspace, bigArm]
        rfl

/-! ### Refusals for the duration -/

theorem scanArm_ne_finish (s : State) (bs : List Byte) (l : Level) : scanArm s ≠ .finish bs l := by
  simp only [scanArm]
  split
  · simp
  split
  · simp
  split <;> simp

/-- A new `ENC_STEP` takes the arm the scan gives. -/
theorem encStepOp_of_new {s : State} (he : stepEnabled s .encode = true) (hm : s.emission = none) :
    encStepOp s = applyArm (scanArm s) s := by
  simp only [encStepOp, he, if_true, encArm, hm]

/-- A new `ENC_STEP` puts the duration it has computed into `dur_acc`, or restarts it behind the
edge whose record it has emitted (41 R91, R94). -/
theorem encStepOp_durAcc {s : State} (he : stepEnabled s .encode = true)
    (hm : s.emission = none) : (encStepOp s).durAcc = spanDuration s ∨
      ((encStepOp s).durAcc = 0 ∧ (encStepOp s).scanPos = edgePos s + 1) := by
  rcases encStepOp_cases he with ⟨-, -, hop⟩ | ⟨-, -, -, hop⟩ | ⟨-, -, -, -, hop⟩ |
    ⟨_, _, -, -, hop⟩ | ⟨_, hsome, -⟩
  case inl => rw [hop]; exact .inl rfl
  case inr.inl => rw [hop]; exact .inl rfl
  case inr.inr.inl => rw [hop]; exact .inl rfl
  case inr.inr.inr.inl => rw [hop]; exact .inr ⟨rfl, rfl⟩
  case inr.inr.inr.inr => simp [hm] at hsome

theorem encLoopRefusal_of_refusal {s : State} {r : Refusal} (n : Nat) (h : encRefusal s = some r) :
    encLoopRefusal (n + 1) s = some r := by
  simp only [encLoopRefusal, h]

theorem encLoopRefusal_of_taken {s : State} (n : Nat) (h : encRefusal s = none) :
    encLoopRefusal (n + 1) s = encLoopRefusal n (encStepOp s) := by
  simp only [encLoopRefusal, h]

/-- Once `S_ENCODE` is left no further `ENC_STEP` is refused. -/
theorem encLoopRefusal_of_disabled {s : State} (he : stepEnabled s .encode = false) :
    ∀ n, encLoopRefusal n s = none
  | 0 => rfl
  | n + 1 => by
    have hr : encRefusal s = none := encRefusal_eq_none.2 fun he' => by simp [he] at he'
    rw [encLoopRefusal_of_taken n hr, encStepOp_of_disabled he]
    exact encLoopRefusal_of_disabled he n

/-- With rounds enough for the rest of the half, the `ENC_STEP`s are refused for the duration
exactly where the big-step encoder is (10 R14, 41 R101, log 8). -/
theorem encLoopRefusal_iff_tooLong : ∀ (n : Nat) {s : State} (out : List Byte), s.cfg.WF →
    stepEnabled s .encode = true → s.emission = none → s.scanPos ≤ s.cfg.h →
    s.cfg.h - s.scanPos < n →
    (encLoopRefusal n s = some .durationOverflow ↔ bigRest s out = .tooLong)
  | 0, _, _, _, _, _, _, hn => absurd hn (Nat.not_lt_zero _)
  | n + 1, s, out, hwf, he, hm, hs, hn => by
    rw [bigRest_eq_bigArm hwf hs]
    by_cases hd : durationFits s
    · have hr : encRefusal s = none := encRefusal_eq_none.2 fun _ => ⟨hs, fun _ => hd⟩
      rw [if_pos hd, encLoopRefusal_of_taken n hr, encStepOp_of_new he hm]
      obtain ⟨hq, hmode⟩ := (stepEnabled_iff s .encode).1 he
      cases harm : scanArm s with
      | endOfHalf d =>
        rw [encLoopRefusal_of_disabled (by simp [applyArm, stepEnabled])]
        simp [bigArm]
      | syncLoss d p w =>
        rw [encLoopRefusal_of_disabled (by simp [applyArm, stepEnabled])]
        simp [bigArm]
      | backpressure d =>
        rw [encLoopRefusal_of_disabled (by simp [applyArm, stepEnabled])]
        simp [bigArm]
      | emit bs l p =>
        obtain ⟨rfl, hne, -⟩ := scanArm_emit harm
        have hge := (edgePos_spec hwf hs).1
        have hle := edgePos_le hs
        exact encLoopRefusal_iff_tooLong n (out ++ bs) hwf
          ((stepEnabled_iff _ _).2 ⟨hq, hmode⟩) rfl
          (show edgePos s + 1 ≤ s.cfg.h by omega)
          (show s.cfg.h - (edgePos s + 1) < n by omega)
      | finish bs l => exact absurd harm (scanArm_ne_finish s bs l)
    · rw [if_neg hd, encLoopRefusal_of_refusal n (encRefusal_overflow.2 ⟨he, hs, hm, hd⟩)]
      exact iff_of_true rfl rfl

/-- `ENCODE_HALF` of the half being processed is refused where its first `ENC_STEP` is. -/
theorem execEncodeHalf_of_refusal {s : State} {r : Refusal} (he : stepEnabled s .encode = true)
    (h : encRefusal s = some r) : execEncodeHalf s.curHalf s = .refused r := by
  simp only [execEncodeHalf, he, decide_true, Bool.and_self, if_true,
    encLoopRefusal_of_refusal _ h]

/-- An enabled `DISPATCH` is refused exactly where one of its `ENC_STEP`s is (44 R145). -/
theorem execDispatch_refused_iff {s : State} (he : enterEnabled s = true) (r : Refusal) :
    execDispatch s = .refused r ↔ encLoopRefusal (s.cfg.h + 1) (seqEnterOp s) = some r := by
  simp only [execDispatch, he, if_true]
  cases encLoopRefusal (s.cfg.h + 1) (seqEnterOp s) <;> simp

end Sys2Proof.Machine
end

section
/-! PROOFS. The refusal of a duration that would reach `2^60`. -/

namespace Sys2Proof.Proofs

open Sys2Proof.Machine Sys2Proof.Claims

/-- Where the next scan stops is the position `ENC_STEP` computes (40 R83). -/
theorem edgePos_of_stopAt {s : State} {p : Nat} (hwf : s.cfg.WF) (hs : s.scanPos ≤ s.cfg.h)
    (hp : stopAt s p) : edgePos s = p := by
  rcases hp with ⟨hge, hlt, hquiet, hedge⟩ | ⟨rfl, hquiet⟩
  · exact edgePos_eq hwf hs hge hlt.le hquiet fun _ => hedge
  · exact edgePos_eq hwf hs hs le_rfl hquiet fun hlt => absurd hlt (lt_irrefl _)

theorem encStep_overflow_refused {s : State} (hs : encoding s) (hd : ¬ durationFits s) :
    ∀ i ∈ [Instr.encStep, .seq, .encodeHalf s.curHalf], exec i s = .refused .durationOverflow := by
  obtain ⟨-, hq, hmode, hscan, hm⟩ := hs
  have he : stepEnabled s .encode = true := (stepEnabled_iff _ _).2 ⟨hq, hmode⟩
  have hr : encRefusal s = some .durationOverflow := encRefusal_overflow.2 ⟨he, hscan, hm, hd⟩
  have hout : encStepOutcome s = .refused .durationOverflow := by simp only [encStepOutcome, hr]
  simp [exec, execEncStep, execSeq_of_encode hq, hout, execEncodeHalf_of_refusal he hr]

theorem encStep_exact_of_fits {s : State} (hs : encoding s) (hd : durationFits s) :
    ∃ t, (∀ i ∈ [Instr.encStep, .seq], exec i s = .next t) ∧
      (t.durAcc.toNat = s.durAcc.toNat + (edgePos s - s.scanPos) ∨
        (t.durAcc = 0 ∧ t.scanPos = edgePos s + 1)) := by
  obtain ⟨-, hq, hmode, hscan, hm⟩ := hs
  have he : stepEnabled s .encode = true := (stepEnabled_iff _ _).2 ⟨hq, hmode⟩
  have hr : encRefusal s = none := encRefusal_eq_none.2 fun _ => ⟨hscan, fun _ => hd⟩
  have hout : encStepOutcome s = .next (encStepOp s) := by simp only [encStepOutcome, hr]
  refine ⟨encStepOp s, by simp [exec, execEncStep, execSeq_of_encode hq, hout], ?_⟩
  rcases encStepOp_durAcc he hm with hdur | hrestart
  · rw [hdur]; exact .inl (spanDuration_toNat hd)
  · exact .inr hrestart

theorem dispatch_refused_iff_tooLong {s : State} {half : Half} (hs : Inv s) (hready : ready s)
    (herr : s.err = false)
    (hf : (half = .half0 ∧ s.ht = true) ∨ (half = .half1 ∧ s.ht = false ∧ s.tc = true)) :
    exec .dispatch s = .refused .durationOverflow ↔
      bigEncode s.cfg (halfWords s half) 0
        { out := [], n := s.bytes, level := s.lastValue, dur := s.lastDuration } = .tooLong := by
  obtain ⟨hq, hm, hirq⟩ := hready
  have hflag : s.err = true ∨ s.ht = true ∨ s.tc = true := by
    rcases hf with ⟨-, hht⟩ | ⟨-, -, htc⟩
    · exact .inr (.inl hht)
    · exact .inr (.inr htc)
  have hen : enterEnabled s = true := (enterEnabled_iff s).2 ⟨hq, hm, hirq, hflag⟩
  have hbig : bigRest (enterHalf half s) [] = bigEncode s.cfg (halfWords s half) 0
      { out := [], n := s.bytes, level := s.lastValue, dur := s.lastDuration } := by
    rw [bigRest, enterHalf_scanPos, ← halfWords_eq_wordsFrom]
    rfl
  change execDispatch s = _ ↔ _
  rw [execDispatch_refused_iff hen, seqEnterOp_of_half hen herr hf, ← hbig]
  exact encLoopRefusal_iff_tooLong _ [] hs.wf ((stepEnabled_iff _ _).2 ⟨rfl, rfl⟩)
    (hs.emission_none (by simp [hq])) (Nat.zero_le _) (Nat.lt_succ_self _)

/-- Settles O60: the position named in the statement is the one `ENC_STEP` computes, and a
`DISPATCH` follows the big-step encoder step by step. -/
theorem durationOverflowRefused : Obligations.DurationOverflowRefused := by
  refine ⟨fun s p hs hp => ?_, fun s half hs hready herr hf =>
    dispatch_refused_iff_tooLong hs hready herr hf⟩
  obtain ⟨hwf, -, -, hscan, -⟩ := id hs
  obtain rfl := edgePos_of_stopAt hwf hscan hp
  exact ⟨encStep_overflow_refused hs, encStep_exact_of_fits hs⟩

end Sys2Proof.Proofs
end

section
/-! SUPPORT. The visible writes of one `ENC_STEP` (20_memory.md R49): what `SEQ` and `seqWrite` do with
the emission in progress, and where a new one begins. -/

namespace Sys2Proof.Machine

/-! ### The emission in progress -/

/-- A step begun has passed the check of its duration (log 8). -/
theorem encRefusal_of_emission {s : State} {e : Emission} (hs : s.scanPos ≤ s.cfg.h)
    (hm : s.emission = some e) : encRefusal s = none :=
  encRefusal_eq_none.2 fun _ => ⟨hs, fun hnone => by simp [hm] at hnone⟩

/-- An `ENC_STEP` whose visible writes have begun makes the rest of them (20 R49). -/
theorem encStepOutcome_of_emission {s : State} {e : Emission} (he : stepEnabled s .encode = true)
    (hs : s.scanPos ≤ s.cfg.h) (hm : s.emission = some e) :
    encStepOutcome s = .next (finishEmission e.record e.level s) := by
  simp only [encStepOutcome, encRefusal_of_emission hs hm, encStepOp, he, if_true, encArm, hm, applyArm]

theorem execSeqWrite_of_disabled {s : State} (he : stepEnabled s .encode = false) :
    execSeqWrite s = execSeq s := by
  simp [execSeqWrite, he]

/-- Before the last write of the record one more becomes visible. -/
theorem execSeqWrite_advances {s : State} {e : Emission} (he : stepEnabled s .encode = true)
    (hs : s.scanPos ≤ s.cfg.h) (hm : s.emission = some e) (hl : e.seen ≤ e.record.length) :
    execSeqWrite s = .next (advanceEmission e s) := by
  simp [execSeqWrite, he, encRefusal_of_emission hs hm, hm, hl]

/-- The last write of the record completes the step of SEQ. -/
theorem execSeqWrite_completes {s : State} {e : Emission} (hm : s.emission = some e)
    (hl : e.record.length < e.seen) : execSeqWrite s = execSeq s := by
  rcases execSeqWrite_cases s with ⟨e', -, hm', hl', -⟩ | ⟨_, _, _, -, -, hm', -, -⟩ | hx
  · cases hm.symm.trans hm'
    exact absurd hl' (Nat.not_le.2 hl)
  · simp [hm] at hm'
  · exact hx

/-! ### Where a new emission begins -/

/-- The next `ENC_STEP`, if it is a new one, has an edge, sound reserved bits, space for a record
and a duration in range (41 R91 steps 3 to 6, log 8). -/
def emitsNext (s : State) : Prop :=
  edgePos s ≠ s.cfg.h ∧ ppWord s (halfBase s + edgePos s) &&& s.cfg.reservedMask = 0 ∧
    10 ≤ s.cfg.c - s.bytes ∧ durationFits s

theorem scanArm_of_emitsNext {s : State} (h : emitsNext s) :
    scanArm s = .emit (vencOf (recordValueOf (spanDuration s) s.lastValue))
      (levelOf s.cfg (ppWord s (halfBase s + edgePos s))) (edgePos s) := by
  obtain ⟨hedge, hsync, hspace, -⟩ := h
  simp only [scanArm, if_neg hedge, hsync, ne_eq, not_true_eq_false, if_false,
    if_neg (Nat.not_lt.2 hspace)]

theorem encRefusal_of_emitsNext {s : State} (hs : s.scanPos ≤ s.cfg.h) (h : emitsNext s) :
    encRefusal s = none := by
  obtain ⟨-, -, -, hfits⟩ := h
  exact encRefusal_eq_none.2 fun _ => ⟨hs, fun _ => hfits⟩

/-- A step of SEQ that emits no record is taken whole (20 R49, log 13). -/
theorem execSeqWrite_of_not_emitsNext {s : State} (hm : s.emission = none) (h : ¬ emitsNext s) :
    execSeqWrite s = execSeq s := by
  rcases execSeqWrite_cases s with ⟨_, -, hm', -, -⟩ | ⟨bs, l, p, he, hr, -, ha, -⟩ | hx
  · simp [hm] at hm'
  · obtain ⟨-, hedge, hsync, hspace, -, -⟩ := scanArm_emit ha
    exact absurd ⟨hedge, hsync, hspace, (encRefusal_eq_none.1 hr he).2 hm⟩ h
  · exact hx

end Sys2Proof.Machine
end

section
/-! SUPPORT. The record of an edge as the statements name it (41_run_length_encoder.md R91, R94): the
first of its visible writes, and the whole `ENC_STEP`. -/

namespace Sys2Proof.Proofs

open Sys2Proof.Machine Sys2Proof.Claims

theorem ebStored_of_writeList {s t : State} {a0 : Nat} {bs : List Byte}
    (h : t.eb = Memory.writeList s.eb a0 bs) : ebStored s t a0 bs := fun a => by
  rw [h]; exact Memory.read_writeList bs s.eb a0 a

theorem elapsed_edgePos (s : State) : elapsed s (edgePos s) = spanDuration s := by
  simp [elapsed, spanDuration, BitVec.ofNat_add]

theorem recordOf_eq_vencOf (d : Duration) (l : Level) :
    recordOf d l = vencOf (recordValueOf d l) := by
  rw [recordOf, ← recordValueOf_toNat, BitVec.ofNat_toNat, BitVec.setWidth_eq]

theorem emitsNext_iff_of_edgeAt {s : State} {p : Nat} (hwf : s.cfg.WF) (hs : s.scanPos ≤ s.cfg.h)
    (hp : edgeAt s p) : emitsNext s ↔
      word s p &&& s.cfg.reservedMask = 0 ∧ s.bytes + 10 ≤ s.cfg.c ∧ fits s p := by
  obtain ⟨-, hlt, -, -⟩ := id hp
  obtain rfl := edgePos_of_stopAt hwf hs (.inl hp)
  have hspace : 10 ≤ s.cfg.c - s.bytes ↔ s.bytes + 10 ≤ s.cfg.c := by omega
  rw [← hspace]
  exact and_iff_right hlt.ne

theorem not_emitsNext_of_quiet {s : State} (hwf : s.cfg.WF) (hs : s.scanPos ≤ s.cfg.h)
    (hquiet : quietSpan s s.scanPos s.cfg.h) : ¬ emitsNext s := fun h =>
  h.1 (edgePos_of_stopAt hwf hs (.inr ⟨rfl, hquiet⟩))

/-- The state after the first visible write of the record of the edge at `p` (20 R49). -/
def recordBegun (s : State) (p : Nat) : State :=
  startEmission (recordOf (elapsed s p) s.lastValue) (levelOf s.cfg (word s p)) p s

/-- The state after all the visible writes of the record of the edge at `p` (41 R94). -/
def recordDone (s : State) (p : Nat) : State :=
  finishEmission (recordOf (elapsed s p) s.lastValue) (levelOf s.cfg (word s p)) (recordBegun s p)

theorem scanArm_of_edgeAt {s : State} {p : Nat} (hwf : s.cfg.WF) (hs : s.scanPos ≤ s.cfg.h)
    (hp : edgeAt s p) (hemit : emitsNext s) :
    scanArm s = .emit (recordOf (elapsed s p) s.lastValue) (levelOf s.cfg (word s p)) p := by
  obtain rfl := edgePos_of_stopAt hwf hs (.inl hp)
  rw [scanArm_of_emitsNext hemit, elapsed_edgePos, recordOf_eq_vencOf]
  rfl

theorem execSeqWrite_begins {s : State} {p : Nat} (hs : encoding s) (hp : edgeAt s p)
    (hemit : emitsNext s) : execSeqWrite s = .next (recordBegun s p) := by
  obtain ⟨hwf, hq, hmode, hscan, hm⟩ := hs
  simp [execSeqWrite, hq, hmode, encRefusal_of_emitsNext hscan hemit, hm,
    scanArm_of_edgeAt hwf hscan hp hemit, recordBegun]

theorem exec_encStep_emits {s : State} {p : Nat} (hs : encoding s) (hp : edgeAt s p)
    (hemit : emitsNext s) : exec .encStep s = .next (recordDone s p) := by
  obtain ⟨hwf, hq, hmode, hscan, hm⟩ := hs
  have he : stepEnabled s .encode = true := (stepEnabled_iff _ _).2 ⟨hq, hmode⟩
  change encStepOutcome s = _
  simp only [encStepOutcome, encRefusal_of_emitsNext hscan hemit, encStepOp_of_new he hm,
    scanArm_of_edgeAt hwf hscan hp hemit, applyArm, recordDone, recordBegun]

end Sys2Proof.Proofs
end

section
/-! PROOFS. A visible write of SEQ, and the completion of an `ENC_STEP` whose writes have begun. -/

namespace Sys2Proof.Proofs

open Sys2Proof.Machine Sys2Proof.Claims

/-- Settles O57. -/
theorem encStepFinishesEmission : Obligations.EncStepFinishesEmission := by
  intro s e hm hq hmode hscan
  have hout : encStepOutcome s = .next (finishEmission e.record e.level s) :=
    encStepOutcome_of_emission ((stepEnabled_iff _ _).2 ⟨hq, hmode⟩) hscan hm
  refine ⟨finishEmission e.record e.level s, rfl, ebStored_of_writeList rfl, ?_⟩
  simp [exec, execEncStep, execSeq_of_encode hq, hout]

theorem step_of_seqWrite {s : State} {rest : List Fetch} (h : s.stimulus = .seqWrite :: rest) :
    step s = execSeqWrite (taking s rest) := by
  simp only [step, h]
  rfl

/-- Settles O5: the premises read no field that taking the stimulus item writes, so they hold of
the state in which it runs. -/
theorem seqWriteMakesOneVisibleWrite : Obligations.SeqWriteMakesOneVisibleWrite := by
  intro s rest hstim
  rw [step_of_seqWrite hstim]
  refine ⟨fun hoff => ?disabled, fun hq hmode hscan =>
    ⟨fun e hm => ⟨fun hl => ?advances, fun hl => ?completes⟩,
     fun hwf hm => ⟨fun hquiet => ?noEdge, fun p hp =>
       ⟨fun hno => ?noRecord, fun hsync hspace hfit => ?begins⟩⟩⟩⟩
  case disabled =>
    refine execSeqWrite_of_disabled ?_
    rw [Bool.eq_false_iff, ne_eq, stepEnabled_iff]
    exact not_and_or.2 hoff
  case advances => exact execSeqWrite_advances ((stepEnabled_iff _ _).2 ⟨hq, hmode⟩) hscan hm hl
  case completes => exact execSeqWrite_completes hm hl
  case noEdge =>
    exact execSeqWrite_of_not_emitsNext hm
      (not_emitsNext_of_quiet (s := taking s rest) hwf hscan hquiet)
  case noRecord =>
    refine execSeqWrite_of_not_emitsNext hm fun hemit => ?_
    obtain ⟨hsync, hspace, hfit⟩ :=
      (emitsNext_iff_of_edgeAt (s := taking s rest) hwf hscan hp).1 hemit
    rcases hno with hbad | hfull | hlong
    · exact hbad hsync
    · exact absurd hspace (Nat.not_le.2 hfull)
    · exact hlong hfit
  case begins =>
    exact execSeqWrite_begins (s := taking s rest) ⟨hwf, hq, hmode, hscan, hm⟩ hp
      ((emitsNext_iff_of_edgeAt (s := taking s rest) hwf hscan hp).2 ⟨hsync, hspace, hfit⟩)

end Sys2Proof.Proofs
end

section
/-! SUPPORT. What HOST reads of `EB` while the writes of a record become visible (20_memory.md R49,
R50, R56): the valid bytes are only ever extended. -/

namespace Sys2Proof.Machine

/-- `bytes` of `t` is not below that of `s`, and the valid bytes of `s` read the same in `t`
(20 R56 items 1 and 2). -/
def ExtendsBytes (s t : State) : Prop :=
  s.bytes ≤ t.bytes ∧ ∀ a, a < s.bytes → ebByte t a = ebByte s a

theorem ExtendsBytes.refl (s : State) : ExtendsBytes s s := ⟨le_rfl, fun _ _ => rfl⟩

theorem ExtendsBytes.trans {s t u : State} (h : ExtendsBytes s t) (h' : ExtendsBytes t u) :
    ExtendsBytes s u :=
  ⟨h.1.trans h'.1, fun a ha => (h'.2 a (ha.trans_le h.1)).trans (h.2 a ha)⟩

/-- Bytes written at `bytes` and above leave the valid bytes alone (42 R113). -/
theorem extendsBytes_of_writeList {s t : State} {bs : List Byte}
    (heb : t.eb = Memory.writeList s.eb s.bytes bs) (hep : t.epoch = s.epoch)
    (hb : s.bytes ≤ t.bytes) : ExtendsBytes s t := by
  refine ⟨hb, fun a ha => ?_⟩
  rw [ebByte_of_lt ha, ebByte_of_lt (ha.trans_le hb), heb, Memory.read_writeList,
    if_neg (by omega), hep]

/-- HOST's view of a state with the same `EB`, `bytes` and emission is the same in what `RDEB`
reads. -/
theorem extendsBytes_hostView_of_eq {s t : State} (hm : t.emission = s.emission)
    (heb : t.eb = s.eb) (hb : t.bytes = s.bytes) (hep : t.epoch = s.epoch) :
    ExtendsBytes (hostView s) (hostView t) := by
  have hbytes : (hostView t).bytes = (hostView s).bytes := by
    simp only [hostView, hm, hb]
    split
    · exact hb
    · rfl
  have hmem : (hostView t).eb = (hostView s).eb := by
    simp only [hostView, hm, heb, hb]
    split
    · exact heb
    · rfl
  refine extendsBytes_of_writeList (bs := []) hmem ?_ hbytes.ge
  rw [hostView_epoch, hostView_epoch, hep]

/-- The writes of a record that HOST has seen leave the valid bytes alone. -/
theorem extendsBytes_hostView (s : State) : ExtendsBytes s (hostView s) := by
  cases hm : s.emission with
  | none => rw [hostView_none hm]; exact .refl s
  | some e =>
    rw [hostView_some hm]
    refine extendsBytes_of_writeList rfl rfl ?_
    simp only
    split <;> omega

/-- Until `bytes` is written HOST reads the old `bytes` (20 R49). -/
theorem hostView_bytes_of_seen_le {s : State} {e : Emission} (hm : s.emission = some e)
    (hl : e.seen ≤ e.record.length) : (hostView s).bytes = s.bytes := by
  rw [hostView_bytes_of_some hm, if_neg (Nat.not_lt.2 hl)]

theorem hostView_extendsBytes_of_seen_le {s : State} {e : Emission} (hm : s.emission = some e)
    (hl : e.seen ≤ e.record.length) : ExtendsBytes (hostView s) s := by
  have hb := hostView_bytes_of_seen_le hm hl
  exact ⟨hb.le, fun a ha => ((extendsBytes_hostView s).2 a (hb ▸ ha)).symm⟩

/-- Once `bytes` is written HOST sees the whole record appended (20 R49). -/
theorem hostView_of_seen_gt {s : State} {e : Emission} (hm : s.emission = some e)
    (hl : e.record.length < e.seen) : hostView s = appendBytes e.record s := by
  rw [hostView_some hm, if_pos hl, List.take_of_length_le hl.le]
  rfl

/-- What HOST sees of a record is kept when the record is completed (20 R49). -/
theorem hostView_extendsBytes_finishEmission {s : State} {e : Emission}
    (hm : s.emission = some e) : ExtendsBytes (hostView s) (finishEmission e.record e.level s) := by
  rcases Nat.lt_or_ge e.record.length e.seen with hl | hl
  · rw [hostView_of_seen_gt hm hl]
    exact .refl _
  · exact (hostView_extendsBytes_of_seen_le hm hl).trans
      (extendsBytes_of_writeList rfl rfl (Nat.le_add_right _ _))

/-- Every arm of `ENC_STEP` only extends what HOST reads (41 R91, 20 R56). -/
theorem extendsBytes_encStepOp {s : State} (he : stepEnabled s .encode = true) :
    ExtendsBytes (hostView s) (hostView (encStepOp s)) := by
  rcases encStepOp_cases he with ⟨-, -, hop⟩ | ⟨-, -, -, hop⟩ | ⟨-, -, -, -, hop⟩ |
    ⟨bs, l, hnone, -, hop⟩ | ⟨e, hsome, hop⟩
  case inl => rw [hop]; exact extendsBytes_hostView_of_eq rfl rfl rfl rfl
  case inr.inl => rw [hop]; exact extendsBytes_hostView_of_eq rfl rfl rfl rfl
  case inr.inr.inl => rw [hop]; exact extendsBytes_hostView_of_eq rfl rfl rfl rfl
  case inr.inr.inr.inl =>
    rw [hop, hostView_none hnone, hostView_none rfl]
    exact extendsBytes_of_writeList rfl rfl (Nat.le_add_right _ _)
  case inr.inr.inr.inr =>
    rw [hop, hostView_none (s := finishEmission e.record e.level s) rfl]
    exact hostView_extendsBytes_finishEmission hsome

/-- Every effect within a session only extends what HOST reads (20 R56 items 1 and 2). -/
theorem Work.extendsBytes {s t : State} (h : Work s t) :
    ExtendsBytes (hostView s) (hostView t) := by
  cases h with
  | encode he _ => exact extendsBytes_encStepOp he
  | start bs l p _ _ hm _ =>
    rw [hostView_none hm]
    exact extendsBytes_hostView (startEmission bs l p s)
  | advance e _ hm hl =>
    exact (hostView_extendsBytes_of_seen_le hm hl).trans
      (extendsBytes_hostView (advanceEmission e s))
  | clear _ =>
    exact extendsBytes_hostView_of_eq (clearFlag_emission _ _) (clearFlag_eb _ _)
      (clearFlag_bytes _ _) (clearFlag_epoch _ _)
  | _ => exact extendsBytes_hostView_of_eq rfl rfl rfl rfl

/-- Whatever write of a record HOST reads after, the valid bytes are whole records (10 R37 item 9,
20 R49). -/
theorem Inv.hostView_recordsWhole {s : State} (h : Inv s) :
    (parseOf (ebData (hostView s)) (hostView s).bytes).isSome = true := by
  cases hm : s.emission with
  | none => rw [hostView_none hm]; exact h.recordsWhole
  | some e =>
    rcases Nat.lt_or_ge e.record.length e.seen with hl | hl
    · rw [hostView_of_seen_gt hm hl]
      exact (h.finishEmission hm).recordsWhole
    · have hb := hostView_bytes_of_seen_le hm hl
      have hdata : ebData (hostView s) = ebData s := by
        rw [ebData, ebData, hb]
        exact List.map_congr_left fun a ha =>
          (extendsBytes_hostView s).2 a (List.mem_range.1 ha)
      rw [hdata, hb]
      exact h.recordsWhole

end Sys2Proof.Machine
end

section
/-! PROOFS. What HOST reads of `EB`: whole records whose valid bytes never change. -/

namespace Sys2Proof.Proofs

open Sys2Proof.Machine Sys2Proof.Claims

/-- Settles O50: each effect within a session only extends what HOST reads, and so does the taking
of the stimulus item. -/
theorem validBytesNeverChange : Obligations.ValidBytesNeverChange := by
  intro s t f rest _ hstim harm hreset hstep
  have htaken : ExtendsBytes (hostView s) (hostView (s.taken rest)) :=
    extendsBytes_hostView_of_eq rfl rfl rfl rfl
  have hworks : Works (s.taken rest) t := works_step hstim harm hreset hstep
  exact works_keep (P := fun u => ExtendsBytes (hostView s) (hostView u))
    (fun _ _ hw h => h.trans hw.extendsBytes) htaken hworks

/-- Settles O52. -/
theorem viewsHoldWholeRecords : Obligations.ViewsHoldWholeRecords := by
  intro s hs
  refine ⟨hs.hostView_recordsWhole, (extendsBytes_hostView s).2, hostView_none, fun e hm => ?_⟩
  obtain ⟨hq, hmode, -⟩ := hs.emitting e hm
  refine ⟨finishEmission e.record e.level s,
    encStepOutcome_of_emission ((stepEnabled_iff _ _).2 ⟨hq, hmode⟩) hs.scanLe hm, ?_,
    fun a ha => ((hostView_extendsBytes_finishEmission hm).2 a ha).symm⟩
  rcases Nat.lt_or_ge e.record.length e.seen with hl | hl
  · rw [hostView_of_seen_gt hm hl]; exact .inr rfl
  · exact .inl (hostView_bytes_of_seen_le hm hl)

end Sys2Proof.Proofs
end

section
/-! SUPPORT. The quiet modes (20_memory.md R55): no step of SEQ is enabled, and only the DMA's registers
may change. -/

namespace Sys2Proof.Machine

theorem Quiet.mode_ne {s : State} (h : Quiet s) : s.mode ≠ .armed ∧ s.mode ≠ .running := by
  rcases h with h | h | h <;> simp [h]

theorem Quiet.enterEnabled_ne {s : State} (h : Quiet s) : enterEnabled s ≠ true := fun he => by
  obtain ⟨-, hm, -, -⟩ := (enterEnabled_iff s).1 he
  exact hm.elim h.mode_ne.1 h.mode_ne.2

theorem Quiet.stepEnabled_ne {s : State} (h : Quiet s) (q : SeqState) : stepEnabled s q ≠ true :=
  fun he => h.mode_ne.2 ((stepEnabled_iff s q).1 he).2

/-- The DMA steps in no other quiet mode than SUSPENDED (43 R128, R130). -/
theorem Quiet.suspended_of_samples {s : State} (h : Quiet s) (hm : modeSamples s.mode = true) :
    s.mode = .suspended := by
  rcases (modeSamples_iff _).1 hm with hm | hm | hm
  · exact absurd hm h.mode_ne.1
  · exact absurd hm h.mode_ne.2
  · exact hm

/-- `t` is `s` but for what is put out and, in SUSPENDED, what the DMA writes (43 R128, R130). -/
def DmaOnly (s t : State) : Prop :=
  t = { s with out := t.out, pp := t.pp, wrPtr := t.wrPtr, syncOut := t.syncOut, ht := t.ht,
               tc := t.tc, err := t.err } ∧
  (s.mode ≠ .suspended → t.ht = s.ht ∧ t.tc = s.tc ∧ t.err = s.err ∧ t.syncOut = s.syncOut)

theorem DmaOnly.refl (s : State) : DmaOnly s s := ⟨rfl, fun _ => ⟨rfl, rfl, rfl, rfl⟩⟩

theorem DmaOnly.mode_eq {s t : State} (h : DmaOnly s t) : t.mode = s.mode := by
  rw [h.1]

theorem DmaOnly.trans {s t u : State} (h : DmaOnly s t) (h' : DmaOnly t u) : DmaOnly s u := by
  refine ⟨h'.1.trans (by rw [h.1]), fun hm => ?_⟩
  obtain ⟨hht, htc, herr, hsync⟩ := h.2 hm
  obtain ⟨hht', htc', herr', hsync'⟩ := h'.2 (h.mode_eq ▸ hm)
  exact ⟨hht'.trans hht, htc'.trans htc, herr'.trans herr, hsync'.trans hsync⟩

/-- In a quiet mode the only effects are those of the DMA and the answers (20 R55). -/
theorem Work.dmaOnly {s t : State} (hq : Quiet s) (h : Work s t) : DmaOnly s t := by
  cases h with
  | answer a => exact ⟨rfl, fun _ => ⟨rfl, rfl, rfl, rfl⟩⟩
  | sample w hm _ _ => exact ⟨rfl, fun hne => absurd (hq.suspended_of_samples hm) hne⟩
  | dmaerr hm => exact ⟨rfl, fun hne => absurd (hq.suspended_of_samples hm) hne⟩
  | dmaFatal he _ => exact absurd he hq.enterEnabled_ne
  | enter half he _ _ _ => exact absurd he hq.enterEnabled_ne
  | encode he _ => exact absurd he (hq.stepEnabled_ne _)
  | start _ _ _ he _ _ _ => exact absurd he (hq.stepEnabled_ne _)
  | advance _ he _ _ => exact absurd he (hq.stepEnabled_ne _)
  | clear he => exact absurd he (hq.stepEnabled_ne _)
  | finish he _ => exact absurd he (hq.stepEnabled_ne _)
  | overrun he _ => exact absurd he (hq.stepEnabled_ne _)

/-- A quiet mode lasts until `ARM` or `RESET`. -/
theorem Works.dmaOnly {s t : State} (hq : Quiet s) (h : Works s t) : DmaOnly s t := by
  refine works_keep (P := fun u => DmaOnly s u) (fun u v hw hu => ?_) (.refl s) h
  have hqu : Quiet u := by unfold Quiet; rw [hu.mode_eq]; exact hq
  exact hu.trans (hw.dmaOnly hqu)

theorem Inv.emission_none_of_quiet {s : State} (h : Inv s) (hq : Quiet s) : s.emission = none :=
  Option.eq_none_iff_forall_ne_some.2 fun e he => hq.mode_ne.2 (h.emitting e he).2.1

end Sys2Proof.Machine
end

section
/-! PROOFS. The quiet modes. -/

namespace Sys2Proof.Proofs

open Sys2Proof.Machine Sys2Proof.Claims

/-- Settles O51: in a quiet mode the DMA alone writes, and no record is becoming visible. -/
theorem quietModesKeepHostFields : Obligations.QuietModesKeepHostFields := by
  intro s t f rest hs hq hstim harm hreset hstep
  have hworks : Works (s.taken rest) t := works_step hstim harm hreset hstep
  have hqt : Quiet (s.taken rest) := hq
  obtain ⟨hrest, hflags⟩ := hworks.dmaOnly hqt
  have hm : s.emission = none := hs.emission_none_of_quiet hq
  have hmt : t.emission = none := by rw [hrest]; exact hm
  refine ⟨hostView_none hm, hostView_none hmt, ?_⟩
  rw [hrest]
  exact ⟨rfl, rfl, rfl, rfl, rfl, rfl, rfl, rfl, rfl, rfl, hflags⟩

end Sys2Proof.Proofs
end

section
/-! PROOFS. The visible writes of a record, one after the other (20_memory.md R49). -/

namespace Sys2Proof.Proofs

open Sys2Proof.Machine Sys2Proof.Claims

theorem seqWrites_of_next {s t : State} (h : execSeqWrite { s with out := .none } = .next t)
    (n : Nat) : seqWrites (n + 1) s = seqWrites n t := by
  have hstep : step { s with stimulus := .seqWrite :: s.stimulus } = .next t :=
    (step_of_seqWrite rfl).trans h
  simp only [seqWrites, hstep]

theorem seqWrites_add (m n : Nat) : ∀ s : State,
    seqWrites (m + n) s = (seqWrites m s).bind (seqWrites n) := by
  induction m with
  | zero => intro s; rw [Nat.zero_add]; rfl
  | succ m ih =>
    intro s
    rw [Nat.add_right_comm]
    simp only [seqWrites]
    cases step { s with stimulus := .seqWrite :: s.stimulus } with
    | next t => exact ih t
    | fault _ => rfl
    | refused _ => rfl

/-- `n` further writes of the record in progress, none of them the last. -/
theorem seqWrites_of_emission : ∀ (n : Nat) {s : State} {e : Emission},
    stepEnabled s .encode = true → s.scanPos ≤ s.cfg.h → s.out = .none → s.emission = some e →
    e.seen + n ≤ e.record.length + 1 →
    seqWrites n s = some { s with emission := some { e with seen := e.seen + n } }
  | 0, s, e, _, _, _, hm, _ => by
    change some s = some { s with emission := some e }
    rw [← hm]
  | n + 1, s, e, he, hs, ho, hm, hn => by
    have hclean : { s with out := .none } = s := by rw [← ho]
    have hnext : execSeqWrite { s with out := .none } = .next (advanceEmission e s) := by
      rw [hclean]; exact execSeqWrite_advances he hs hm (by omega)
    rw [seqWrites_of_next hnext, seqWrites_of_emission n (s := advanceEmission e s)
      he hs ho rfl (by simp only; omega), Nat.add_right_comm e.seen 1 n]
    rfl

/-- The state after `k` visible writes of the record of the edge at `p`, the last not among them:
`ENC_STEP` begun, with nothing put out. -/
def recordSeen (s : State) (p k : Nat) : State :=
  { recordBegun s p with
    out := .none
    emission := some {
      record := recordOf (elapsed s p) s.lastValue
      level := levelOf s.cfg (word s p)
      seen := k } }

section
variable {s : State} {p : Nat}

theorem seqWrites_eq_recordSeen (hs : encoding s) (hp : edgeAt s p) (hemit : emitsNext s) {k : Nat}
    (h1 : 1 ≤ k) (hk : k ≤ (recordOf (elapsed s p) s.lastValue).length + 1) :
    seqWrites k s = some (recordSeen s p k) := by
  obtain ⟨n, rfl⟩ := Nat.exists_eq_add_of_le' h1
  obtain ⟨hwf, hq, hmode, hscan, -⟩ := id hs
  obtain ⟨-, hlt, -, -⟩ := id hp
  have hemit' : emitsNext { s with out := .none } :=
    (emitsNext_iff_of_edgeAt (s := { s with out := .none }) hwf hscan hp).2
      ((emitsNext_iff_of_edgeAt hwf hscan hp).1 hemit)
  have hfirst : execSeqWrite { s with out := .none } = .next (recordSeen s p 1) :=
    execSeqWrite_begins (s := { s with out := .none }) hs hp hemit'
  have hrest : seqWrites n (recordSeen s p 1) = some (recordSeen s p (1 + n)) :=
    seqWrites_of_emission n (s := recordSeen s p 1) ((stepEnabled_iff _ _).2 ⟨hq, hmode⟩) hlt
      rfl rfl (by simp only; omega)
  rw [seqWrites_of_next hfirst, hrest, Nat.add_comm n 1]

theorem seqWrite_last (hs : encoding s) (hp : edgeAt s p) :
    seqWrites 1 (recordSeen s p ((recordOf (elapsed s p) s.lastValue).length + 1)) =
      some { recordDone s p with out := .none } := by
  obtain ⟨-, hq, hmode, -, -⟩ := hs
  obtain ⟨-, hlt, -, -⟩ := hp
  generalize hk : (recordOf (elapsed s p) s.lastValue).length + 1 = k
  have hlast : execSeqWrite (recordSeen s p k) = .next { recordDone s p with out := .none } :=
    calc execSeqWrite (recordSeen s p k)
      _ = execSeq (recordSeen s p k) := execSeqWrite_completes rfl (hk ▸ Nat.lt_succ_self _)
      _ = encStepOutcome (recordSeen s p k) := execSeq_of_encode hq
      _ = _ := encStepOutcome_of_emission ((stepEnabled_iff _ _).2 ⟨hq, hmode⟩) hlt rfl
  exact seqWrites_of_next hlast 0

end

/-- Settles O56: `k` writes lead to `recordSeen`, whose view HOST reads, and the last write from
there to the state of `ENC_STEP`. -/
theorem visibleWritesMakeUpStep : Obligations.VisibleWritesMakeUpStep := by
  intro s p hs hp hfit hsync hspace
  obtain ⟨hwf, -, -, hscan, -⟩ := id hs
  have hemit : emitsNext s := (emitsNext_iff_of_edgeAt hwf hscan hp).2 ⟨hsync, hspace, hfit⟩
  refine ⟨fun k h1 hk => ?_, recordDone s p, exec_encStep_emits hs hp hemit, ?_⟩
  · refine ⟨recordSeen s p k, seqWrites_eq_recordSeen hs hp hemit h1 hk,
      hostView_bytes_of_some (s := recordSeen s p k) rfl, hostView_lastValue _, hostView_lastDuration _,
      ebStored_of_writeList ?_⟩
    rw [hostView_some (s := recordSeen s p k) rfl]
    rfl
  · rw [← Nat.add_assoc _ 1 1, seqWrites_add,
      seqWrites_eq_recordSeen hs hp hemit (Nat.le_add_left _ _) le_rfl]
    exact seqWrite_last hs hp

end Sys2Proof.Proofs
end

section
/-! SUPPORT. Event words and record rows (30_encoding.md R71, R65, R66): what the encoder writes, field
by field, is what the decoder reads. -/

namespace Sys2Proof.Machine

open Sys2Proof.Claims

/-! ### Event words -/

theorem eventOp_eq_mod (e : Nat) : e &&& 0xF = e % 16 := Nat.and_two_pow_sub_one_eq_mod e 4

theorem eventOp_lt (e : Nat) : e &&& 0xF < 16 := by
  rw [eventOp_eq_mod]
  omega

/-- The fields of an event word lie side by side (30 R71). -/
theorem eventWord_eq_add {op : Nat} (arg : Nat) (hop : op < 16) :
    (arg <<< 4) ||| op = 16 * arg + op := by
  rw [← Nat.shiftLeft_add_eq_or_of_lt hop, Nat.shiftLeft_eq]
  omega

theorem eventWord_op {op : Nat} (arg : Nat) (hop : op < 16) :
    ((arg <<< 4) ||| op) &&& 0xF = op := by
  rw [eventWord_eq_add arg hop, eventOp_eq_mod]
  omega

theorem eventWord_arg {op : Nat} (arg : Nat) (hop : op < 16) :
    ((arg <<< 4) ||| op) >>> 4 = arg := by
  rw [eventWord_eq_add arg hop, Nat.shiftRight_eq_div_pow]
  omega

/-- An event word has no bits beside `op` and `arg`. -/
theorem encodeEvent_of_fields {e op arg : Nat} (hop : e &&& 0xF = op) (harg : e >>> 4 = arg) :
    encodeEvent op arg = .event e := by
  rw [encodeEvent, eventWord_eq_add arg (hop ▸ eventOp_lt e), ← hop, ← harg, eventOp_eq_mod,
    Nat.shiftRight_eq_div_pow]
  congr 1
  omega

/-! ### Record rows -/

theorem toNat_lt_groups (k : Nat) (v : BitVec (7 * k)) : v.toNat < 128 ^ k := by
  have hpow : (128 : Nat) ^ k = 2 ^ (7 * k) := by rw [Nat.pow_mul]
  exact hpow ▸ v.isLt

/-- The record rows, each with its number of bytes and the value it carries (30 R65, R66). -/
inductive RecordRow : Instr → Nat → Nat → Prop where
  | rec1 (v : BitVec 7) : RecordRow (.rec1 v) 1 v.toNat
  | rec2 (v : BitVec 14) : RecordRow (.rec2 v) 2 v.toNat
  | rec3 (v : BitVec 21) : RecordRow (.rec3 v) 3 v.toNat
  | rec4 (v : BitVec 28) : RecordRow (.rec4 v) 4 v.toNat
  | rec5 (v : BitVec 35) : RecordRow (.rec5 v) 5 v.toNat
  | rec6 (v : BitVec 42) : RecordRow (.rec6 v) 6 v.toNat
  | rec7 (v : BitVec 49) : RecordRow (.rec7 v) 7 v.toNat
  | rec8 (v : BitVec 56) : RecordRow (.rec8 v) 8 v.toNat
  | rec9 (v : BitVec 63) : RecordRow (.rec9 v) 9 v.toNat
  | rec10 (v : BitVec 63) : RecordRow (.rec10 v) 10 (2 ^ 63 + v.toNat)

theorem recordRow_of_value {i : Instr} {v : Nat} (h : recordRowValue i = some v) :
    ∃ k, RecordRow i k v := by
  cases i <;> cases h
  exacts [⟨_, .rec1 _⟩, ⟨_, .rec2 _⟩, ⟨_, .rec3 _⟩, ⟨_, .rec4 _⟩, ⟨_, .rec5 _⟩, ⟨_, .rec6 _⟩,
    ⟨_, .rec7 _⟩, ⟨_, .rec8 _⟩, ⟨_, .rec9 _⟩, ⟨_, .rec10 _⟩]

/-- Every value that `k` groups hold is carried by the row of `k` bytes; a tenth group is 1. -/
theorem exists_recordRow {k v : Nat} (hk : 1 ≤ k) (hk10 : k ≤ 10) (hlt : v < 128 ^ k)
    (h64 : v < 2 ^ 64) (htop : k = 10 → 2 ^ 63 ≤ v) : ∃ i, RecordRow i k v := by
  rcases Nat.lt_or_ge k 10 with h9 | h10
  · obtain ⟨w, rfl⟩ : ∃ w : BitVec (7 * k), w.toNat = v :=
      ⟨BitVec.ofNat _ v, by rw [BitVec.toNat_ofNat, Nat.pow_mul, Nat.mod_eq_of_lt hlt]⟩
    interval_cases k
    exacts [⟨_, .rec1 w⟩, ⟨_, .rec2 w⟩, ⟨_, .rec3 w⟩, ⟨_, .rec4 w⟩, ⟨_, .rec5 w⟩, ⟨_, .rec6 w⟩,
      ⟨_, .rec7 w⟩, ⟨_, .rec8 w⟩, ⟨_, .rec9 w⟩]
  · obtain rfl : k = 10 := by omega
    have hge := htop rfl
    obtain ⟨w, rfl⟩ : ∃ w : BitVec 63, 2 ^ 63 + w.toNat = v :=
      ⟨BitVec.ofNat _ (v - 2 ^ 63), by rw [BitVec.toNat_ofNat]; omega⟩
    exact ⟨_, .rec10 w⟩

section
variable {i : Instr} {k v : Nat}

theorem RecordRow.bounds (h : RecordRow i k v) :
    1 ≤ k ∧ k ≤ 10 ∧ v < 128 ^ k ∧ v < 2 ^ 64 := by
  cases h <;> refine ⟨by decide, by decide, ?_, ?_⟩ <;> omega

theorem RecordRow.encode_eq (h : RecordRow i k v) : encode i = .record (recordBytes k v) := by
  cases h <;> rfl

theorem RecordRow.exec_eq (h : RecordRow i k v) (s : State) : exec i s = readRecord k v s := by
  cases h <;> rfl

/-- A row is well-formed when its top group is needed: minimum length (30 R66). -/
theorem RecordRow.wf_iff (h : RecordRow i k v) (c : Config) :
    i.wf c = true ↔ k = 1 ∨ 128 ^ (k - 1) ≤ v := by
  cases h <;> simp [Instr.wf]

/-- The bytes of a row have its length, shape and value, and so decode to it. -/
theorem RecordRow.decodeRecord_eq (h : RecordRow i k v) :
    decodeRecord (recordBytes k v) = .ok i := by
  obtain ⟨hpos, -, hlt, -⟩ := h.bounds
  simp only [decodeRecord, recordShape_recordBytes k v hpos, recordBytes_length,
    recordValue_recordBytes k v hlt, if_true]
  cases h with
  | rec10 w =>
    have htop : (2 ^ 63 + w.toNat) / 2 ^ 63 = 1 := by omega
    have hlow : BitVec.ofNat 63 (2 ^ 63 + w.toNat) = w := by
      apply BitVec.eq_of_toNat_eq
      rw [BitVec.toNat_ofNat, Nat.add_mod_left, Nat.mod_eq_of_lt w.isLt]
    simp only [htop, hlow, if_true]
  | _ => simp only [BitVec.ofNat_toNat, BitVec.setWidth_eq]

end

end Sys2Proof.Machine
end

section
/-! PROOFS. Encoder and decoder. -/

namespace Sys2Proof.Proofs

open Sys2Proof.Machine Sys2Proof.Claims

/-- The rows that an event word encodes (30 R71). -/
theorem decode_encode_event {op : Nat} {i : Instr} (arg : Nat) (hop : op < 16)
    (henc : encode i = encodeEvent op arg)
    (hdec : ∀ e, e &&& 0xF = op → e >>> 4 = arg → decodeEvent e = .ok i) :
    decode (encode i) = .ok i := by
  rw [henc]
  exact hdec _ (eventWord_op arg hop) (eventWord_arg arg hop)

theorem decode_encode_record {i : Instr} {v : Nat} (h : recordRowValue i = some v) :
    decode (encode i) = .ok i := by
  obtain ⟨k, hrow⟩ := recordRow_of_value h
  rw [hrow.encode_eq]
  exact hrow.decodeRecord_eq

/-- Settles O6, by the kind of the row: the fields of an event word and the bytes of a record are
read as they were written, each key selects its row, and a call is its own encoding. -/
theorem decodeEncodeAgree : Obligations.DecodeEncodeAgree := by
  intro i hi
  cases i
  case nop | arm | smp | dmaerr | seq | rd | rdeb | reset | reservedEv8 | reservedEv9
      | reservedEv10 | reservedEv11 | reservedEv12 | reservedEv13 | reservedEv14 | reservedEv15 =>
    exact decode_encode_event _ (by decide) rfl fun e hop harg => by
      simp only [decodeEvent, hop, harg, if_true]
  case dispErr | dispHalf | dispFull | seqNone | encStep | seqClear | seqCheck => rfl
  case scan | level | deposit | vlen | venc | vdec | parse | encodeHalf | seqEnter | dispatch => rfl
  case ebappend | throttle | fatal => cases hi
  case rec1 | rec2 | rec3 | rec4 | rec5 | rec6 | rec7 | rec8 | rec9 | rec10 =>
    exact decode_encode_record rfl

/-- Settles O7: the decoder takes each field of the word into the operand or checks that it is 0. -/
theorem encodeDecodeEventWord : Obligations.EncodeDecodeEventWord := by
  intro e i h
  have hlt := eventOp_lt e
  simp only [decodeEvent] at h
  split at h
  case h_1 hop | h_2 hop | h_4 hop | h_5 hop | h_8 hop =>
    split at h
    case isTrue harg => cases h; exact encodeEvent_of_fields hop harg
    case isFalse => cases h
  case h_16 =>
    cases h
    have hop : e &&& 0xF = 15 := by
      simp only [imp_false] at *
      omega
    exact encodeEvent_of_fields hop rfl
  all_goals
    rename_i hop
    cases h
    exact encodeEvent_of_fields hop rfl

end Sys2Proof.Proofs
end

section
/-! PROOFS. What a step runs: the stimulus item, the key row, the rows that do nothing and the rows a
model refuses (30_encoding.md R69 to R76). -/

namespace Sys2Proof.Proofs

open Sys2Proof.Machine Sys2Proof.Claims

/-- Settles O4. A visible write of SEQ is the one item that is no instruction and is not refused. -/
theorem stepRunsDecodedInstruction : Obligations.StepRunsDecodedInstruction := by
  refine ⟨fun s f rest i hs hd => ?_, fun s hs => ?_, fun s f rest e hs hne hd => ?_⟩
  · cases f with
    | seqWrite => cases hd
    | _ => simp only [step, hs, hd, State.taken]
  · simp only [step, hs]
  · cases f with
    | seqWrite => exact absurd rfl hne
    | _ => simp only [step, hs, hd]

/-- Settles O8, key by key. -/
theorem keyRowsPartitionKeys : Obligations.KeyRowsPartitionKeys := by
  unfold Obligations.KeyRowsPartitionKeys
  decide

/-- Settles O9. -/
theorem decodeExampleWords : Obligations.DecodeExampleWords := by
  unfold Obligations.DecodeExampleWords
  decide

/-- Settles O10. -/
theorem idleRowsLeaveState : Obligations.IdleRowsLeaveState := fun _ => ⟨rfl, rfl⟩

/-- Settles O18. -/
theorem reservedEventsRefused : Obligations.ReservedEventsRefused := fun _ _ =>
  ⟨rfl, rfl, rfl, rfl, rfl, rfl, rfl, rfl⟩

/-- The key has a bit for each flag and two for `seq_state` (30 R69). -/
theorem seqKey_toNat (s : State) : (seqKey s).toNat =
    8 * seqStateCode s.seqState + 4 * s.err.toNat + 2 * s.tc.toNat + s.ht.toNat := by
  have hseq := seqStateCode_lt s.seqState
  have herr := s.err.toNat_lt
  have htc := s.tc.toNat_lt
  have hht := s.ht.toNat_lt
  rw [seqKey, BitVec.toNat_ofNat, Nat.mod_eq_of_lt]
  omega

/-- Settles O22: `SEQ` branches on the row that the decoder picks for the key. -/
theorem seqTakesKeyRow : Obligations.SeqTakesKeyRow := by
  refine fun s => ⟨seqKey s, seqKey_toNat s, ?_⟩
  change execSeq s = exec (decodeKeyOp (seqKey s)).instr s
  unfold execSeq
  cases decodeKeyOp (seqKey s) <;> rfl

end Sys2Proof.Proofs
end

section
/-! SUPPORT. Deposits on the edge bits (30_encoding.md R63). -/

namespace Sys2Proof.Machine

/-- A deposit has no bit outside `EDGE_MASK` (30 R63). -/
theorem depositOf_and_edgeMask {c : Config} (h : c.WF) (l : Level) :
    depositOf c l &&& c.edgeMask = depositOf c l := by
  apply Nat.eq_of_testBit_eq
  intro i
  rw [Nat.testBit_and, testBit_edgeMask, testBit_depositOf h]
  by_cases h0 : i = c.ch0
  · simp [h0]
  by_cases h1 : i = c.ch1
  · simp [h1]
  by_cases h2 : i = c.ch2
  · simp [h2]
  by_cases h3 : i = c.ch3
  · simp [h3]
  · simp [h0, h1, h2, h3]

/-- A deposit is a sample word (30 R63). -/
theorem depositOf_lt {c : Config} (h : c.WF) (l : Level) : depositOf c l < 2 ^ c.w := by
  obtain ⟨-, ⟨h0, h1, h2, h3⟩, -⟩ := id h
  refine Nat.lt_pow_two_of_testBit _ fun i hi => ?_
  rw [testBit_depositOf h, decide_eq_false (by omega), decide_eq_false (by omega),
    decide_eq_false (by omega), decide_eq_false (by omega)]
  rfl

/-- Bit `i` of the level stands at `CH_POS[i]` of its deposit (30 R63). -/
theorem depositOf_testBit_ch {c : Config} (h : c.WF) (l : Level) :
    (depositOf c l).testBit c.ch0 = l.getLsbD 0 ∧ (depositOf c l).testBit c.ch1 = l.getLsbD 1 ∧
    (depositOf c l).testBit c.ch2 = l.getLsbD 2 ∧ (depositOf c l).testBit c.ch3 = l.getLsbD 3 := by
  obtain ⟨-, -, ⟨h01, h02, h03, h12, h13, h23⟩, -⟩ := id h
  simp [testBit_depositOf h, h01, h02, h03, h12, h13, h23, h01.symm, h02.symm, h03.symm, h12.symm,
    h13.symm, h23.symm]

/-- A sample equals a deposit on the edge bits exactly when it has that level (30 R63). -/
theorem and_edgeMask_eq_depositOf_iff {c : Config} (h : c.WF) (w : SampleWord) (l : Level) :
    w &&& c.edgeMask = depositOf c l ↔ levelOf c w = l := by
  rw [← masked_eq_iff h, depositOf_and_edgeMask h]

end Sys2Proof.Machine
end

section
/-! PROOFS. Levels and deposits. -/

namespace Sys2Proof.Proofs

open Sys2Proof.Machine Sys2Proof.Claims

/-- Settles O39: each law of R63 follows from `and_edgeMask_eq_depositOf_iff`. -/
theorem levelDepositLaws : Obligations.LevelDepositLaws := by
  intro s w l hwf hw
  refine ⟨⟨levelOf s.cfg w, ?_, levelOf_getLsbD s.cfg w⟩, ⟨depositOf s.cfg l, rfl,
    depositOf_lt hwf l, ?_⟩, ?_, ?_, ?_⟩
  · change execLevel w s = _
    rw [execLevel, if_neg (Nat.not_le.2 hw)]
    rfl
  · obtain ⟨h0, h1, h2, h3⟩ := depositOf_testBit_ch hwf l
    exact ⟨h0, h1, h2, h3, depositOf_and_edgeMask hwf l⟩
  · exact (and_edgeMask_eq_depositOf_iff hwf _ l).1 (depositOf_and_edgeMask hwf l)
  · exact ((and_edgeMask_eq_depositOf_iff hwf w _).2 rfl).symm
  · exact not_congr (and_edgeMask_eq_depositOf_iff hwf w l)

end Sys2Proof.Proofs
end

section
/-! SUPPORT. The bytes of a record one by one (30_encoding.md R65), what `VDEC` accepts
(42_varint_encoder.md R117), and what the reader of one record says (30 R64, R74). -/

namespace Sys2Proof.Machine

theorem recordBytes_byte {k v j : Nat} {b : Byte} (h : (recordBytes k v)[j]? = some b) :
    j < k ∧ b.toNat = (if j + 1 = k then 0 else 128) + v / 128 ^ j % 128 := by
  have hj : j < k := by
    have hlen := (List.getElem?_eq_some_iff.1 h).1
    rwa [recordBytes_length] at hlen
  rw [recordBytes_getElem? k v j hj, Option.some.injEq] at h
  refine ⟨hj, ?_⟩
  rw [← h, BitVec.toNat_ofNat, Nat.mod_eq_of_lt]
  split <;> omega

/-- A byte lacks the continuation bit exactly at the end of its record. -/
theorem recordBytes_byte_lt_iff {k v j : Nat} {b : Byte} (h : (recordBytes k v)[j]? = some b) :
    b.toNat < 128 ↔ j + 1 = k := by
  obtain ⟨-, hb⟩ := recordBytes_byte h
  split at hb <;> omega

theorem recordBytes_last {k v : Nat} {b : Byte} (h : (recordBytes (k + 1) v)[k]? = some b)
    (hv : v < 128 ^ (k + 1)) : b.toNat = v / 128 ^ k := by
  obtain ⟨-, hb⟩ := recordBytes_byte h
  rw [if_pos rfl, Nat.zero_add] at hb
  rw [hb, Nat.mod_eq_of_lt]
  rwa [Nat.div_lt_iff_lt_mul (by positivity), ← Nat.pow_succ']

/-- `VLEN` is minimal: the top group of a record is needed (42 R111). -/
theorem vlenOf_top (v : Value) : vlenOf v = 1 ∨ 128 ^ (vlenOf v - 1) ≤ v.toNat := by
  obtain ⟨hpos, -, -, hmin⟩ := vlenOf_spec v
  by_contra hc
  have := hmin (vlenOf v - 1) (by omega) (by omega)
  omega

/-- What `VDEC` accepts: it stops at the first byte without the continuation bit, which is the
tenth at most, is 1 if it is the tenth and not 0 unless it is the only one. -/
theorem vdecLoop_accepts {bs : List Byte} {a n : Nat} : ∀ (fuel j : Nat) {v : Value}
    {r : Value × Nat}, j ≤ 10 → vdecLoop bs a n fuel j v = some r →
    ∃ m b, m ≤ 9 ∧ a + m < n ∧ bs[a + m]? = some b ∧ b.toNat < 128 ∧
      (1 ≤ m → b ≠ 0) ∧ (m = 9 → b = 1)
  | 0, _, _, _, _, h => by cases h
  | fuel + 1, j, v, r, hj, h => by
    simp only [vdecLoop] at h
    split at h
    · cases h
    rename_i hn
    split at h
    · cases h
    rename_i h10
    split at h
    · cases h
    rename_i b hb
    split at h
    · cases h
    rename_i htenth
    split at h
    · rename_i hlast
      split at h
      · cases h
      rename_i hzero
      exact ⟨j, b, by omega, by omega, hb, hlast, fun hm h0 => hzero ⟨by omega, h0⟩,
        fun hm => not_not.1 fun h1 => htenth ⟨hm, h1⟩⟩
    · exact vdecLoop_accepts fuel (j + 1) (by omega) h

theorem vdecOf_eq_none {bs : List Byte} {a n : Nat}
    (h : ∀ m b, m ≤ 9 → a + m < n → bs[a + m]? = some b → b.toNat < 128 → (1 ≤ m → b ≠ 0) →
      (m = 9 → b = 1) → False) : vdecOf bs a n = none := by
  refine Option.eq_none_iff_forall_ne_some.2 fun r hr => ?_
  obtain ⟨m, b, h9, hn, hb, hlast, hzero, htenth⟩ := vdecLoop_accepts 11 0 (Nat.zero_le _) hr
  exact h m b h9 hn hb hlast hzero htenth

theorem execVdec_of_none {bs : List Byte} {a n : Nat} (h : vdecOf bs a n = none) (s : State) :
    execVdec bs a n s = .next { s with out := .corrupt } := by
  rw [execVdec, h]
  rfl

/-- `PARSE` is refused where its first record is. -/
theorem parseOf_eq_none {bs : List Byte} {n : Nat} (h : vdecOf bs 0 (n + 1) = none) :
    parseOf bs (n + 1) = none := by
  simp only [parseOf, parseLoop, h]
  exact if_neg (Nat.succ_ne_zero n).symm

/-- A record of minimum length says its interval (30 R64, R66). -/
theorem readRecord_of_vlenOf (v : Value) (s : State) : readRecord (vlenOf v) v.toNat s =
    .next { s with out := .intervals [(durationOf v, levelOfValue v)] } := by
  have hparse : parseOf (vencOf v) (vencOf v).length = some [(durationOf v, levelOfValue v)] :=
    parseOf_append (bs := []) (l := []) v rfl
  rw [vencOf_length, vencOf_eq] at hparse
  rw [readRecord, hparse]
  rfl

/-- A record whose top group is 0 is refused: its last byte is 0 (30 R74). -/
theorem readRecord_of_small {k v : Nat} (hk : 1 ≤ k) (hv : v < 128 ^ k) (s : State) :
    readRecord (k + 1) v s = .next { s with out := .corrupt } := by
  have hvdec : vdecOf (recordBytes (k + 1) v) 0 (k + 1) = none := by
    refine vdecOf_eq_none fun m b _ _ hb hlast hzero _ => ?_
    rw [Nat.zero_add] at hb
    obtain rfl : m = k := by
      have := (recordBytes_byte_lt_iff hb).1 hlast
      omega
    refine hzero hk (BitVec.eq_of_toNat_eq ?_)
    rw [recordBytes_last hb (hv.trans (Nat.pow_lt_pow_succ (by decide))), Nat.div_eq_of_lt hv]
    rfl
  rw [readRecord, parseOf_eq_none hvdec]
  rfl

end Sys2Proof.Machine
end

section
/-! PROOFS. Records: what `VENC` writes, what `VDEC` refuses, and what a record row says. -/

namespace Sys2Proof.Proofs

open Sys2Proof.Machine Sys2Proof.Claims

/-- Settles O41: `VENC` writes the record bytes of its value, of which there are `VLEN`. -/
theorem vencLayout : Obligations.VencLayout := by
  intro s v
  obtain ⟨hpos, -, hlt, -⟩ := vlenOf_spec v
  obtain ⟨k, hk⟩ := Nat.exists_eq_add_of_le' hpos
  have htop := vlenOf_top v
  have hv64 := v.isLt
  rw [hk] at htop hlt
  refine ⟨vencOf v, rfl, vencOf_length v, ?_⟩
  rw [vencOf_eq, recordBytes_length, hk, Nat.add_sub_cancel]
  refine ⟨fun j b hb => ⟨?_, recordBytes_byte_lt_iff hb⟩, fun b h2 hb h0 => ?_, fun b h10 hb => ?_⟩
  · obtain ⟨-, hbyte⟩ := recordBytes_byte hb
    have hpow : 2 ^ (7 * j) = 128 ^ j := by rw [Nat.pow_mul]
    rw [hbyte, hpow]
    split <;> omega
  · have hlast := recordBytes_last hb hlt
    have hge : 128 ^ k ≤ v.toNat := htop.resolve_left (by omega)
    have h1 : 1 ≤ v.toNat / 128 ^ k := (Nat.one_le_div_iff (by positivity)).2 hge
    rw [h0] at hlast
    exact absurd (hlast ▸ h1) (by decide)
  · obtain rfl : k = 9 := by omega
    have hlast := recordBytes_last hb hlt
    have hge : 128 ^ 9 ≤ v.toNat := htop.resolve_left (by omega)
    refine BitVec.eq_of_toNat_eq (hlast.trans ?_)
    change v.toNat / 128 ^ 9 = 1
    omega

/-- In bytes that go on but for the last, the byte where `VDEC` may stop is the last. -/
theorem byte_of_continued {bs : List Byte} (hbs : ∀ b ∈ bs, 128 ≤ b.toNat) {last b : Byte} {m : Nat}
    (hb : (bs ++ [last])[m]? = some b) (hlt : b.toNat < 128) : m = bs.length ∧ b = last := by
  rcases Nat.lt_or_ge m bs.length with hm | hm
  · rw [List.getElem?_append_left hm] at hb
    exact absurd (hbs b (List.mem_of_getElem? hb)) (Nat.not_le.2 hlt)
  · rw [List.getElem?_append_right hm] at hb
    obtain ⟨h0, hb⟩ := List.getElem?_eq_some_iff.1 hb
    rw [List.length_singleton] at h0
    exact ⟨by omega, by simpa using hb.symm⟩

/-- Settles O44: none of the four sequences has a byte at which `VDEC` may stop. -/
theorem vdecRefusesCorrupt : Obligations.VdecRefusesCorrupt := by
  intro s bs hbs
  refine ⟨execVdec_of_none (vdecOf_eq_none fun m b _ _ hb hlt _ _ => ?_) s, fun last _ =>
    ⟨fun hlen h0 => ?_, fun hlen => ?_, fun hlen h1 => ?_⟩⟩
  · exact absurd (hbs b (List.mem_of_getElem? hb)) (Nat.not_le.2 hlt)
  all_goals refine execVdec_of_none (vdecOf_eq_none fun m b h9 _ hb hlt hzero htenth => ?_) s
  all_goals
    rw [Nat.zero_add] at hb
    obtain ⟨rfl, rfl⟩ := byte_of_continued hbs hb hlt
  · exact hzero hlen h0
  · omega
  · exact h1 (htenth hlen)

/-- Settles O46: a row is well-formed where its top group is needed, and there it is the record that
`VENC` writes. -/
theorem recordRowsSayIntervals : Obligations.RecordRowsSayIntervals := by
  intro s i v hi
  obtain ⟨k, hrow⟩ := recordRow_of_value hi
  obtain ⟨hpos, -, hlt, h64⟩ := hrow.bounds
  have hval : (BitVec.ofNat 64 v).toNat = v := by rw [BitVec.toNat_ofNat, Nat.mod_eq_of_lt h64]
  refine ⟨fun hwf => ?_, fun hwf => ?_⟩
  · have hlen : vlenOf (BitVec.ofNat 64 v) = k :=
      vlenOf_eq_of_range hpos (hval.symm ▸ hlt) (hval.symm ▸ (hrow.wf_iff s.cfg).1 hwf)
    have hread := readRecord_of_vlenOf (BitVec.ofNat 64 v) s
    have hd : durationOf (BitVec.ofNat 64 v) = BitVec.ofNat 60 (v / 16) := by
      apply BitVec.eq_of_toNat_eq
      rw [durationOf_toNat, hval, BitVec.toNat_ofNat]
      omega
    have hl : levelOfValue (BitVec.ofNat 64 v) = BitVec.ofNat 4 (v % 16) := by
      apply BitVec.eq_of_toNat_eq
      rw [levelOfValue_toNat, hval, BitVec.toNat_ofNat]
      omega
    rw [hlen, hval, hd, hl] at hread
    exact (hrow.exec_eq s).trans hread
  · have hsmall : ¬ (k = 1 ∨ 128 ^ (k - 1) ≤ v) := by rw [← hrow.wf_iff s.cfg, hwf]; decide
    obtain ⟨hk, hv⟩ := not_or.1 hsmall
    obtain ⟨k, rfl⟩ := Nat.exists_eq_add_of_le' hpos
    exact (hrow.exec_eq s).trans (readRecord_of_small (by omega) (Nat.not_le.1 hv) s)

/-- Settles O47: the row of `VLEN` bytes that carries the value has these bytes as its encoding. -/
theorem encodedRecordsFitRows : Obligations.EncodedRecordsFitRows := by
  intro s d l
  obtain ⟨hpos, hle, hlt, -⟩ := vlenOf_spec (recordValueOf d l)
  have htop := vlenOf_top (recordValueOf d l)
  obtain ⟨i, hrow⟩ := exists_recordRow hpos hle hlt (recordValueOf d l).isLt
    fun h10 => by rw [h10] at htop; exact htop.resolve_left (by decide)
  refine ⟨i, ?_, (hrow.wf_iff s.cfg).2 htop, ?_⟩
  · rw [recordOf_eq_vencOf, vencOf_eq]
    exact hrow.decodeRecord_eq
  · rw [hrow.exec_eq, readRecord_of_vlenOf, durationOf_recordValueOf, levelOfValue_recordValueOf]

end Sys2Proof.Proofs
end

section
/-! SUPPORT. The payload bits of a sample (30_encoding.md R61): two contents of `PP` that agree
under `EDGE_MASK` and `RESERVED_MASK` are alike to `ENC_STEP`, but for the word of a sync loss. -/

namespace Sys2Proof.Machine

/-- Words that agree under a mask agree under every part of it. -/
theorem and_eq_of_and_eq {x y m k : Nat} (h : x &&& m = y &&& m) (hk : m &&& k = k) :
    x &&& k = y &&& k := by
  rw [← hk, ← Nat.and_assoc, h, Nat.and_assoc]

/-- Two sample words agree on the channel bits and the reserved bits (30 R61). -/
def SameBits (c : Config) (x y : SampleWord) : Prop :=
  x &&& (c.edgeMask ||| c.reservedMask) = y &&& (c.edgeMask ||| c.reservedMask)

section
variable {c : Config} {x y : SampleWord}

theorem SameBits.edge (h : SameBits c x y) : x &&& c.edgeMask = y &&& c.edgeMask := by
  refine and_eq_of_and_eq h (Nat.eq_of_testBit_eq fun i => ?_)
  rw [Nat.testBit_and, Nat.testBit_or]
  cases c.edgeMask.testBit i <;> simp

theorem SameBits.reserved (h : SameBits c x y) : x &&& c.reservedMask = y &&& c.reservedMask := by
  refine and_eq_of_and_eq h (Nat.eq_of_testBit_eq fun i => ?_)
  rw [Nat.testBit_and, Nat.testBit_or]
  cases c.reservedMask.testBit i <;> simp

theorem SameBits.level (h : SameBits c x y) (hc : c.WF) : levelOf c x = levelOf c y := by
  rw [← masked_eq_iff hc, h.edge, masked_eq_iff hc]

end

/-- The state with other contents of `PP`. -/
def withPp (pp' : List (Nat × SampleWord)) (s : State) : State := { s with pp := pp' }

@[simp] theorem withPp_cfg (pp' : List (Nat × SampleWord)) (s : State) :
    (withPp pp' s).cfg = s.cfg := rfl

@[simp] theorem withPp_lastValue (pp' : List (Nat × SampleWord)) (s : State) :
    (withPp pp' s).lastValue = s.lastValue := rfl

@[simp] theorem withPp_bytes (pp' : List (Nat × SampleWord)) (s : State) :
    (withPp pp' s).bytes = s.bytes := rfl

@[simp] theorem withPp_durAcc (pp' : List (Nat × SampleWord)) (s : State) :
    (withPp pp' s).durAcc = s.durAcc := rfl

@[simp] theorem withPp_scanPos (pp' : List (Nat × SampleWord)) (s : State) :
    (withPp pp' s).scanPos = s.scanPos := rfl

@[simp] theorem withPp_emission (pp' : List (Nat × SampleWord)) (s : State) :
    (withPp pp' s).emission = s.emission := rfl

@[simp] theorem halfBase_withPp (pp' : List (Nat × SampleWord)) (s : State) :
    halfBase (withPp pp' s) = halfBase s := rfl

@[simp] theorem stepEnabled_withPp (pp' : List (Nat × SampleWord)) (s : State) (q : SeqState) :
    stepEnabled (withPp pp' s) q = stepEnabled s q := rfl

/-- The contents of `PP` reach an `ENC_STEP` only through its arm. -/
theorem applyArm_withPp (arm : EncArm) (pp' : List (Nat × SampleWord)) (s : State) :
    applyArm arm (withPp pp' s) = withPp pp' (applyArm arm s) := by
  cases arm <;> rfl

/-- Two arms that differ at most in the word of a sync loss (60 R181). -/
inductive SameArm : EncArm → EncArm → Prop where
  | refl (arm : EncArm) : SameArm arm arm
  | syncLoss (d : Duration) (p : Nat) (w w' : SampleWord) :
      SameArm (.syncLoss d p w) (.syncLoss d p w')

section
variable {s : State} {pp' : List (Nat × SampleWord)}

theorem edgePos_withPp (h : ∀ i, SameBits s.cfg (ppWord (withPp pp' s) i) (ppWord s i)) :
    edgePos (withPp pp' s) = edgePos s :=
  congrArg (· - halfBase s) (scanLoop_congr _ _ fun i _ _ => (h i).edge)

theorem spanDuration_withPp (h : ∀ i, SameBits s.cfg (ppWord (withPp pp' s) i) (ppWord s i)) :
    spanDuration (withPp pp' s) = spanDuration s := by
  simp only [spanDuration, withPp_durAcc, withPp_scanPos, edgePos_withPp h]

theorem encRefusal_withPp (h : ∀ i, SameBits s.cfg (ppWord (withPp pp' s) i) (ppWord s i)) :
    encRefusal (withPp pp' s) = encRefusal s := by
  simp only [encRefusal, durationFits, stepEnabled_withPp, halfBase_withPp, withPp_cfg,
    withPp_scanPos, withPp_emission, withPp_durAcc, edgePos_withPp h]

/-- Each arm is chosen by the levels and the reserved bits of the samples (41 R91). -/
theorem encArm_withPp (hc : s.cfg.WF)
    (h : ∀ i, SameBits s.cfg (ppWord (withPp pp' s) i) (ppWord s i)) :
    SameArm (encArm s) (encArm (withPp pp' s)) := by
  cases hm : s.emission with
  | some e =>
    simp only [encArm, withPp_emission, hm]
    exact .refl _
  | none =>
    have hw := h (halfBase s + edgePos s)
    simp only [encArm, scanArm, withPp_emission, hm, edgePos_withPp h, spanDuration_withPp h,
      halfBase_withPp, withPp_cfg, withPp_bytes, withPp_lastValue, hw.reserved, hw.level hc]
    split
    · exact .refl _
    split
    · exact .syncLoss _ _ _ _
    · exact .refl _

end

/-- The fields `half` and `pos` of a context, whatever its word (10 R28). -/
theorem packCtx_half_pos (c : Config) (half : Half) (pos w : Nat) :
    ctxHalf (packCtx c half pos w) = halfCode half ∧
      ctxPos c (packCtx c half pos w) = pos % 2 ^ c.posW := by
  have hhalf := halfCode_lt half
  have hpack : packCtx c half pos w = halfCode half + 2 * (pos + 2 ^ c.posW * w) := by
    rw [packCtx, Nat.pow_add, Nat.pow_one, Nat.mul_assoc]
    omega
  have hdiv : packCtx c half pos w / 2 = pos + 2 ^ c.posW * w := by omega
  exact ⟨by rw [ctxHalf]; omega, by rw [ctxPos, hdiv, Nat.add_mul_mod_self_left]⟩

end Sys2Proof.Machine
end

section
/-! PROOFS. The payload bits of a sample. -/

namespace Sys2Proof.Proofs

open Sys2Proof.Machine Sys2Proof.Claims

/-- The claim of `PayloadBitsNeverInfluence` about the two states that `ENC_STEP` leads to. -/
def differsInContextWord (t u : State) (pp' : List (Nat × SampleWord)) : Prop :=
  ∃ c, u = { t with pp := pp', fatalCtx := c } ∧ (t.mode ≠ .fatal → c = t.fatalCtx) ∧
    ctxHalf c = ctxHalf t.fatalCtx ∧ ctxPos t.cfg c = ctxPos t.cfg t.fatalCtx

theorem differsInContextWord_refl (t : State) (pp' : List (Nat × SampleWord)) :
    differsInContextWord t (withPp pp' t) pp' :=
  ⟨t.fatalCtx, rfl, fun _ => rfl, rfl, rfl⟩

theorem applyArm_sameArm {arm arm' : EncArm} (h : SameArm arm arm') (s : State)
    (pp' : List (Nat × SampleWord)) :
    differsInContextWord (applyArm arm s) (applyArm arm' (withPp pp' s)) pp' := by
  rw [applyArm_withPp]
  cases h with
  | refl arm => exact differsInContextWord_refl _ _
  | syncLoss d p w w' =>
    obtain ⟨hhalf, hpos⟩ := packCtx_half_pos s.cfg s.curHalf p w
    obtain ⟨hhalf', hpos'⟩ := packCtx_half_pos s.cfg s.curHalf p w'
    exact ⟨packCtx s.cfg s.curHalf p w', rfl, fun hm => absurd rfl hm, hhalf'.trans hhalf.symm,
      hpos'.trans hpos.symm⟩

/-- Settles O55: `PP` reaches an `ENC_STEP` only through its arm, which differs at most in the word
of a sync loss. -/
theorem payloadBitsNeverInfluence : Obligations.PayloadBitsNeverInfluence := by
  intro s t pp' hc hnext h
  obtain ⟨hr, rfl⟩ := encStepOutcome_next hnext
  have hnext' : encStepOutcome (withPp pp' s) = .next (encStepOp (withPp pp' s)) := by
    rw [encStepOutcome, encRefusal_withPp h, hr]
  have hdiff : differsInContextWord (encStepOp s) (encStepOp (withPp pp' s)) pp' := by
    cases hen : stepEnabled s .encode with
    | true =>
      simp only [encStepOp, stepEnabled_withPp, hen, if_true]
      exact applyArm_sameArm (encArm_withPp hc h) s pp'
    | false =>
      rw [encStepOp_of_disabled hen, encStepOp_of_disabled ((stepEnabled_withPp ..).trans hen)]
      exact differsInContextWord_refl s pp'
  obtain ⟨c, hu, hmode, hhalf, hpos⟩ := hdiff
  rw [(encStepOp_frame s).1] at hpos
  exact ⟨c, hu ▸ hnext', hmode, hhalf, hpos⟩

end Sys2Proof.Proofs
end

section
/-! SUPPORT. How many more steps SEQ takes while no other agent steps (30_encoding.md R72): the rest of
the dispatch in progress, and what it finds pending behind it. -/

namespace Sys2Proof.Machine

/-! ### The steps left -/

/-- The most steps the dispatch in progress still takes: an `ENC_STEP` for each sample left in the
half, one for its end and one for a record begun, then `SEQ_CLEAR` and `SEQ_CHECK` (30 R72). -/
def stepsLeft (s : State) : Nat :=
  match s.seqState with
  | .idle => 0
  | .check => 1
  | .clear => 2
  | .encode => (s.cfg.h - s.scanPos) + (if s.emission.isSome then 1 else 0) + 3

section
variable {s : State}

theorem stepsLeft_of_idle (h : s.seqState = .idle) : stepsLeft s = 0 := by
  simp only [stepsLeft, h]

theorem stepsLeft_of_check (h : s.seqState = .check) : stepsLeft s = 1 := by
  simp only [stepsLeft, h]

theorem stepsLeft_of_clear (h : s.seqState = .clear) : stepsLeft s = 2 := by
  simp only [stepsLeft, h]

theorem stepsLeft_of_new (h : s.seqState = .encode) (hm : s.emission = none) :
    stepsLeft s = s.cfg.h - s.scanPos + 3 := by
  simp [stepsLeft, h, hm]

theorem stepsLeft_of_begun {e : Emission} (h : s.seqState = .encode) (hm : s.emission = some e) :
    stepsLeft s = s.cfg.h - s.scanPos + 4 := by
  simp [stepsLeft, h, hm]

theorem stepsLeft_pos (h : s.seqState ≠ .idle) : 1 ≤ stepsLeft s := by
  unfold stepsLeft
  split
  · exact absurd ‹_› h
  all_goals omega

theorem stepsLeft_le (s : State) : stepsLeft s ≤ s.cfg.h + 4 := by
  unfold stepsLeft
  split
  case h_4 => split <;> omega
  all_goals omega

end

/-- A half is left to dispatch in `S_IDLE`, or in `S_CHECK` behind a half whose own flag is still
set. From `S_ENCODE` and `S_CLEAR` there is none: the own flag is cleared on the way, and the other
is an overrun (44 R150, R151). -/
abbrev halfAhead (s : State) : Prop :=
  s.err = false ∧ (s.ht = true ∨ s.tc = true) ∧
    (s.seqState = .idle ∨ (s.seqState = .check ∧ otherFlag s s.curHalf = false))

/-- The most steps SEQ takes behind the dispatch in progress: the Fatal of a transfer error, or the
dispatch of a half with its entry. -/
def stepsAfter (s : State) : Nat :=
  if s.err = true then 1 else if halfAhead s then s.cfg.h + 4 else 0

theorem not_halfAhead_of_encode {s : State} (h : s.seqState = .encode) : ¬ halfAhead s := by
  simp [halfAhead, h]

theorem not_halfAhead_of_clear {s : State} (h : s.seqState = .clear) : ¬ halfAhead s := by
  simp [halfAhead, h]

theorem stepsAfter_of_half {s : State} (h : halfAhead s) : stepsAfter s = s.cfg.h + 4 := by
  rw [stepsAfter, if_neg (by simp [h.1]), if_pos h]

theorem stepsAfter_of_not_half {s : State} (h : ¬ halfAhead s) : stepsAfter s = s.err.toNat := by
  rw [stepsAfter, if_neg h]
  cases s.err <;> rfl

theorem stepsAfter_le (s : State) : stepsAfter s ≤ s.cfg.h + 4 := by
  unfold stepsAfter
  split
  · omega
  · split <;> omega

/-- The steps that SEQ takes until it has nothing to do. -/
def stepsToRest (s : State) : Nat := stepsLeft s + stepsAfter s

/-- No duration reaches `2^60` while no other agent steps: not in the rest of this half, nor in the
half behind it (10 R14, 93 U3). -/
structure DurationsFit (s : State) : Prop where
  here : s.seqState = .encode → s.durAcc.toNat + (s.cfg.h - s.scanPos) < 2 ^ 60
  ahead : halfAhead s → s.lastDuration.toNat + s.cfg.h < 2 ^ 60

/-! ### What one step does to them -/

/-- SEQ has stopped for good (41 R95, 60 R186). -/
def Halted (s : State) : Prop := s.mode = .fatal ∨ (s.mode = .suspended ∧ s.seqState = .idle)

/-- A step within a dispatch that goes on: fewer steps are left of it, and no more behind it. -/
structure Onward (s t : State) : Prop where
  cfg : t.cfg = s.cfg
  running : t.mode = .running
  left : stepsLeft t < stepsLeft s
  after : stepsAfter t ≤ stepsAfter s
  fit : DurationsFit s → DurationsFit t

/-- Within `S_ENCODE` it suffices that the half gets no longer and nothing else is ahead. -/
theorem onward_of_encode {s t : State} (hq : s.seqState = .encode)
    (hcfg : t.cfg = s.cfg) (hmode : t.mode = .running) (herr : t.err = s.err)
    (ht : t.seqState = .encode ∨ t.seqState = .clear) (hleft : stepsLeft t < stepsLeft s)
    (hdur : t.seqState = .encode → t.durAcc.toNat + (t.cfg.h - t.scanPos) ≤
      s.durAcc.toNat + (s.cfg.h - s.scanPos)) : Onward s t := by
  have hahead : ¬ halfAhead t := ht.elim not_halfAhead_of_encode not_halfAhead_of_clear
  refine ⟨hcfg, hmode, hleft, ?_, fun hfit => ⟨fun h => ?_, fun h => absurd h hahead⟩⟩
  · rw [stepsAfter_of_not_half hahead, stepsAfter_of_not_half (not_halfAhead_of_encode hq), herr]
  · exact (hdur h).trans_lt (hfit.here hq)

theorem encStepOp_progress {s : State} (hi : Inv s) (he : stepEnabled s .encode = true) :
    Halted (encStepOp s) ∨ Onward s (encStepOp s) := by
  obtain ⟨hq, hmode⟩ := (stepEnabled_iff s .encode).1 he
  rcases encStepOp_cases he with ⟨hm, -, hop⟩ | ⟨-, -, -, hop⟩ | ⟨-, -, -, -, hop⟩ |
    ⟨bs, l, hm, harm, hop⟩ | ⟨e, hm, hop⟩ <;> rw [hop]
  case inl =>
    refine .inr (onward_of_encode hq rfl hmode rfl (.inr rfl) ?_ fun h => by cases h)
    rw [stepsLeft_of_clear rfl, stepsLeft_of_new hq hm]
    omega
  case inr.inl => exact .inl (.inl rfl)
  case inr.inr.inl => exact .inl (.inr ⟨rfl, rfl⟩)
  case inr.inr.inr.inl =>
    obtain ⟨-, hne, -⟩ := scanArm_emit harm
    obtain ⟨hge, hle, -⟩ := edgePos_spec hi.wf hi.scanLe
    refine .inr (onward_of_encode hq rfl hmode rfl (.inl hq) ?_ fun _ => ?_)
    · rw [stepsLeft_of_new hq hm, stepsLeft_of_new (by exact hq) rfl]
      simp only [finishEmission_cfg, startEmission_cfg, finishEmission_scanPos,
        startEmission_scanPos]
      omega
    · simp only [finishEmission_cfg, startEmission_cfg, finishEmission_scanPos,
        startEmission_scanPos, finishEmission_durAcc, startEmission_durAcc]
      have hreset : durReset.toNat = 0 := rfl
      omega
  case inr.inr.inr.inr =>
    refine .inr (onward_of_encode hq rfl hmode rfl (.inl hq) ?_ fun _ => le_rfl)
    rw [stepsLeft_of_begun hq hm, stepsLeft_of_new (by exact hq) rfl]
    exact Nat.lt_succ_self _

/-- With its own flag cleared, the half that `SEQ_CHECK` finds behind a dispatch is an overrun. -/
theorem seqClearOp_progress {s : State} (he : stepEnabled s .clear = true) :
    Onward s (seqClearOp s) := by
  obtain ⟨hq, hmode⟩ := (stepEnabled_iff s .clear).1 he
  have hop : seqClearOp s = { clearFlag s.curHalf s with seqState := .check } := by
    rw [seqClearOp, if_pos he]
  have hahead : ¬ halfAhead (seqClearOp s) := by
    rw [hop]
    cases hh : s.curHalf <;> simp [halfAhead, otherFlag, hh]
  have herr : (seqClearOp s).err = s.err := by rw [hop]; exact clearFlag_err _ _
  have hcheck : (seqClearOp s).seqState = .check := by rw [hop]
  have hcfg : (seqClearOp s).cfg = s.cfg := by rw [hop]; exact clearFlag_cfg _ _
  have hrun : (seqClearOp s).mode = .running := by rw [hop]; exact (clearFlag_mode _ _).trans hmode
  refine ⟨hcfg, hrun, ?_, ?_,
    fun _ => ⟨fun h => by simp [hcheck] at h, fun h => absurd h hahead⟩⟩
  · rw [stepsLeft_of_check hcheck, stepsLeft_of_clear hq]
    decide
  · rw [stepsAfter_of_not_half hahead, stepsAfter_of_not_half (not_halfAhead_of_clear hq), herr]

theorem seqCheckOp_progress {s : State} (he : stepEnabled s .check = true) :
    Halted (seqCheckOp s) ∨ Onward s (seqCheckOp s) := by
  obtain ⟨hq, hmode⟩ := (stepEnabled_iff s .check).1 he
  rw [seqCheckOp, if_pos he]
  cases ho : otherFlag s s.curHalf with
  | true => exact .inl (.inl rfl)
  | false =>
    have hahead : halfAhead { s with seqState := .idle } ↔ halfAhead s := by
      simp [halfAhead, hq, ho]
    right
    refine ⟨rfl, hmode, ?_, ?_, fun hfit =>
      ⟨fun h => (by cases h), fun h => hfit.ahead (hahead.1 h)⟩⟩
    · rw [if_neg (by decide), stepsLeft_of_idle rfl, stepsLeft_of_check hq]
      decide
    · simp only [if_neg Bool.false_ne_true, stepsAfter, hahead]
      exact le_rfl

/-- The entry begins a dispatch with a new scan of the half, and leaves nothing behind it. -/
theorem enterHalf_progress {s : State} (hi : Inv s) (h : halfAhead s) (hq : s.seqState = .idle)
    (half : Half) : stepsLeft (enterHalf half s) = s.cfg.h + 3 ∧
      stepsToRest (enterHalf half s) < stepsToRest s ∧
      (DurationsFit s → DurationsFit (enterHalf half s)) := by
  have hm : (enterHalf half s).emission = none := hi.emission_none (by simp [hq])
  have hleft : stepsLeft (enterHalf half s) = s.cfg.h + 3 := stepsLeft_of_new rfl hm
  have hahead : ¬ halfAhead (enterHalf half s) := not_halfAhead_of_encode rfl
  refine ⟨hleft, ?_, fun hfit => ⟨fun _ => hfit.ahead h, fun h' => absurd h' hahead⟩⟩
  rw [stepsToRest, stepsToRest, hleft, stepsAfter_of_not_half hahead, stepsAfter_of_half h,
    stepsLeft_of_idle hq, enterHalf_err, h.1, Bool.toNat_false]
  omega

/-! ### One step of SEQ -/

theorem seqEnabled_iff (s : State) : seqEnabled s = true ↔
    enterEnabled s = true ∨ (s.seqState ≠ .idle ∧ s.mode = .running) := by
  simp only [seqEnabled, Bool.or_eq_true, stepEnabled_iff]
  cases s.seqState <;> simp

/-- Where no step of SEQ is enabled, `SEQ` is no step (30 R69, 93 U11). -/
theorem execSeq_of_disabled {s : State} (h : seqEnabled s = false) : execSeq s = .next s := by
  simp only [seqEnabled, Bool.or_eq_false_iff] at h
  obtain ⟨⟨⟨henter, hencode⟩, hclear⟩, hcheck⟩ := h
  cases hq : s.seqState with
  | idle => rw [execSeq_of_idle hq, seqEnterOp_of_disabled henter]
  | encode =>
    have hr : encRefusal s = none := encRefusal_eq_none.2 fun he => by simp [hencode] at he
    rw [execSeq_of_encode hq, encStepOutcome, hr, encStepOp_of_disabled hencode]
  | clear => rw [execSeq_of_clear hq, seqClearOp, if_neg (by simp [hclear])]
  | check => rw [execSeq_of_check hq, seqCheckOp, if_neg (by simp [hcheck])]

theorem Halted.not_enabled {s : State} (h : Halted s) : seqEnabled s = false := by
  rw [Bool.eq_false_iff, ne_eq, seqEnabled_iff, enterEnabled_iff]
  rcases h with h | ⟨h, -⟩ <;> simp [h]

/-- Everything an enabled step of SEQ can do, as far as the end of the dispatch goes: it halts, it
enters the dispatch of a half, or it goes on in the one in progress. -/
def SeqProgress (s t : State) : Prop :=
  Halted t ∨ (s.seqState = .idle ∧ halfAhead s ∧ ∃ half, t = enterHalf half s) ∨
    (s.seqState ≠ .idle ∧ Onward s t)

theorem seqEnterOp_progress {s : State} (he : enterEnabled s = true) :
    SeqProgress s (seqEnterOp s) := by
  obtain ⟨hq, -, -, hflag⟩ := (enterEnabled_iff s).1 he
  cases herr : s.err with
  | true => rw [seqEnterOp_of_err he herr]; exact .inl (.inl rfl)
  | false =>
    have hflags : s.ht = true ∨ s.tc = true := by simpa [herr] using hflag
    have hahead : halfAhead s := ⟨herr, hflags, .inl hq⟩
    cases hht : s.ht with
    | true => exact .inr (.inl ⟨hq, hahead, _, seqEnterOp_of_half he herr (.inl ⟨rfl, hht⟩)⟩)
    | false =>
      have htc : s.tc = true := hflags.resolve_left (by simp [hht])
      exact .inr (.inl ⟨hq, hahead, _, seqEnterOp_of_half he herr (.inr ⟨rfl, hht, htc⟩)⟩)

/-- An `ENC_STEP` of the block is taken, or refused for its duration alone (log 8). -/
theorem encStepOutcome_of_inv {s : State} (hi : Inv s) (he : stepEnabled s .encode = true) :
    (encStepOutcome s = .refused .durationOverflow ∧ ¬ DurationsFit s) ∨
      encStepOutcome s = .next (encStepOp s) := by
  by_cases hd : s.emission = none → durationFits s
  · right
    rw [encStepOutcome, encRefusal_eq_none.2 fun _ => ⟨hi.scanLe, hd⟩]
  · left
    obtain ⟨hm, hd⟩ := Classical.not_imp.1 hd
    have hr : encRefusal s = some .durationOverflow :=
      encRefusal_overflow.2 ⟨he, hi.scanLe, hm, hd⟩
    refine ⟨by rw [encStepOutcome, hr], fun hfit => hd ?_⟩
    have hle := edgePos_le hi.scanLe
    have hhere := hfit.here ((stepEnabled_iff s .encode).1 he).1
    change s.durAcc.toNat + (edgePos s - s.scanPos) < 2 ^ 60
    omega

/-- What an enabled step of SEQ answers (30 R69, R72). -/
theorem execSeq_progress {s : State} (hi : Inv s) (hen : seqEnabled s = true) :
    (execSeq s = .refused .durationOverflow ∧ ¬ DurationsFit s) ∨
      ∃ t, execSeq s = .next t ∧ SeqProgress s t := by
  rcases (seqEnabled_iff s).1 hen with henter | ⟨hbusy, hmode⟩
  · rw [execSeq_of_idle ((enterEnabled_iff s).1 henter).1]
    exact .inr ⟨_, rfl, seqEnterOp_progress henter⟩
  have hgo : ∀ {t : State}, Halted t ∨ Onward s t → SeqProgress s t := fun h =>
    h.imp_right fun ho => .inr ⟨hbusy, ho⟩
  cases hq : s.seqState with
  | idle => exact absurd hq hbusy
  | encode =>
    have he : stepEnabled s .encode = true := (stepEnabled_iff _ _).2 ⟨hq, hmode⟩
    rw [execSeq_of_encode hq]
    exact (encStepOutcome_of_inv hi he).imp_right fun hnext =>
      ⟨_, hnext, hgo (encStepOp_progress hi he)⟩
  | clear =>
    rw [execSeq_of_clear hq]
    exact .inr ⟨_, rfl, hgo (.inr (seqClearOp_progress ((stepEnabled_iff _ _).2 ⟨hq, hmode⟩)))⟩
  | check =>
    rw [execSeq_of_check hq]
    exact .inr ⟨_, rfl, hgo (seqCheckOp_progress ((stepEnabled_iff _ _).2 ⟨hq, hmode⟩))⟩

theorem Inv.execSeq {s t : State} (hi : Inv s) (h : execSeq s = .next t) : Inv t :=
  works_keep (fun _ _ hw h => h.work hw) hi (works_execSeq h)

/-- Where SEQ has a step to take, steps are left to it. -/
theorem stepsToRest_pos {s : State} (h : seqEnabled s = true) : 0 < stepsToRest s := by
  rcases (seqEnabled_iff s).1 h with henter | ⟨hbusy, -⟩
  · obtain ⟨hq, -, -, hflag⟩ := (enterEnabled_iff s).1 henter
    refine Nat.add_pos_right _ ?_
    cases herr : s.err with
    | true => rw [stepsAfter, if_pos herr]; exact Nat.one_pos
    | false =>
      rw [stepsAfter_of_half ⟨herr, by simpa [herr] using hflag, .inl hq⟩]
      exact Nat.succ_pos _
  · exact Nat.add_pos_left (stepsLeft_pos hbusy) _

/-- A step that does not halt brings the rest nearer. -/
theorem SeqProgress.stepsToRest_lt {s t : State} (hi : Inv s) (h : SeqProgress s t)
    (ht : ¬ Halted t) : stepsToRest t < stepsToRest s ∧ (DurationsFit s → DurationsFit t) := by
  rcases h with hh | ⟨hq, hahead, half, rfl⟩ | ⟨-, ho⟩
  · exact absurd hh ht
  · exact (enterHalf_progress hi hahead hq half).2
  · exact ⟨Nat.add_lt_add_of_lt_of_le ho.left ho.after, ho.fit⟩

/-! ### Runs of SEQ -/

theorem seqRun_of_next {s t : State} (h : execSeq s = .next t) (n : Nat) :
    seqRun (n + 1) s = seqRun n t := by
  simp only [seqRun, h]

theorem seqRun_of_refused {s : State} {r : Refusal} (h : execSeq s = .refused r) (n : Nat) :
    seqRun (n + 1) s = .refused r := by
  simp only [seqRun, h]

theorem seqRun_of_disabled {s : State} (h : seqEnabled s = false) : ∀ n, seqRun n s = .next s
  | 0 => rfl
  | n + 1 => (seqRun_of_next (execSeq_of_disabled h) n).trans (seqRun_of_disabled h n)

/-- With steps enough SEQ comes to rest, unless a duration is refused (30 R72, log 8). -/
theorem seqRun_rests : ∀ (n : Nat) {s : State}, Inv s → stepsToRest s ≤ n →
    (seqRun n s = .refused .durationOverflow ∧ ¬ DurationsFit s) ∨
      ∃ t, seqRun n s = .next t ∧ seqEnabled t = false := by
  intro n
  induction n with
  | zero =>
    intro s _ hn
    refine .inr ⟨s, rfl, Bool.eq_false_iff.2 fun hen => ?_⟩
    have := stepsToRest_pos hen
    omega
  | succ n ih =>
    intro s hi hn
    cases hen : seqEnabled s with
    | false => exact .inr ⟨s, seqRun_of_disabled hen _, hen⟩
    | true =>
      rcases execSeq_progress hi hen with ⟨hr, hfit⟩ | ⟨t, hnext, hprog⟩
      · exact .inl ⟨seqRun_of_refused hr n, hfit⟩
      rw [seqRun_of_next hnext]
      by_cases ht : Halted t
      · exact .inr ⟨t, seqRun_of_disabled ht.not_enabled n, ht.not_enabled⟩
      · obtain ⟨hlt, hkeep⟩ := hprog.stepsToRest_lt hi ht
        exact (ih (hi.execSeq hnext) (by omega)).imp_left fun ⟨hr, hfit⟩ => ⟨hr, mt hkeep hfit⟩

/-- `k` steps of SEQ end the dispatch, or one of them is refused for a duration. -/
def DispatchOver (k : Nat) (s : State) : Prop :=
  seqRun k s = .refused .durationOverflow ∨
    ∃ t, seqRun k s = .next t ∧ (t.seqState = .idle ∨ t.mode = .fatal)

theorem dispatchOver_of_next {s t : State} (h : execSeq s = .next t) {k : Nat}
    (hk : DispatchOver k t) : DispatchOver (k + 1) s := by
  unfold DispatchOver
  rw [seqRun_of_next h]
  exact hk

theorem Halted.over {t : State} (h : Halted t) : DispatchOver 0 t :=
  .inr ⟨t, rfl, h.symm.imp_left And.right⟩

/-- A dispatch in progress ends within the steps left of it (30 R72). -/
theorem dispatchOver_of_running : ∀ (n : Nat) {s : State}, Inv s → s.mode = .running →
    stepsLeft s ≤ n → ∃ k, k ≤ n ∧ DispatchOver k s := by
  intro n
  induction n with
  | zero =>
    intro s _ _ hn
    refine ⟨0, le_rfl, .inr ⟨s, rfl, .inl (not_not.1 fun hq => ?_)⟩⟩
    have := stepsLeft_pos hq
    omega
  | succ n ih =>
    intro s hi hmode hn
    by_cases hq : s.seqState = .idle
    · exact ⟨0, Nat.zero_le _, .inr ⟨s, rfl, .inl hq⟩⟩
    rcases execSeq_progress hi ((seqEnabled_iff s).2 (.inr ⟨hq, hmode⟩)) with
      ⟨hr, -⟩ | ⟨t, hnext, hhalt | ⟨hidle, -⟩ | ⟨-, ho⟩⟩
    · exact ⟨1, Nat.le_add_left 1 n, .inl (seqRun_of_refused hr 0)⟩
    · exact ⟨1, Nat.le_add_left 1 n, dispatchOver_of_next hnext hhalt.over⟩
    · exact absurd hidle hq
    · have hlt := ho.left
      obtain ⟨k, hk, hover⟩ := ih (hi.execSeq hnext) ho.running (by omega)
      exact ⟨k + 1, Nat.succ_le_succ hk, dispatchOver_of_next hnext hover⟩

end Sys2Proof.Machine
end

section
/-! PROOFS. A dispatch ends within its bound, and `RUN` ends. -/

namespace Sys2Proof.Proofs

open Sys2Proof.Machine Sys2Proof.Claims

/-- A first step, and then no more than are left behind it. -/
theorem dispatchOver_within_bound {s : State} (hi : Inv s)
    (hs : (s.mode = .running ∧ s.seqState ≠ .idle) ∨ enterEnabled s = true) :
    ∃ k, 1 ≤ k ∧ k ≤ s.cfg.h + 4 ∧ DispatchOver k s := by
  have hen : seqEnabled s = true := (seqEnabled_iff s).2 (hs.symm.imp_right And.symm)
  have hafter : ∀ {t : State}, execSeq s = .next t → t.mode = .running →
      stepsLeft t ≤ s.cfg.h + 3 → ∃ k, 1 ≤ k ∧ k ≤ s.cfg.h + 4 ∧ DispatchOver k s := by
    intro t hnext hmode hle
    obtain ⟨k, hk, hover⟩ := dispatchOver_of_running _ (hi.execSeq hnext) hmode hle
    exact ⟨k + 1, Nat.le_add_left 1 k, Nat.succ_le_succ hk, dispatchOver_of_next hnext hover⟩
  rcases execSeq_progress hi hen with
    ⟨hr, -⟩ | ⟨t, hnext, hhalt | ⟨hq, hahead, half, rfl⟩ | ⟨-, ho⟩⟩
  · exact ⟨1, le_rfl, by omega, .inl (seqRun_of_refused hr 0)⟩
  · exact ⟨1, le_rfl, by omega, dispatchOver_of_next hnext hhalt.over⟩
  · exact hafter hnext rfl (enterHalf_progress hi hahead hq half).1.le
  · have hlt := ho.left
    have hle := stepsLeft_le s
    exact hafter hnext ho.running (by omega)

/-- Settles O27: the steps left of a dispatch shrink with each of its steps, and behind it SEQ finds
at most a transfer error or one more half. -/
theorem dispatchEndsWithinBound : Obligations.DispatchEndsWithinBound := by
  intro s hi
  have hbound : stepsToRest s ≤ 2 * dispatchBound s.cfg := by
    have hleft := stepsLeft_le s
    have hafter := stepsAfter_le s
    simp only [stepsToRest, dispatchBound]
    omega
  have hrun := seqRun_rests _ hi hbound
  refine ⟨dispatchOver_within_bound hi, hrun.imp_left And.left, fun hacc hlast => ?_⟩
  have hfit : DurationsFit s := ⟨fun _ => by omega, fun _ => by omega⟩
  obtain ⟨t, ht, -⟩ := hrun.resolve_left fun h => h.2 hfit
  exact ⟨t, ht⟩

end Sys2Proof.Proofs
end

section
/-! PROOFS. `SCAN` answers the first difference, and a scan may be cut anywhere (40_edge_detector.md R84). -/

namespace Sys2Proof.Proofs

open Sys2Proof.Machine Sys2Proof.Claims

/-- R84 items 1 to 3 for the scan between two positions. -/
theorem scanOf_spec (s : State) {data stop : Nat} (h : data ≤ stop) (mask reference : Nat) :
    data ≤ scanOf s data stop mask reference ∧ scanOf s data stop mask reference ≤ stop ∧
    (∀ i, data ≤ i → i < scanOf s data stop mask reference →
      ppWord s i &&& mask = reference &&& mask) ∧
    (scanOf s data stop mask reference < stop →
      ppWord s (scanOf s data stop mask reference) &&& mask ≠ reference &&& mask) := by
  have hspec := scanLoop_spec s mask reference (stop - data) data
  rwa [Nat.add_sub_of_le h] at hspec

/-- The laws of R84 items 1 to 3 leave the scan one answer. -/
theorem scanOf_eq {s : State} {data stop mask reference p : Nat} (h1 : data ≤ p) (h2 : p ≤ stop)
    (h3 : ∀ i, data ≤ i → i < p → ppWord s i &&& mask = reference &&& mask)
    (h4 : p < stop → ppWord s p &&& mask ≠ reference &&& mask) :
    scanOf s data stop mask reference = p :=
  scanLoop_eq h1 (by omega) h3 fun h => h4 (by omega)

theorem exec_scan (data stop mask reference : Nat) (s : State) :
    exec (.scan data stop mask reference) s = execScan data stop mask reference s := rfl

theorem execScan_of_range {s : State} {data stop : Nat} (h1 : data ≤ stop)
    (h2 : stop ≤ 2 * s.cfg.h) (mask reference : Nat) :
    execScan data stop mask reference s =
      .next { s with out := .position (scanOf s data stop mask reference) } :=
  if_pos ⟨h1, h2⟩

theorem execScan_of_not_range {s : State} {data stop : Nat}
    (h : stop < data ∨ 2 * s.cfg.h < stop) (mask reference : Nat) :
    execScan data stop mask reference s = .refused (.scanRange data stop) :=
  if_neg (by omega)

/-- Settles O37: the laws of the scan, put out by `SCAN` within its contract. -/
theorem scanFindsFirstDifference : Obligations.ScanFindsFirstDifference := by
  intro s data stop mask reference
  rw [exec_scan]
  exact ⟨fun h1 h2 => ⟨_, execScan_of_range h1 h2 mask reference, scanOf_spec s h1 mask reference⟩,
    fun h => execScan_of_not_range h mask reference⟩

/-- Settles O38: in both cases the answer named obeys the laws of the whole scan, which leave it one
answer. -/
theorem scanSplits : Obligations.ScanSplits := by
  intro s data m stop mask reference hdata hstop
  obtain ⟨hfrom, hto, hagree, hdiffer⟩ := scanOf_spec s hdata mask reference
  constructor
  · intro hlt
    exact scanOf_eq hfrom (hto.trans hstop) hagree fun _ => hdiffer hlt
  · intro hm
    rw [hm] at hagree
    obtain ⟨hfrom', hto', hagree', hdiffer'⟩ := scanOf_spec s hstop mask reference
    refine scanOf_eq (hdata.trans hfrom') hto' (fun i hi hlt => ?_) hdiffer'
    rcases Nat.lt_or_ge i m with hbefore | hafter
    · exact hagree i hi hbefore
    · exact hagree' i hafter hlt

end Sys2Proof.Proofs
end

section
/-! SUPPORT. All the writes of a record in one state, and the positions `fatal_ctx` can hold. -/

namespace Sys2Proof.Machine

/-- All the writes of a record together (41 R94). -/
theorem finishEmission_startEmission {s : State} (hm : s.emission = none) (bs : List Byte)
    (l : Level) (p : Nat) : finishEmission bs l (startEmission bs l p s) = { s with
      eb := Memory.writeList s.eb s.bytes bs, bytes := s.bytes + bs.length, lastValue := l,
      durAcc := 0, scanPos := p + 1 } := by
  cases s
  cases hm
  rfl

/-- A position of the half fits the field `pos` of `fatal_ctx` (10 R28). -/
theorem lt_two_pow_posW {c : Config} {p : Nat} (hp : p ≤ c.h) : p < 2 ^ c.posW :=
  lt_of_le_of_lt hp (lt_two_pow_bitLen c.h)

end Sys2Proof.Machine
end

section
/-! SUPPORT. The arms of a new `ENC_STEP` at the position the statements name (41_run_length_encoder.md
R91, R92, R95, R96). -/

namespace Sys2Proof.Proofs

open Sys2Proof.Machine Sys2Proof.Claims

theorem scanArm_of_quiet {s : State} (hs : encoding s) (hquiet : quietSpan s s.scanPos s.cfg.h) :
    scanArm s = .endOfHalf (elapsed s s.cfg.h) := by
  obtain ⟨hwf, -, -, hscan, -⟩ := hs
  have hend : edgePos s = s.cfg.h := edgePos_of_stopAt hwf hscan (.inr ⟨rfl, hquiet⟩)
  rw [← hend, elapsed_edgePos]
  simp only [scanArm, if_pos hend]

theorem scanArm_of_badSync {s : State} {p : Nat} (hs : encoding s) (hp : edgeAt s p)
    (hbad : word s p &&& s.cfg.reservedMask ≠ 0) :
    scanArm s = .syncLoss (elapsed s p) p (word s p) := by
  obtain ⟨hwf, -, -, hscan, -⟩ := hs
  obtain ⟨-, hlt, -, -⟩ := id hp
  obtain rfl := edgePos_of_stopAt hwf hscan (.inl hp)
  have hbad' : ppWord s (halfBase s + edgePos s) &&& s.cfg.reservedMask ≠ 0 := hbad
  rw [elapsed_edgePos]
  simp only [scanArm, if_neg hlt.ne, if_pos hbad']
  rfl

theorem scanArm_of_full {s : State} {p : Nat} (hs : encoding s) (hp : edgeAt s p)
    (hsync : word s p &&& s.cfg.reservedMask = 0) (hfull : s.cfg.c < s.bytes + 10) :
    scanArm s = .backpressure (elapsed s p) := by
  obtain ⟨hwf, -, -, hscan, -⟩ := hs
  obtain ⟨-, hlt, -, -⟩ := id hp
  obtain rfl := edgePos_of_stopAt hwf hscan (.inl hp)
  have hsync' : ¬ (ppWord s (halfBase s + edgePos s) &&& s.cfg.reservedMask ≠ 0) := not_not.2 hsync
  have hfull' : s.cfg.c - s.bytes < maxRec := show s.cfg.c - s.bytes < 10 by omega
  rw [elapsed_edgePos]
  simp only [scanArm, if_neg hlt.ne, if_neg hsync', if_pos hfull']

/-- A new `ENC_STEP` whose duration stays in range writes what its arm writes (41 R91). -/
theorem exec_encStep_of_fits {s : State} {p : Nat} (hs : encoding s) (hp : stopAt s p)
    (hfits : fits s p) : exec .encStep s = .next (applyArm (scanArm s) s) := by
  obtain ⟨hwf, hq, hmode, hscan, hm⟩ := hs
  obtain rfl := edgePos_of_stopAt hwf hscan hp
  have hr : encRefusal s = none := encRefusal_eq_none.2 fun _ => ⟨hscan, fun _ => hfits⟩
  change encStepOutcome s = _
  simp only [encStepOutcome, hr, encStepOp_of_new ((stepEnabled_iff _ _).2 ⟨hq, hmode⟩) hm]

end Sys2Proof.Proofs
end

section
/-! PROOFS. One `ENC_STEP` in each of its arms, the two outcomes, and the encoder where it is not
enabled. -/

namespace Sys2Proof.Proofs

open Sys2Proof.Machine Sys2Proof.Claims

/-- Settles O28. -/
theorem encStepEndOfHalf : Obligations.EncStepEndOfHalf := by
  intro s hs hquiet hfits
  rw [exec_encStep_of_fits hs (.inr ⟨rfl, hquiet⟩) hfits, scanArm_of_quiet hs hquiet]
  rfl

/-- Settles O29. -/
theorem encStepEmitsRecord : Obligations.EncStepEmitsRecord := by
  intro s p hs hp hfits hsync hspace
  obtain ⟨hwf, -, -, hscan, hm⟩ := id hs
  have hexec := exec_encStep_emits hs hp
    ((emitsNext_iff_of_edgeAt hwf hscan hp).2 ⟨hsync, hspace, hfits⟩)
  rw [recordDone, recordBegun, finishEmission_startEmission hm] at hexec
  exact ⟨_, hexec, rfl, ebStored_of_writeList rfl⟩

/-- Settles O30. -/
theorem encStepThrottles : Obligations.EncStepThrottles := by
  intro s p hs hp hfits hsync hfull
  rw [exec_encStep_of_fits hs (.inl hp) hfits, scanArm_of_full hs hp hsync hfull]
  rfl

/-- Settles O31: the sync check comes before the space check, so no premise on the space is used
(41 R97). -/
theorem encStepSyncLoss : Obligations.EncStepSyncLoss := by
  intro s p hs hp hfits hw hbad
  obtain ⟨-, hlt, -, -⟩ := id hp
  refine ⟨_, exec_encStep_of_fits hs (.inl hp) hfits, ?_⟩
  rw [scanArm_of_badSync hs hp hbad]
  exact ⟨rfl, packCtx_fields (lt_two_pow_posW hlt.le) hw⟩

theorem execFatal_of_fits {s : State} {r : FatalReason} {pos w : Nat} (half : Half)
    (hr : r ≠ .none) (hpos : pos < 2 ^ s.cfg.posW) (hw : w < 2 ^ s.cfg.w) :
    execFatal r half pos w s = .next (raiseFatal r half pos w s) :=
  if_pos ⟨hr, hpos, hw⟩

/-- Settles O36. -/
theorem outcomesWriteTheirRegisters : Obligations.OutcomesWriteTheirRegisters := fun _ =>
  ⟨rfl, fun _ half _ _ hr hpos hw =>
    ⟨_, execFatal_of_fits half hr hpos hw, rfl, packCtx_fields hpos hw⟩⟩

theorem encStepOutcome_of_disabled {s : State} (he : stepEnabled s .encode = false) :
    encStepOutcome s = .next s := by
  have hr : encRefusal s = none := encRefusal_eq_none.2 fun he' => by simp [he] at he'
  simp only [encStepOutcome, hr, encStepOp_of_disabled he]

/-- `ENCODE_HALF` is entered in `S_ENCODE` on the half being processed (41 R90). -/
theorem execEncodeHalf_of_not_entered {s : State} {half : Half}
    (h : stepEnabled s .encode = false ∨ s.curHalf ≠ half) : execEncodeHalf half s = .next s := by
  refine if_neg fun hen => ?_
  rw [Bool.and_eq_true, decide_eq_true_eq] at hen
  obtain ⟨he, hhalf⟩ := hen
  rcases h with hoff | hother
  · simp [he] at hoff
  · exact hother hhalf

/-- Settles O59. -/
theorem encoderWaits : Obligations.EncoderWaits := by
  intro s
  refine ⟨fun hoff => ?_, fun half hother => execEncodeHalf_of_not_entered (.inr hother.symm)⟩
  have he : stepEnabled s .encode = false := by
    rw [Bool.eq_false_iff, ne_eq, stepEnabled_iff]
    exact not_and_or.2 hoff
  exact ⟨encStepOutcome_of_disabled he, fun half => execEncodeHalf_of_not_entered (.inl he)⟩

end Sys2Proof.Proofs
end

section
/-! SUPPORT. What the repeated `ENC_STEP`s leave, by what the big-step encoder returns
(41_run_length_encoder.md R90, R101). -/

namespace Sys2Proof.Machine

theorem Memory.writeList_append {α : Type} : ∀ (xs ys : List α) (m : List (Nat × α)) (a : Nat),
    Memory.writeList (Memory.writeList m a xs) (a + xs.length) ys = Memory.writeList m a (xs ++ ys)
  | [], _, _, _ => rfl
  | x :: xs, ys, m, a => by
    have hlen : a + (x :: xs).length = a + 1 + xs.length := by rw [List.length_cons]; omega
    rw [hlen]
    exact Memory.writeList_append xs ys (Memory.write m a x) (a + 1)

/-- `t` is what R101 says of the registers and of `EB` where `ENC_STEP`s begun in `s` have ended and
the big-step encoder returns this result; `m` was `EB`, and `a` was `bytes`, before the first of the
bytes it has put out. Of `scan_pos` R101 speaks only where the half is done. -/
def leavesBigStep (m : List Host.Cell) (a : Nat) (s t : State) : BigStep → Prop
  | .done b => b.n = a + b.out.length ∧ t = { s with
      eb := Memory.writeList m a b.out, bytes := b.n, lastValue := b.level, lastDuration := b.dur,
      durAcc := b.dur, scanPos := s.cfg.h, seqState := .clear }
  | .throttled b => b.n = a + b.out.length ∧ ∃ pos, t = { s with
      eb := Memory.writeList m a b.out, bytes := b.n, lastValue := b.level, lastDuration := b.dur,
      durAcc := b.dur, scanPos := pos, irqEn := false, mode := .suspended, seqState := .idle }
  | .syncLoss j w b => b.n = a + b.out.length ∧ ∃ pos, t = { s with
      eb := Memory.writeList m a b.out, bytes := b.n, lastValue := b.level, durAcc := b.dur,
      scanPos := pos, mode := .fatal, fatalReason := .syncLoss,
      fatalCtx := packCtx s.cfg s.curHalf j w }
  | .tooLong => True

/-- A record emitted on the way changes no register that the result does not fix. -/
theorem leavesBigStep_of_emitted {m : List Host.Cell} {a p : Nat} {s t : State} {bs : List Byte}
    {l : Level} (hm : s.emission = none) : ∀ {r : BigStep},
    leavesBigStep m a (finishEmission bs l (startEmission bs l p s)) t r → leavesBigStep m a s t r
  | .done _, h => by rwa [finishEmission_startEmission hm] at h
  | .throttled _, h => by rwa [finishEmission_startEmission hm] at h
  | .syncLoss _ _ _, h => by rwa [finishEmission_startEmission hm] at h
  | .tooLong, _ => trivial

/-- An `ENC_STEP` that leaves `S_ENCODE`, or mode RUNNING, is the last one that does anything. -/
theorem encLoop_of_last {s : State} {arm : EncArm} (n : Nat) (he : stepEnabled s .encode = true)
    (hm : s.emission = none) (harm : scanArm s = arm)
    (hlast : stepEnabled (applyArm arm s) .encode = false) :
    encLoop (n + 1) s = applyArm arm s := by
  rw [encLoop, encStepOp_of_new he hm, harm, encLoop_of_disabled n hlast]

/-- With rounds enough for the rest of the half, the `ENC_STEP`s leave what the big-step encoder
returns; each step is one stretch of it (`bigRest_eq_bigArm`). -/
theorem leavesBigStep_encLoop {m : List Host.Cell} {a : Nat} : ∀ (n : Nat) {s : State}
    (out : List Byte), s.cfg.WF → stepEnabled s .encode = true → s.emission = none →
    s.scanPos ≤ s.cfg.h → s.cfg.h - s.scanPos < n → s.eb = Memory.writeList m a out →
    s.bytes = a + out.length → leavesBigStep m a s (encLoop n s) (bigRest s out)
  | 0, _, _, _, _, _, _, hn, _, _ => absurd hn (Nat.not_lt_zero _)
  | n + 1, s, out, hwf, he, hm, hs, hn, heb, hbytes => by
    rw [bigRest_eq_bigArm hwf hs]
    by_cases hd : durationFits s
    · rw [if_pos hd]
      cases harm : scanArm s with
      | endOfHalf d =>
        rw [encLoop_of_last n he hm harm (by simp [applyArm, stepEnabled])]
        exact ⟨hbytes, by rw [← heb]; rfl⟩
      | syncLoss d p w =>
        rw [encLoop_of_last n he hm harm (by simp [applyArm, stepEnabled])]
        exact ⟨hbytes, s.scanPos, by rw [← heb]; rfl⟩
      | backpressure d =>
        rw [encLoop_of_last n he hm harm (by simp [applyArm, stepEnabled])]
        exact ⟨hbytes, s.scanPos, by rw [← heb]; rfl⟩
      | emit bs l p =>
        obtain ⟨rfl, hne, -⟩ := scanArm_emit harm
        have hge := (edgePos_spec hwf hs).1
        have hle := edgePos_le hs
        have heb' : Memory.writeList s.eb s.bytes bs = Memory.writeList m a (out ++ bs) := by
          rw [heb, hbytes, Memory.writeList_append]
        have hbytes' : s.bytes + bs.length = a + (out ++ bs).length := by
          rw [hbytes, List.length_append, Nat.add_assoc]
        rw [encLoop, encStepOp_of_new he hm, harm]
        exact leavesBigStep_of_emitted hm (leavesBigStep_encLoop n (out ++ bs) hwf
          ((stepEnabled_iff _ _).2 ((stepEnabled_iff s .encode).1 he)) rfl
          (show edgePos s + 1 ≤ s.cfg.h by omega)
          (show s.cfg.h - (edgePos s + 1) < n by omega) heb' hbytes')
      | finish bs l => exact absurd harm (scanArm_ne_finish s bs l)
    · rw [if_neg hd]
      trivial

/-- Begun inside the half, `ENC_STEP`s are refused for no reason but the duration: `scan_pos` stays
inside. -/
theorem encLoopRefusal_cases : ∀ (n : Nat) {s : State}, s.scanPos ≤ s.cfg.h →
    encLoopRefusal n s = none ∨ encLoopRefusal n s = some .durationOverflow
  | 0, _, _ => .inl rfl
  | n + 1, s, hs => by
    by_cases hr : encRefusal s = none
    · rw [encLoopRefusal_of_taken n hr]
      obtain ⟨hcfg, -⟩ := encStepOp_frame s
      exact encLoopRefusal_cases n (by rw [hcfg]; exact encStepOp_scanPos hs (edgePos_le hs))
    · rw [encRefusal_eq_none, Classical.not_imp, not_and, Classical.not_imp] at hr
      obtain ⟨he, hfail⟩ := hr
      obtain ⟨hm, hd⟩ := hfail hs
      exact .inr (encLoopRefusal_of_refusal n (encRefusal_overflow.2 ⟨he, hs, hm, hd⟩))

theorem bigEncode_half_eq_bigRest {s : State} (h : s.scanPos = 0) :
    bigEncode s.cfg (halfWords s s.curHalf) 0
      { out := [], n := s.bytes, level := s.lastValue, dur := s.durAcc } = bigRest s [] := by
  rw [bigRest, h, halfWords_eq_wordsFrom]

end Sys2Proof.Machine
end

section
/-! PROOFS. `ENCODE_HALF` is the big-step encoder over the half. -/

namespace Sys2Proof.Proofs

open Sys2Proof.Machine Sys2Proof.Claims

theorem encodeHalf_of_tooLong {s : State} (hs : encoding s) (hbig : bigRest s [] = .tooLong) :
    exec (.encodeHalf s.curHalf) s = .refused .durationOverflow := by
  obtain ⟨hwf, hq, hmode, hscan, hm⟩ := hs
  have he : stepEnabled s .encode = true := (stepEnabled_iff _ _).2 ⟨hq, hmode⟩
  have hr : encLoopRefusal (s.cfg.h + 1) s = some .durationOverflow :=
    (encLoopRefusal_iff_tooLong _ [] hwf he hm hscan (by omega)).2 hbig
  change execEncodeHalf s.curHalf s = _
  simp only [execEncodeHalf, he, decide_true, Bool.and_self, if_true, hr]

/-- Where the big-step encoder returns, `ENCODE_HALF` answers a next state that holds what it
returns. -/
theorem encodeHalf_leavesBigStep {s : State} {r : BigStep} (hs : encoding s)
    (hbig : bigRest s [] = r) (hret : r ≠ .tooLong) :
    ∃ t, exec (.encodeHalf s.curHalf) s = .next (answer (.encoded (encodeOutcome t)) t) ∧
      leavesBigStep s.eb s.bytes s t r := by
  subst hbig
  obtain ⟨hwf, hq, hmode, hscan, hm⟩ := hs
  have he : stepEnabled s .encode = true := (stepEnabled_iff _ _).2 ⟨hq, hmode⟩
  have hrounds : s.cfg.h - s.scanPos < s.cfg.h + 1 := by omega
  have hr : encLoopRefusal (s.cfg.h + 1) s = none :=
    (encLoopRefusal_cases _ hscan).resolve_right fun hover =>
      hret ((encLoopRefusal_iff_tooLong _ [] hwf he hm hscan hrounds).1 hover)
  refine ⟨encLoop (s.cfg.h + 1) s, ?_, leavesBigStep_encLoop _ [] hwf he hm hscan hrounds rfl rfl⟩
  change execEncodeHalf s.curHalf s = _
  simp only [execEncodeHalf, he, decide_true, Bool.and_self, if_true, hr]

/-- Settles O32: by what the big-step encoder returns, from the induction over the `ENC_STEP`s in
`leavesBigStep_encLoop`. -/
theorem encodeHalfIsBigStep : Obligations.EncodeHalfIsBigStep := by
  intro s hs h0 _
  rw [bigEncode_half_eq_bigRest h0]
  obtain ⟨-, -, hmode, -, -⟩ := id hs
  cases hbig : bigRest s [] with
  | tooLong => exact encodeHalf_of_tooLong hs hbig
  | done b =>
    obtain ⟨t, hexec, hn, rfl⟩ := encodeHalf_leavesBigStep hs hbig nofun
    exact ⟨_, hexec, by simp [answer, encodeOutcome, hmode], ebStored_of_writeList rfl, hn⟩
  | throttled b =>
    obtain ⟨t, hexec, hn, pos, rfl⟩ := encodeHalf_leavesBigStep hs hbig nofun
    exact ⟨_, hexec, rfl, ebStored_of_writeList rfl, hn⟩
  | syncLoss j w b =>
    obtain ⟨t, hexec, hn, pos, rfl⟩ := encodeHalf_leavesBigStep hs hbig nofun
    exact ⟨_, hexec, rfl, ebStored_of_writeList rfl, hn⟩

theorem bigRest_of_quiet {s : State} (hs : encoding s) (hquiet : quietSpan s s.scanPos s.cfg.h)
    (hfits : fits s s.cfg.h) : bigRest s [] = .done
      { out := [], n := s.bytes, level := s.lastValue, dur := elapsed s s.cfg.h } := by
  obtain ⟨hwf, -, -, hscan, -⟩ := id hs
  have hend : edgePos s = s.cfg.h := edgePos_of_stopAt hwf hscan (.inr ⟨rfl, hquiet⟩)
  have hd : durationFits s := by rw [durationFits, hend]; exact hfits
  rw [bigRest_eq_bigArm hwf hscan, if_pos hd, scanArm_of_quiet hs hquiet]
  rfl

theorem elapsed_toNat {s : State} {p : Nat} (hfits : fits s p) :
    (elapsed s p).toNat = s.durAcc.toNat + (p - s.scanPos) := by
  rw [elapsed, BitVec.toNat_ofNat, Nat.mod_eq_of_lt hfits]

/-- Settles O33: the big-step encoder returns at the end of the half with nothing put out. -/
theorem encodeHalfWithoutEdge : Obligations.EncodeHalfWithoutEdge := by
  intro s hs h0 hquiet hlt
  obtain ⟨-, -, hmode, -, -⟩ := id hs
  have hfits : fits s s.cfg.h := by rw [fits, h0]; exact hlt
  have hbig := bigRest_of_quiet hs (by rwa [h0]) hfits
  obtain ⟨t, hexec, -, rfl⟩ := encodeHalf_leavesBigStep hs hbig nofun
  refine ⟨elapsed s s.cfg.h, by rw [elapsed_toNat hfits, h0, Nat.sub_zero], ?_⟩
  rw [hexec]
  simp [answer, encodeOutcome, hmode, Memory.writeList]

end Sys2Proof.Proofs
end

section
/-! SUPPORT. The varint both ways (42_varint_encoder.md R114, R117): `VDEC` on the bytes `VENC` wrote,
and `VENC` on the value of the bytes `VDEC` accepts. -/

namespace Sys2Proof.Machine

/-- `VDEC` reads a value where its record stands, whatever bytes stand around it (42 R117). -/
theorem vdecOf_vencOf {v : Value} {before after : List Byte} {n : Nat}
    (hn : before.length + (vencOf v).length ≤ n) :
    vdecOf (before ++ vencOf v ++ after) before.length n =
      some (v, before.length + vlenOf v) := by
  obtain ⟨hpos, hle, hlt, -⟩ := vlenOf_spec v
  have hbytes : ∀ i, i < vlenOf v → (before ++ vencOf v ++ after)[before.length + 0 + i]? =
      (recordBytes (vlenOf v) v.toNat)[i]? := fun i hi => by
    rw [List.append_assoc, List.getElem?_append_right (by omega),
      List.getElem?_append_left (by simp; omega), vencOf_eq]
    congr 1
    omega
  rw [vencOf_length] at hn
  rw [vdecOf, vdecLoop_recordBytes _ _ n (vlenOf v) 0 11 v.toNat 0 hpos (by omega) (by omega) hn
    hbytes (by simp) hlt ((vlenOf_top v).imp_left fun h1 => ⟨rfl, h1⟩) (by simpa using v.isLt)]
  simp

/-- The record of `k` bytes with the value `u` stands in `bs` from index `p` on. -/
def recordAt (bs : List Byte) (p k u : Nat) : Prop :=
  ∀ i, i < k → bs[p + i]? = (recordBytes k u)[i]?

theorem recordAt_one {bs : List Byte} {p : Nat} {b : Byte} (hb : bs[p]? = some b)
    (hlast : b.toNat < 128) : recordAt bs p 1 b.toNat := fun i hi => by
  obtain rfl : i = 0 := by omega
  simp [recordBytes, hb, Nat.mod_eq_of_lt hlast]

/-- A byte with the continuation bit in front of a record is a record with one more group. -/
theorem recordAt_cons {bs : List Byte} {p k u : Nat} {b : Byte} (hk : 1 ≤ k)
    (hb : bs[p]? = some b) (hmore : 128 ≤ b.toNat) (hrest : recordAt bs (p + 1) k u) :
    recordAt bs p (k + 1) (b.toNat % 128 + 128 * u) := fun i hi => by
  obtain ⟨k, rfl⟩ := Nat.exists_eq_add_of_le' hk
  rw [recordBytes_succ_succ]
  cases i with
  | zero =>
    have hbyte : 128 + (b.toNat % 128 + 128 * u) % 128 = b.toNat := by
      have := b.isLt
      omega
    rw [hbyte, Nat.add_zero, hb]
    simp
  | succ i =>
    have hu : (b.toNat % 128 + 128 * u) / 128 = u := by omega
    rw [hu, List.getElem?_cons_succ, ← hrest i (by omega), Nat.add_right_comm, Nat.add_assoc]

theorem eq_recordBytes_of_recordAt {bs : List Byte} {u : Nat} (h : recordAt bs 0 bs.length u) :
    bs = recordBytes bs.length u := by
  refine List.ext_getElem? fun i => ?_
  rcases Nat.lt_or_ge i bs.length with hi | hi
  · simpa using h i hi
  · rw [List.getElem?_eq_none hi, List.getElem?_eq_none (by simpa using hi)]

/-- The last `k` groups of a record of minimum length, with `j` groups before them, make `u`: the
top one is not 0 unless it is the only one (42 R111), and a tenth is 1 at most (42 R112). -/
structure TopGroups (j k u : Nat) : Prop where
  pos : 1 ≤ k
  count : j + k ≤ 10
  lt : u < 128 ^ k
  top : j = 0 ∧ k = 1 ∨ 128 ^ (k - 1) ≤ u
  tenth : j + k = 10 → u < 2 * 128 ^ (k - 1)

/-- The last group that `VDEC` accepts. -/
theorem TopGroups.last {j : Nat} {b : Byte} (hj : j ≤ 9) (hlast : b.toNat < 128)
    (hzero : 1 ≤ j → b ≠ 0) (htenth : j = 9 → b = 1) : TopGroups j 1 b.toNat where
  pos := le_refl 1
  count := by omega
  lt := by simpa using hlast
  top := by
    rcases Nat.eq_zero_or_pos j with h0 | h1
    · exact .inl ⟨h0, rfl⟩
    · have hne : b.toNat ≠ 0 := fun h => hzero h1 (BitVec.eq_of_toNat_eq h)
      exact .inr (Nat.one_le_iff_ne_zero.2 hne)
  tenth := fun h10 => by
    rw [htenth (by omega)]
    decide

theorem TopGroups.cons {j k u g : Nat} (h : TopGroups (j + 1) k u) (hg : g < 128) :
    TopGroups j (k + 1) (g + 128 * u) := by
  obtain ⟨hpos, hcount, hlt, htop, htenth⟩ := h
  obtain ⟨k, rfl⟩ := Nat.exists_eq_add_of_le' hpos
  rw [Nat.add_sub_cancel] at htop htenth
  have hpow : 128 ^ (k + 1) = 128 * 128 ^ k := Nat.pow_succ'
  have hpow' : 128 ^ (k + 2) = 128 * 128 ^ (k + 1) := Nat.pow_succ'
  have hge : 128 ^ k ≤ u := htop.resolve_left (by omega)
  exact ⟨by omega, by omega, by omega, .inr (by rw [Nat.add_sub_cancel]; omega),
    fun h10 => by have := htenth (by omega); rw [Nat.add_sub_cancel]; omega⟩

theorem TopGroups.lt_two_pow {k u : Nat} (h : TopGroups 0 k u) : u < 2 ^ 64 := by
  obtain ⟨-, hcount, hlt, -, htenth⟩ := h
  rcases Nat.lt_or_ge k 10 with hk | hk
  · have : 128 ^ k ≤ 128 ^ 9 := Nat.pow_le_pow_right (by decide) (by omega)
    omega
  · obtain rfl : k = 10 := by omega
    exact htenth rfl

/-- A record of minimum length is what `VENC` writes for its value. -/
theorem TopGroups.recordBytes_eq_vencOf {k u : Nat} (h : TopGroups 0 k u) :
    recordBytes k u = vencOf (BitVec.ofNat 64 u) := by
  have hval : (BitVec.ofNat 64 u).toNat = u := by
    rw [BitVec.toNat_ofNat, Nat.mod_eq_of_lt h.lt_two_pow]
  have hlen : vlenOf (BitVec.ofNat 64 u) = k :=
    vlenOf_eq_of_range h.pos (hval.symm ▸ h.lt) (hval.symm ▸ h.top.imp_left And.right)
  rw [vencOf_eq, hlen, hval]

/-- The converse of `vdecLoop_recordBytes`: the bytes that `VDEC` takes from its round `j` on are
the rest of a record of minimum length. -/
theorem recordAt_of_vdecLoop {bs : List Byte} {a n : Nat} : ∀ (fuel j : Nat) {v : Value}
    {r : Value × Nat}, j ≤ 10 → vdecLoop bs a n fuel j v = some r →
    ∃ k u, r.2 = a + (j + k) ∧ recordAt bs (a + j) k u ∧ TopGroups j k u
  | 0, _, _, _, _, h => by cases h
  | fuel + 1, j, v, r, hj, h => by
    simp only [vdecLoop] at h
    split at h
    · cases h
    split at h
    · cases h
    rename_i h10
    split at h
    · cases h
    rename_i b hb
    split at h
    · cases h
    rename_i htenth
    split at h
    · rename_i hlast
      split at h
      · cases h
      rename_i hzero
      cases h
      exact ⟨1, b.toNat, rfl, recordAt_one hb hlast, .last (by omega) hlast
        (fun h1 h0 => hzero ⟨by omega, h0⟩) fun h9 => not_not.1 fun h1 => htenth ⟨h9, h1⟩⟩
    · rename_i hmore
      obtain ⟨k, u, hend, hrest, htop⟩ := recordAt_of_vdecLoop fuel (j + 1) (by omega) h
      exact ⟨k + 1, b.toNat % 128 + 128 * u, by omega,
        recordAt_cons htop.pos hb (Nat.not_lt.1 hmore) hrest,
        htop.cons (Nat.mod_lt _ (by decide))⟩

/-- Bytes that `VDEC` accepts as a whole are what `VENC` writes for the value it answers. -/
theorem eq_vencOf_of_vdecOf {bs : List Byte} {v : Value}
    (h : vdecOf bs 0 bs.length = some (v, bs.length)) : bs = vencOf v := by
  obtain ⟨k, u, hend, hrec, htop⟩ := recordAt_of_vdecLoop 11 0 (Nat.zero_le _) h
  obtain rfl : k = bs.length := by simpa using hend.symm
  have hbs : bs = vencOf (BitVec.ofNat 64 u) :=
    (eq_recordBytes_of_recordAt hrec).trans htop.recordBytes_eq_vencOf
  have hdec : vdecOf bs 0 bs.length = some (BitVec.ofNat 64 u, 0 + vlenOf (BitVec.ofNat 64 u)) := by
    have := vdecOf_vencOf (v := BitVec.ofNat 64 u) (before := []) (after := []) (n := bs.length)
      (by rw [← hbs]; simp)
    rwa [List.nil_append, List.append_nil, ← hbs] at this
  rw [h, Option.some.injEq, Prod.mk.injEq] at hdec
  rwa [hdec.1]

theorem execVdec_of_some {bs : List Byte} {a n next : Nat} {v : Value}
    (h : vdecOf bs a n = some (v, next)) (s : State) :
    execVdec bs a n s = .next { s with out := .value v next } := by
  rw [execVdec, h]
  rfl

/-- `VDEC` answers a value and an index only where `vdecOf` does. -/
theorem vdecOf_of_execVdec {bs : List Byte} {a n next : Nat} {v : Value} {s : State}
    (h : execVdec bs a n s = .next { s with out := .value v next }) :
    vdecOf bs a n = some (v, next) := by
  cases hdec : vdecOf bs a n with
  | none =>
    rw [execVdec_of_none hdec] at h
    injection h with h
    cases congrArg State.out h
  | some r =>
    rw [execVdec_of_some hdec] at h
    injection h with h
    cases congrArg State.out h
    rfl

end Sys2Proof.Machine
end

section
/-! PROOFS. The varint encoder: its length, its inverse, and the appending of its bytes. -/

namespace Sys2Proof.Proofs

open Sys2Proof.Machine Sys2Proof.Claims

/-- Settles O43: `VDEC` reads back what `VENC` wrote, and what it takes is a record of minimum
length. -/
theorem vdecInvertsVenc : Obligations.VdecInvertsVenc := fun s =>
  ⟨fun _ _ _ _ _ hn => execVdec_of_some (vdecOf_vencOf hn) s,
    fun _ _ h => eq_vencOf_of_vdecOf (vdecOf_of_execVdec h)⟩

/-- `PARSE` of whole records, one after another, answers what each of them says, by
induction with the last record split off, as `parseOf_append` does (42 R118). -/
theorem parseOf_flatMap_recordOf (l : List (Duration × Level)) :
    parseOf (l.flatMap fun r => recordOf r.1 r.2)
      (l.flatMap fun r => recordOf r.1 r.2).length = some l := by
  induction l using List.reverseRecOn with
  | nil => rfl
  | append_singleton l r ih =>
    rw [List.flatMap_append, List.flatMap_singleton, recordOf_eq_vencOf, parseOf_append _ ih,
      durationOf_recordValueOf, levelOfValue_recordValueOf]

/-- Settles O45: `PARSE` reads one record after another. -/
theorem parseInvertsRecords : Obligations.ParseInvertsRecords := by
  intro s l
  change execParse _ _ s = _
  rw [execParse, parseOf_flatMap_recordOf]
  rfl

/-- Settles O40: `VLEN` counts groups of 7 bits, and nine of them hold 63 bits. -/
theorem vlenIsLeastLength : Obligations.VlenIsLeastLength := by
  intro s v
  obtain ⟨hpos, hle, hlt, hmin⟩ := vlenOf_spec v
  have hpow : ∀ k, 2 ^ (7 * k) = 128 ^ k := fun k => Nat.pow_mul 2 7 k
  simp only [hpow]
  refine ⟨vlenOf v, rfl, hpos, hle, hlt, hmin, fun h10 => ?_, fun hge => ?_⟩
  · by_contra hc
    have := hmin 9 (by decide) (by omega)
    omega
  · by_contra hne
    have : 128 ^ vlenOf v ≤ 128 ^ 9 := Nat.pow_le_pow_right (by decide) (by omega)
    omega

/-- Settles O42: `VDEC` reads one value and one length at the start of the same bytes. -/
theorem vencIsSelfDelimiting : Obligations.VencIsSelfDelimiting := by
  intro v v' tail tail' h
  have hv : vdecOf (vencOf v ++ tail) 0 (vencOf v ++ tail).length = some (v, 0 + vlenOf v) :=
    vdecOf_vencOf (before := []) (by simp)
  have hv' : vdecOf (vencOf v' ++ tail') 0 (vencOf v' ++ tail').length =
      some (v', 0 + vlenOf v') :=
    vdecOf_vencOf (before := []) (by simp)
  rw [h, hv', Option.some.injEq, Prod.mk.injEq] at hv
  obtain ⟨rfl, -⟩ := hv
  exact ⟨rfl, List.append_cancel_left h⟩

/-- Settles O35: the guard of `EBAPPEND` is its precondition, and its bytes are a list written into
`EB`. -/
theorem ebappendAppends : Obligations.EbappendAppends := by
  intro s bs
  refine ⟨fun hpos hle hroom => ⟨appendBytes bs s, ?_, rfl, ebStored_of_writeList rfl⟩,
    fun hout => ?_⟩
  · have hfree : 10 ≤ s.cfg.c - s.bytes := by omega
    exact if_pos ⟨hpos, hle, hfree⟩
  · refine if_neg fun ⟨hpos, (hle : bs.length ≤ 10), (hfree : 10 ≤ s.cfg.c - s.bytes)⟩ => ?_
    omega

end Sys2Proof.Proofs
end

section
/-! SUPPORT. The events of the sample_buffer_controller under and outside their guards, and a list
of samples taken one after another (43_sample_buffer_controller.md R125, R128 to R130). -/

namespace Sys2Proof.Machine

/-- `ARM` waits for `S_IDLE` and is never taken in FATAL (43 R125). -/
theorem armEnabled_iff (s : State) :
    armEnabled s = true ↔ s.seqState = .idle ∧ s.mode ≠ .fatal := by
  simp only [armEnabled, Bool.and_eq_true, decide_eq_true_eq]

theorem exec_arm_of_enabled {s : State} (h : armEnabled s = true) :
    exec .arm s = .next { s with
      wrPtr := 0, ht := false, tc := false, err := false, bytes := 0, lastDuration := 0,
      mode := .armed, irqEn := true, out := .armAck } := if_pos h

theorem exec_arm_of_disabled {s : State} (h : armEnabled s ≠ true) : exec .arm s = .next s :=
  if_neg h

/-- The DMA is off in IDLE and FATAL (43 R128, R130). -/
theorem not_modeSamples_of_away {m : Mode} (h : m = .idle ∨ m = .fatal) :
    modeSamples m ≠ true := by
  rcases h with rfl | rfl <;> decide

theorem exec_dmaerr_of_samples {s : State} (h : modeSamples s.mode = true) :
    exec .dmaerr s = .next { s with err := true } := if_pos h

theorem exec_dmaerr_of_not_samples {s : State} (h : modeSamples s.mode ≠ true) :
    exec .dmaerr s = .next s := if_neg h

section
variable {s : State} {w : SampleWord}

theorem exec_smp_of_samples (hw : w < 2 ^ s.cfg.w) (hm : modeSamples s.mode = true)
    (hp : s.wrPtr < 2 * s.cfg.h) : exec (.smp w) s = .next (sampleOp w s) := by
  change execSmp w s = _
  rw [execSmp, if_neg (Nat.not_le.2 hw), if_pos hm, if_pos hp]

theorem exec_smp_of_not_samples (hw : w < 2 ^ s.cfg.w) (hm : modeSamples s.mode ≠ true) :
    exec (.smp w) s = .next s := by
  change execSmp w s = _
  rw [execSmp, if_neg (Nat.not_le.2 hw), if_neg hm]

theorem exec_smp_of_wide (hw : 2 ^ s.cfg.w ≤ w) : exec (.smp w) s = .refused (.wordTooWide w) :=
  if_pos hw

end

/-! ### A list of samples -/

/-- The effect of a list of sample ticks, the first word first. -/
def sampleAll (ws : List SampleWord) (s : State) : State :=
  ws.foldl (fun t w => sampleOp w t) s

theorem sampleAll_cons (w : SampleWord) (ws : List SampleWord) (s : State) :
    sampleAll (w :: ws) s = sampleAll ws (sampleOp w s) := rfl

theorem sampleAll_concat (ws : List SampleWord) (w : SampleWord) (s : State) :
    sampleAll (ws ++ [w]) s = sampleOp w (sampleAll ws s) := by
  simp only [sampleAll, List.foldl_append, List.foldl_cons, List.foldl_nil]

/-- Samples write `PP`, the pointer, the sync line and the two flags, nothing else (43 R128). -/
theorem sampleAll_frame : ∀ (ws : List SampleWord) (s : State),
    sampleAll ws s = { s with
      pp := (sampleAll ws s).pp, wrPtr := (sampleAll ws s).wrPtr,
      syncOut := (sampleAll ws s).syncOut, ht := (sampleAll ws s).ht, tc := (sampleAll ws s).tc }
  | [], _ => rfl
  | w :: ws, s => sampleAll_frame ws (sampleOp w s)

@[simp] theorem sampleAll_cfg (ws : List SampleWord) (s : State) :
    (sampleAll ws s).cfg = s.cfg := by
  rw [sampleAll_frame]

/-- A sample keeps its own guard, so a whole list is taken (43 R128). -/
theorem runOps_smp : ∀ (ws : List SampleWord) {s : State}, modeSamples s.mode = true →
    s.wrPtr < 2 * s.cfg.h → (∀ w ∈ ws, w < 2 ^ s.cfg.w) →
    Claims.runOps (ws.map Instr.smp) s = some (sampleAll ws s)
  | [], _, _, _, _ => rfl
  | w :: ws, s, hm, hp, hws => by
    have hnext : (sampleOp w s).wrPtr < 2 * (sampleOp w s).cfg.h :=
      Nat.mod_lt _ (Nat.zero_lt_of_lt hp)
    rw [List.map_cons, Claims.runOps, exec_smp_of_samples (hws w List.mem_cons_self) hm hp,
      sampleAll_cons]
    exact runOps_smp ws hm hnext fun v hv => hws v (List.mem_cons_of_mem _ hv)

/-- The sync line is inverted at each sample (10 R19). -/
theorem sampleAll_syncOut (ws : List SampleWord) (s : State) :
    (sampleAll ws s).syncOut = (s.syncOut ^^ decide (ws.length % 2 = 1)) := by
  induction ws using List.reverseRecOn with
  | nil => simp [sampleAll]
  | append_singleton ws w ih =>
    rw [sampleAll_concat, sampleOp_syncOut, ih, List.length_append, List.length_singleton]
    rcases Nat.mod_two_eq_zero_or_one ws.length with h | h <;> simp [Nat.add_mod, h]

/-- The end `k` of a half is behind sample `n` when it was before, or when that sample is in the
slot before it: the first time around, pointer and count agree. -/
theorem le_succ_iff_mod {k m : Nat} (hk : k ≤ m) (n : Nat) :
    k ≤ n + 1 ↔ k ≤ n ∨ n % m + 1 = k := by
  have hle : n % m ≤ n := Nat.mod_le n m
  constructor
  · intro h
    rcases Nat.lt_or_ge n k with hn | hn
    · exact .inr (by rw [Nat.mod_eq_of_lt (hn.trans_le hk)]; omega)
    · exact .inl hn
  · omega

/-- Two samples less than a buffer apart are in different slots (43 R129). -/
theorem mod_ne_mod_of_lt {j n m : Nat} (hj : j < n) (hn : n < j + m) : j % m ≠ n % m := by
  intro h
  have hzero : (n - j) % m = 0 := Nat.sub_mod_eq_zero_of_mod_eq h.symm
  rw [Nat.mod_eq_of_lt (by omega)] at hzero
  omega

section
variable {s : State} (hp : s.wrPtr = 0)
include hp

/-- From slot 0, sample `j` goes to slot `j mod 2H` (43 R129). -/
theorem sampleAll_wrPtr (ws : List SampleWord) :
    (sampleAll ws s).wrPtr = ws.length % (2 * s.cfg.h) := by
  induction ws using List.reverseRecOn with
  | nil => exact hp.trans (Nat.zero_mod _).symm
  | append_singleton ws w ih =>
    rw [sampleAll_concat, sampleOp_wrPtr, ih, sampleAll_cfg, Nat.mod_add_mod, List.length_append,
      List.length_singleton]

/-- `HT` is set once half 0 is full (10 R21, 43 R129). -/
theorem sampleAll_ht (hc : 0 < s.cfg.h) (ws : List SampleWord) :
    (sampleAll ws s).ht = (s.ht || decide (s.cfg.h ≤ ws.length)) := by
  induction ws using List.reverseRecOn with
  | nil => simp [sampleAll, hc.ne']
  | append_singleton ws w ih =>
    have hend := le_succ_iff_mod (show s.cfg.h ≤ 2 * s.cfg.h by omega) ws.length
    simp only [sampleAll_concat, sampleOp_ht, ih, sampleAll_cfg, sampleAll_wrPtr hp,
      List.length_append, List.length_singleton, hend, Bool.decide_or, Bool.or_assoc]

/-- `TC` is set once half 1 is full (10 R22, 43 R129). -/
theorem sampleAll_tc (hc : 0 < s.cfg.h) (ws : List SampleWord) :
    (sampleAll ws s).tc = (s.tc || decide (2 * s.cfg.h ≤ ws.length)) := by
  induction ws using List.reverseRecOn with
  | nil => simp [sampleAll, hc.ne']
  | append_singleton ws w ih =>
    have hend := le_succ_iff_mod (Nat.le_refl (2 * s.cfg.h)) ws.length
    simp only [sampleAll_concat, sampleOp_tc, ih, sampleAll_cfg, sampleAll_wrPtr hp,
      List.length_append, List.length_singleton, hend, Bool.decide_or, Bool.or_assoc]

/-- A sample among the last `2H` is still in its slot (43 R129). -/
theorem sampleAll_read_of_recent (ws : List SampleWord) : ∀ {j : Nat} {w : SampleWord},
    ws[j]? = some w → ws.length ≤ j + 2 * s.cfg.h →
    Memory.read (sampleAll ws s).pp (j % (2 * s.cfg.h)) = some w := by
  induction ws using List.reverseRecOn with
  | nil => intro j w hw; cases hw
  | append_singleton ws x ih =>
    intro j w hw hrecent
    rw [List.length_append, List.length_singleton] at hrecent
    rw [sampleAll_concat, sampleOp_pp, Memory.read_write, sampleAll_wrPtr hp]
    rcases Nat.lt_or_ge j ws.length with hj | hj
    · rw [List.getElem?_append_left hj] at hw
      rw [if_neg (mod_ne_mod_of_lt hj hrecent)]
      exact ih hw (by omega)
    · obtain ⟨hlt, hx⟩ := List.getElem?_eq_some_iff.1 hw
      rw [List.length_append, List.length_singleton] at hlt
      obtain rfl : j = ws.length := by omega
      rw [if_pos rfl, ← hx, List.getElem_concat_length rfl]

/-- A slot that no sample went to reads as before (43 R129). -/
theorem sampleAll_read_of_untouched {i : Nat} (ws : List SampleWord) :
    (∀ j, j < ws.length → i ≠ j % (2 * s.cfg.h)) →
    Memory.read (sampleAll ws s).pp i = Memory.read s.pp i := by
  induction ws using List.reverseRecOn with
  | nil => exact fun _ => rfl
  | append_singleton ws x ih =>
    intro hout
    rw [List.length_append, List.length_singleton] at hout
    rw [sampleAll_concat, sampleOp_pp, Memory.read_write, sampleAll_wrPtr hp,
      if_neg (hout _ (Nat.lt_succ_self _))]
    exact ih fun j hj => hout j (Nat.lt_succ_of_lt hj)

end

/-! ### Reading `EB` -/

/-- `RDEB` answers the byte as HOST sees it (43 R133). -/
theorem exec_rdeb_of_lt {s : State} {a : Nat} (h : a < s.cfg.c) :
    exec (.rdeb a) s = .next { s with out := .byte (ebByte (hostView s) a) } := if_pos h

theorem exec_rdeb_of_ge {s : State} {a : Nat} (h : s.cfg.c ≤ a) :
    exec (.rdeb a) s = .refused (.ebAddress a) := if_neg (Nat.not_lt.2 h)

/-- A valid byte that has been written is the one stored (43 R133). -/
theorem ebByte_of_read {s : State} {a : Nat} {v : Byte} (h : a < s.bytes)
    (hv : Memory.read s.eb a = some v) : ebByte s a = v := by
  rw [ebByte_of_lt h, hv, Option.getD_some]

/-- `EBAPPEND` stores byte `j` of its bytes at `bytes + j` (42 R113). -/
theorem ebByte_appendBytes {s : State} {bs : List Byte} {a : Nat} {v : Byte} (ha : s.bytes ≤ a)
    (hv : bs[a - s.bytes]? = some v) : ebByte (appendBytes bs s) a = v := by
  obtain ⟨hlt, -⟩ := List.getElem?_eq_some_iff.1 hv
  have hvalid : a < s.bytes + bs.length := by omega
  refine ebByte_of_read hvalid ?_
  rw [appendBytes, Memory.read_writeList, if_pos ⟨ha, hvalid⟩, hv]

end Sys2Proof.Machine
end

section
/-! PROOFS. The sample_buffer_controller: what its events write, and the position law. -/

namespace Sys2Proof.Proofs

open Sys2Proof.Machine Sys2Proof.Claims

/-- Settles O19: a list of samples is taken whole, and each clause is an induction with the last
sample split off. -/
theorem samplePositionLaw : Obligations.SamplePositionLaw := by
  intro s ws ⟨_, _, _, _, _, (hh : 1 ≤ s.cfg.h)⟩ hm hp hws
  refine ⟨sampleAll ws s, runOps_smp ws ((modeSamples_iff _).2 hm) (by omega) hws,
    sampleAll_wrPtr hp ws, sampleAll_syncOut ws s, sampleAll_ht hp hh ws, sampleAll_tc hp hh ws,
    fun j w => sampleAll_read_of_recent hp ws, fun i => sampleAll_read_of_untouched hp ws,
    sampleAll_frame ws s⟩

/-- A flag raised on a condition, as the statements write it. -/
theorem or_decide_eq_ite {p q : Prop} [Decidable p] [Decidable q] (h : p ↔ q) (b : Bool) :
    (b || decide p) = if q then true else b := by
  by_cases hq : q <;> simp [h, hq]

/-- The pointer turns at the last slot (43 R128). -/
theorem succ_mod_eq_ite {p n : Nat} (hp : p < n) :
    (p + 1) % n = if p = n - 1 then 0 else p + 1 := by
  split
  · rw [show p + 1 = n by omega, Nat.mod_self]
  · exact Nat.mod_eq_of_lt (by omega)

/-- One sample, with the flags and the pointer as 43 R128 states them. -/
theorem sampleOp_eq {s : State} (w : SampleWord) (hp : s.wrPtr < 2 * s.cfg.h) :
    sampleOp w s = { s with
      pp := (sampleOp w s).pp, syncOut := !s.syncOut,
      ht := if s.wrPtr = s.cfg.h - 1 then true else s.ht,
      tc := if s.wrPtr = 2 * s.cfg.h - 1 then true else s.tc,
      wrPtr := if s.wrPtr = 2 * s.cfg.h - 1 then 0 else s.wrPtr + 1 } := by
  have hht : s.wrPtr + 1 = s.cfg.h ↔ s.wrPtr = s.cfg.h - 1 := by omega
  have htc : s.wrPtr + 1 = 2 * s.cfg.h ↔ s.wrPtr = 2 * s.cfg.h - 1 := by omega
  rw [← or_decide_eq_ite hht, ← or_decide_eq_ite htc, ← succ_mod_eq_ite hp]
  rfl

/-- Settles O12, by the guard and the width of the word. -/
theorem smpWritesSample : Obligations.SmpWritesSample := by
  refine fun s w => ⟨fun _ hm hw hp => ⟨sampleOp w s, ?_, sampleOp_eq w hp, fun i => ?_⟩,
    fun hw hm => exec_smp_of_not_samples hw (not_modeSamples_of_away hm), exec_smp_of_wide⟩
  · exact exec_smp_of_samples hw ((modeSamples_iff _).2 hm) hp
  · rw [sampleOp_pp, Memory.read_write]

/-- Settles O11, by the guard of `ARM`. -/
theorem armOpensSession : Obligations.ArmOpensSession := by
  refine fun s => ⟨fun hq hm => exec_arm_of_enabled ((armEnabled_iff s).2 ⟨hq, hm⟩),
    fun h => exec_arm_of_disabled fun hen => ?_⟩
  obtain ⟨hq, hm⟩ := (armEnabled_iff s).1 hen
  exact h.elim (absurd hq) (absurd · hm)

/-- Settles O13, by the guard of `DMAERR`. -/
theorem dmaerrSetsErr : Obligations.DmaerrSetsErr := fun _ =>
  ⟨fun hm => exec_dmaerr_of_samples ((modeSamples_iff _).2 hm),
    fun hm => exec_dmaerr_of_not_samples (not_modeSamples_of_away hm)⟩

/-- Settles O16: HOST's view leaves the valid bytes alone, and once it shows `bytes` advanced it is
the state with the record appended (20 R49). -/
theorem rdebReadsByte : Obligations.RdebReadsByte := by
  refine fun s a => ⟨fun ha => ⟨_, exec_rdeb_of_lt ha, fun v hlt hv => ?_,
    fun e v hm hseen hle hv => ?_⟩, exec_rdeb_of_ge⟩
  · obtain ⟨-, hkept⟩ := extendsBytes_hostView s
    rw [hkept a hlt, ebByte_of_read hlt hv]
  · rw [hostView_of_seen_gt hm hseen, ebByte_appendBytes hle hv]

end Sys2Proof.Proofs
end

section
/-! SUPPORT. The rows of the sequencer under their guards (44_dma_interrupt_sequencer.md R147 to
R151). -/

namespace Sys2Proof.Machine

/-- A context with position and word 0 is the half alone (10 R28, 60 R181). -/
theorem packCtx_zero_zero (c : Config) (half : Half) : packCtx c half 0 0 = halfCode half := by
  simp only [packCtx, Nat.mul_zero, Nat.add_zero]

/-! ### The entry rows -/

section
variable {s : State}

theorem exec_dispErr_of_err (herr : s.err = true) : exec .dispErr s = .next (seqEnterOp s) := by
  change Host.Outcome.next (dispErrOp s) = _
  rw [seqEnterOp, if_pos herr]

theorem exec_dispHalf_of_ht (herr : s.err = false) (hht : s.ht = true) :
    exec .dispHalf s = .next (seqEnterOp s) := by
  change Host.Outcome.next (dispHalfOp s) = _
  rw [seqEnterOp, if_neg (by simp [herr]), if_pos hht]

theorem exec_dispFull_of_not_ht (herr : s.err = false) (hht : s.ht = false) :
    exec .dispFull s = .next (seqEnterOp s) := by
  change Host.Outcome.next (dispFullOp s) = _
  rw [seqEnterOp, if_neg (by simp [herr]), if_neg (by simp [hht])]

/-! ### `SEQ_CLEAR` and `SEQ_CHECK` -/

theorem seqClearOp_of_enabled {half : Half} (he : stepEnabled s .clear = true)
    (hh : s.curHalf = half) : seqClearOp s = { clearFlag half s with seqState := .check } := by
  subst hh
  exact if_pos he

theorem seqClearOp_of_disabled (he : stepEnabled s .clear = false) : seqClearOp s = s :=
  if_neg (by simp [he])

theorem seqCheckOp_of_other_clear (he : stepEnabled s .check = true)
    (hother : otherFlag s s.curHalf = false) : seqCheckOp s = { s with seqState := .idle } := by
  rw [seqCheckOp, if_pos he, if_neg (by simp [hother])]

theorem seqCheckOp_of_other_set (he : stepEnabled s .check = true)
    (hother : otherFlag s s.curHalf = true) :
    seqCheckOp s = raiseFatal .overrun s.curHalf 0 0 s := by
  rw [seqCheckOp, if_pos he, if_pos hother]

theorem seqCheckOp_of_disabled (he : stepEnabled s .check = false) : seqCheckOp s = s :=
  if_neg (by simp [he])

theorem stepEnabled_eq_false_iff (q : SeqState) :
    stepEnabled s q = false ↔ s.seqState ≠ q ∨ s.mode ≠ .running := by
  rw [Bool.eq_false_iff, ne_eq, stepEnabled_iff, not_and_or]

theorem otherFlag_eq_iff (b : Bool) : otherFlag s s.curHalf = b ↔
    (s.curHalf = .half0 ∧ s.tc = b) ∨ (s.curHalf = .half1 ∧ s.ht = b) := by
  cases hh : s.curHalf <;> simp [otherFlag]

end

end Sys2Proof.Machine
end

section
/-! PROOFS. The entry of a dispatch, `SEQ_CLEAR` and `SEQ_CHECK`. -/

namespace Sys2Proof.Proofs

open Sys2Proof.Machine Sys2Proof.Claims

/-- Under the guard of the entry its row, `SEQ_ENTER` and `SEQ` are one step (44 R146, 30 R69). -/
theorem entryRows_agree {s : State} {i : Instr} (hq : s.seqState = .idle)
    (hi : exec i s = .next (seqEnterOp s)) :
    ∀ j ∈ [Instr.seq, .seqEnter, i], exec j s = .next (seqEnterOp s) := by
  rw [List.forall_mem_cons, List.forall_mem_cons, List.forall_mem_singleton]
  exact ⟨execSeq_of_idle hq, rfl, hi⟩

/-- Settles O20, by the cause that `SEQ_ENTER` takes. -/
theorem entryTakesCause : Obligations.EntryTakesCause := by
  intro s hready
  obtain ⟨hq, hm, hirq⟩ := hready
  have hen : s.err = true ∨ s.ht = true ∨ s.tc = true → enterEnabled s = true := fun hflag =>
    (enterEnabled_iff s).2 ⟨hq, hm, hirq, hflag⟩
  refine ⟨fun herr i hi => ?_, fun herr hht i hi => ?_, fun herr hht htc i hi => ?_⟩
  · rw [entryRows_agree hq (exec_dispErr_of_err herr) i hi,
      seqEnterOp_of_err (hen (.inl herr)) herr, raiseFatal, packCtx_zero_zero]
    rfl
  · rw [entryRows_agree hq (exec_dispHalf_of_ht herr hht) i hi,
      seqEnterOp_of_half (hen (.inr (.inl hht))) herr (.inl ⟨rfl, hht⟩)]
    rfl
  · rw [entryRows_agree hq (exec_dispFull_of_not_ht herr hht) i hi,
      seqEnterOp_of_half (hen (.inr (.inr htc))) herr (.inr ⟨rfl, hht, htc⟩)]
    rfl

theorem clearRows_agree {s : State} (hq : s.seqState = .clear) :
    ∀ i ∈ [Instr.seqClear, .seq], exec i s = .next (seqClearOp s) := by
  rw [List.forall_mem_cons, List.forall_mem_singleton]
  exact ⟨rfl, execSeq_of_clear hq⟩

theorem checkRows_agree {s : State} (hq : s.seqState = .check) :
    ∀ i ∈ [Instr.seqCheck, .seq], exec i s = .next (seqCheckOp s) := by
  rw [List.forall_mem_cons, List.forall_mem_singleton]
  exact ⟨rfl, execSeq_of_check hq⟩

/-- Settles O23: in `S_CLEAR` the event `SEQ` is `SEQ_CLEAR`. -/
theorem seqClearClearsOwnFlag : Obligations.SeqClearClearsOwnFlag := by
  refine fun s => ⟨fun hq hm i hi => ?_, fun hoff => congrArg _ (seqClearOp_of_disabled
    ((stepEnabled_eq_false_iff _).2 hoff))⟩
  have he : stepEnabled s .clear = true := (stepEnabled_iff _ _).2 ⟨hq, hm⟩
  rw [clearRows_agree hq i hi]
  exact ⟨fun hh => by rw [seqClearOp_of_enabled he hh]; rfl,
    fun hh => by rw [seqClearOp_of_enabled he hh]; rfl⟩

/-- Settles O24: in `S_CHECK` the event `SEQ` is `SEQ_CHECK`. -/
theorem seqCheckFindsOverrun : Obligations.SeqCheckFindsOverrun := by
  refine fun s => ⟨fun hq hm i hi => ?_, fun hoff => congrArg _ (seqCheckOp_of_disabled
    ((stepEnabled_eq_false_iff _).2 hoff))⟩
  have he : stepEnabled s .check = true := (stepEnabled_iff _ _).2 ⟨hq, hm⟩
  rw [checkRows_agree hq i hi, ← otherFlag_eq_iff, ← otherFlag_eq_iff]
  refine ⟨fun hother => by rw [seqCheckOp_of_other_clear he hother], fun hother => ?_⟩
  rw [seqCheckOp_of_other_set he hother, raiseFatal, packCtx_zero_zero]

end Sys2Proof.Proofs
end

section
/-! SUPPORT. How a `DISPATCH` of one half ends and what it leaves (44_dma_interrupt_sequencer.md
R145), from what the `ENC_STEP`s of the half leave (41_run_length_encoder.md R101). -/

namespace Sys2Proof.Machine

/-! ### The refusal for the duration -/

theorem Halted.stepEnabled_eq_false {s : State} (h : Halted s) (q : SeqState) :
    stepEnabled s q = false := by
  rw [stepEnabled_eq_false_iff]
  rcases h with hm | ⟨hm, -⟩ <;> exact .inr (by simp [hm])

/-- While no duration can reach `2^60` no `ENC_STEP` is refused (10 R14, log 8). -/
theorem encLoopRefusal_of_fits : ∀ (n : Nat) {s : State}, Inv s → DurationsFit s →
    encLoopRefusal n s = none
  | 0, _, _, _ => rfl
  | n + 1, s, hi, hfit => by
    cases he : stepEnabled s .encode with
    | false => exact encLoopRefusal_of_disabled he _
    | true =>
      have hnext : encStepOutcome s = .next (encStepOp s) :=
        (encStepOutcome_of_inv hi he).resolve_left fun h => h.2 hfit
      rw [encLoopRefusal_of_taken n (encStepOutcome_next hnext).1]
      rcases encStepOp_progress hi he with hhalt | ho
      · exact encLoopRefusal_of_disabled (hhalt.stepEnabled_eq_false _) n
      · exact encLoopRefusal_of_fits n (hi.encStep he) (ho.fit hfit)

/-- Nor is one behind the entry of a dispatch. -/
theorem encLoopRefusal_entered {s : State} (hi : Inv s) (hen : enterEnabled s = true)
    (hfit : DurationsFit s) (n : Nat) : encLoopRefusal n (seqEnterOp s) = none := by
  obtain ⟨hq, -, -, -⟩ := (enterEnabled_iff s).1 hen
  rcases seqEnterOp_progress hen with hhalt | ⟨-, hahead, half, hent⟩ | ⟨hbusy, -⟩
  · exact encLoopRefusal_of_disabled (hhalt.stepEnabled_eq_false _) n
  · obtain ⟨-, -, hkeep⟩ := enterHalf_progress hi hahead hq half
    rw [hent]
    exact encLoopRefusal_of_fits n (hi.enter half hen) (hkeep hfit)
  · exact absurd hq hbusy

/-! ### What a dispatch leaves alone -/

/-- What a dispatch never touches, and that it appends to `EB` (44 R145). -/
structure DispatchFrame (s t : State) : Prop where
  pp : t.pp = s.pp
  wrPtr : t.wrPtr = s.wrPtr
  syncOut : t.syncOut = s.syncOut
  err : t.err = s.err
  cfg : t.cfg = s.cfg
  epoch : t.epoch = s.epoch
  stimulus : t.stimulus = s.stimulus
  appended : ∃ bs, t.eb = Memory.writeList s.eb s.bytes bs ∧ t.bytes = s.bytes + bs.length

theorem DispatchFrame.of_raiseFatal {s t : State} (h : DispatchFrame s t) (r : FatalReason)
    (half : Half) (p w : Nat) : DispatchFrame s (raiseFatal r half p w t) := { h with }

theorem DispatchFrame.refl (s : State) : DispatchFrame s s :=
  ⟨rfl, rfl, rfl, rfl, rfl, rfl, rfl, [], rfl, rfl⟩

theorem DispatchFrame.of_seqState {s t : State} (h : DispatchFrame s t) (q : SeqState) :
    DispatchFrame s { t with seqState := q } := { h with }

theorem DispatchFrame.of_clearFlag {s t : State} (h : DispatchFrame s t) (half : Half) :
    DispatchFrame s (clearFlag half t) := by
  cases half <;> exact { h with }

theorem DispatchFrame.of_seqClearOp {s t : State} (h : DispatchFrame s t) :
    DispatchFrame s (seqClearOp t) := by
  unfold seqClearOp
  split
  · exact (h.of_clearFlag _).of_seqState _
  · exact h

theorem DispatchFrame.of_seqCheckOp {s t : State} (h : DispatchFrame s t) :
    DispatchFrame s (seqCheckOp t) := by
  unfold seqCheckOp
  split
  · split
    · exact h.of_raiseFatal _ _ _ _
    · exact h.of_seqState _
  · exact h

/-- The bytes outside those appended are as before. -/
theorem DispatchFrame.read_eb {s t : State} (h : DispatchFrame s t) :
    s.bytes ≤ t.bytes ∧
      ∀ a, a < s.bytes ∨ t.bytes ≤ a → Memory.read t.eb a = Memory.read s.eb a := by
  obtain ⟨bs, heb, hbytes⟩ := h.appended
  refine ⟨by omega, fun a ha => ?_⟩
  rw [heb, Memory.read_writeList, if_neg (by omega)]

/-- What the `ENC_STEP`s of a half leave, whatever they return. -/
theorem DispatchFrame.of_leavesBigStep {half : Half} {s u : State} : ∀ {r : BigStep},
    r ≠ .tooLong → leavesBigStep s.eb s.bytes (enterHalf half s) u r → DispatchFrame s u
  | .done b, _, ⟨hn, hu⟩ => by
    subst hu; exact { DispatchFrame.refl s with appended := ⟨b.out, rfl, hn⟩ }
  | .throttled b, _, ⟨hn, pos, hu⟩ => by
    subst hu; exact { DispatchFrame.refl s with appended := ⟨b.out, rfl, hn⟩ }
  | .syncLoss _ _ b, _, ⟨hn, pos, hu⟩ => by
    subst hu; exact { DispatchFrame.refl s with appended := ⟨b.out, rfl, hn⟩ }
  | .tooLong, hne, _ => absurd rfl hne

/-! ### The ends -/

/-- The part of a `DISPATCH` behind its `ENC_STEP`s (44 R150, R151). -/
def dispatchTail (s : State) : State := seqCheckOp (seqClearOp s)

/-- The ends of a dispatch of the half `half` that begins in `s` (44 R145). -/
inductive HalfEnds (half : Half) (s t : State) : DispatchOutcome → Prop where
  | normal : otherFlag s half = false → t.seqState = .idle → t.mode = .running →
      t.irqEn = s.irqEn → t.ht = false → t.tc = false → HalfEnds half s t .normal
  | suspended : t.seqState = .idle → t.mode = .suspended → t.irqEn = false → t.ht = s.ht →
      t.tc = s.tc → HalfEnds half s t .suspended
  | syncLoss : t.mode = .fatal → t.fatalReason = .syncLoss → HalfEnds half s t (.fatal .syncLoss)
  | overrun : otherFlag s half = true → t.mode = .fatal → t.fatalReason = .overrun →
      HalfEnds half s t (.fatal .overrun)

theorem HalfEnds.dispatchOutcome_eq {half : Half} {s t : State} {o : DispatchOutcome}
    (h : HalfEnds half s t o) : dispatchOutcome t = o := by
  cases h with
  | normal _ _ hm => simp only [dispatchOutcome, hm]
  | suspended _ hm => simp only [dispatchOutcome, hm]
  | syncLoss hm hr => simp only [dispatchOutcome, hm, hr]
  | overrun _ hm hr => simp only [dispatchOutcome, hm, hr]

/-- After a throttle or a Fatal the later steps are not enabled (44 R145). -/
theorem dispatchTail_of_halted {s : State} (h : s.mode ≠ .running) : dispatchTail s = s := by
  have hoff : ∀ q, stepEnabled s q = false := fun q => (stepEnabled_eq_false_iff q).2 (.inr h)
  rw [dispatchTail, seqClearOp_of_disabled (hoff _), seqCheckOp_of_disabled (hoff _)]

/-- The half is done: its own flag is cleared, and the other one decides between `Normal` and an
overrun (44 R150, R151). -/
theorem halfEnds_of_done {half : Half} {s u : State} (hq : u.seqState = .clear)
    (hm : u.mode = .running) (hh : u.curHalf = half) (hirq : u.irqEn = s.irqEn)
    (hht : u.ht = s.ht) (htc : u.tc = s.tc) : ∃ o, HalfEnds half s (dispatchTail u) o := by
  have hclear : seqClearOp u = { clearFlag half u with seqState := .check } :=
    seqClearOp_of_enabled ((stepEnabled_iff _ _).2 ⟨hq, hm⟩) hh
  have hrun : (seqClearOp u).mode = .running := by rw [hclear]; exact (clearFlag_mode _ _).trans hm
  have hcheck : stepEnabled (seqClearOp u) .check = true :=
    (stepEnabled_iff _ _).2 ⟨by rw [hclear], hrun⟩
  have hother : otherFlag (seqClearOp u) (seqClearOp u).curHalf = otherFlag s half := by
    have hhalf : (seqClearOp u).curHalf = half := by
      rw [hclear]; exact (clearFlag_curHalf _ _).trans hh
    rw [hhalf, hclear]
    cases half with
    | half0 => exact htc
    | half1 => exact hht
  cases ho : otherFlag s half with
  | true =>
    rw [dispatchTail, seqCheckOp_of_other_set hcheck (hother.trans ho)]
    exact ⟨_, .overrun ho rfl rfl⟩
  | false =>
    rw [dispatchTail, seqCheckOp_of_other_clear hcheck (hother.trans ho), hclear]
    obtain ⟨hnoht, hnotc⟩ : (clearFlag half u).ht = false ∧ (clearFlag half u).tc = false := by
      cases half with
      | half0 => exact ⟨rfl, htc.trans ho⟩
      | half1 => exact ⟨hht.trans ho, rfl⟩
    exact ⟨_, .normal ho rfl ((clearFlag_mode _ _).trans hm) ((clearFlag_irqEn _ _).trans hirq)
      hnoht hnotc⟩

/-- Each return of the big-step encoder leads to one of the ends. -/
theorem halfEnds_of_leavesBigStep {half : Half} {s u : State} : ∀ {r : BigStep},
    r ≠ .tooLong → leavesBigStep s.eb s.bytes (enterHalf half s) u r →
    ∃ o, HalfEnds half s (dispatchTail u) o
  | .done _, _, ⟨_, hu⟩ => by subst hu; exact halfEnds_of_done rfl rfl rfl rfl rfl rfl
  | .throttled _, _, ⟨_, pos, hu⟩ => by
    have hm : u.mode = .suspended := by rw [hu]
    rw [dispatchTail_of_halted (by simp [hm]), hu]
    exact ⟨_, .suspended rfl rfl rfl rfl rfl⟩
  | .syncLoss _ _ _, _, ⟨_, pos, hu⟩ => by
    have hm : u.mode = .fatal := by rw [hu]
    rw [dispatchTail_of_halted (by simp [hm]), hu]
    exact ⟨_, .syncLoss rfl rfl⟩
  | .tooLong, hne, _ => absurd rfl hne

/-! ### The whole dispatch -/

/-- The state an uninterrupted `DISPATCH` that is not refused ends in (44 R145). -/
def dispatchOp (s : State) : State := dispatchTail (encLoop (s.cfg.h + 1) (seqEnterOp s))

/-- What an enabled `DISPATCH` answers: its end, or the refusal of a duration (log 8). -/
theorem execDispatch_answers {s : State} (hi : Inv s) (hen : enterEnabled s = true) :
    (execDispatch s = .refused .durationOverflow ∧ ¬ DurationsFit s) ∨
      (encLoopRefusal (s.cfg.h + 1) (seqEnterOp s) = none ∧ execDispatch s =
        .next (answer (.dispatched (dispatchOutcome (dispatchOp s))) (dispatchOp s))) := by
  have hi' : Inv (seqEnterOp s) := works_keep (fun _ _ hw h => h.work hw) hi (works_seqEnterOp s)
  rcases encLoopRefusal_cases (s.cfg.h + 1) hi'.scanLe with hnone | hover
  · refine .inr ⟨hnone, ?_⟩
    simp only [execDispatch, hen, if_true, hnone]
    rfl
  · refine .inl ⟨(execDispatch_refused_iff hen _).2 hover, fun hfit => ?_⟩
    simp [encLoopRefusal_entered hi hen hfit] at hover

theorem Inv.dispatchOp {s : State} (hi : Inv s) (hen : enterEnabled s = true) :
    Inv (dispatchOp s) :=
  works_keep (fun _ _ hw h => h.work hw) hi (works_dispatch hen)

/-- A transfer error ends the dispatch at its entry (44 R147). -/
theorem dispatchOp_of_err {s : State} (hen : enterEnabled s = true) (herr : s.err = true) :
    dispatchOp s = raiseFatal .dmaError .half0 0 0 s := by
  have hm : (raiseFatal .dmaError .half0 0 0 s).mode ≠ .running := by simp
  rw [dispatchOp, seqEnterOp_of_err hen herr,
    encLoop_of_disabled _ ((stepEnabled_eq_false_iff _).2 (.inr hm)), dispatchTail_of_halted hm]

/-- A dispatch of a half that is not refused: its frame and its end. -/
theorem dispatchOp_of_half {s : State} {half : Half} (hi : Inv s) (hq : s.seqState = .idle)
    (hent : seqEnterOp s = enterHalf half s)
    (hr : encLoopRefusal (s.cfg.h + 1) (seqEnterOp s) = none) :
    DispatchFrame s (dispatchOp s) ∧ ∃ o, HalfEnds half s (dispatchOp s) o := by
  have he : stepEnabled (enterHalf half s) .encode = true := (stepEnabled_iff _ _).2 ⟨rfl, rfl⟩
  have hm : (enterHalf half s).emission = none := hi.emission_none (by simp [hq])
  rw [hent] at hr
  have hret : bigRest (enterHalf half s) [] ≠ .tooLong := fun hlong => by
    have hover := (encLoopRefusal_iff_tooLong (s.cfg.h + 1) (s := enterHalf half s) [] hi.wf he hm
      (Nat.zero_le _) (Nat.lt_succ_self _)).2 hlong
    simp [hr] at hover
  have hleaves : leavesBigStep s.eb s.bytes (enterHalf half s)
      (encLoop (s.cfg.h + 1) (enterHalf half s)) (bigRest (enterHalf half s) []) :=
    leavesBigStep_encLoop _ [] hi.wf he hm (Nat.zero_le _) (Nat.lt_succ_self _) rfl rfl
  rw [dispatchOp, hent]
  exact ⟨(DispatchFrame.of_leavesBigStep hret hleaves).of_seqClearOp.of_seqCheckOp,
    halfEnds_of_leavesBigStep hret hleaves⟩

end Sys2Proof.Machine
end

section
/-! PROOFS. The outcomes of `DISPATCH`. -/

namespace Sys2Proof.Proofs

open Sys2Proof.Machine Sys2Proof.Claims

/-- The half that the entry of a dispatch takes (44 R148, R149). -/
theorem exists_half_due {s : State} (hflag : s.ht = true ∨ s.tc = true) : ∃ half : Half,
    (half = .half0 ∧ s.ht = true) ∨ (half = .half1 ∧ s.ht = false ∧ s.tc = true) := by
  cases hht : s.ht with
  | true => exact ⟨_, .inl ⟨rfl, rfl⟩⟩
  | false => exact ⟨_, .inr ⟨rfl, rfl, hflag.resolve_left (by simp [hht])⟩⟩

theorem durationsFit_of_dispatchFits {s : State} (hq : s.seqState = .idle) (h : dispatchFits s) :
    DurationsFit s where
  here hq' := by simp [hq] at hq'
  ahead hahead := h.resolve_left (by simp [hahead.1])

/-- The clauses on the memories and the other agents' registers. -/
theorem dispatchEnds_frame {s t : State} (hi : Inv t) (h : DispatchFrame s t) :
    (t.pp = s.pp ∧ t.wrPtr = s.wrPtr ∧ t.syncOut = s.syncOut ∧ t.err = s.err ∧ t.cfg = s.cfg ∧
      t.epoch = s.epoch ∧ t.stimulus = s.stimulus) ∧
    (s.bytes ≤ t.bytes ∧ t.bytes ≤ s.cfg.c ∧
      ∀ a, a < s.bytes ∨ t.bytes ≤ a → Memory.read t.eb a = Memory.read s.eb a) :=
  ⟨⟨h.pp, h.wrPtr, h.syncOut, h.err, h.cfg, h.epoch, h.stimulus⟩,
    h.read_eb.1, h.cfg ▸ hi.bytesLe, h.read_eb.2⟩

theorem dispatchEnds_of_dmaError {s t : State} (hi : Inv t) (h : DispatchFrame s t)
    (herr : s.err = true) (hm : t.mode = .fatal) (hr : t.fatalReason = .dmaError) :
    dispatchEnds s (answer (.dispatched (.fatal .dmaError)) t) (.fatal .dmaError) := by
  obtain ⟨hregs, hmem⟩ := dispatchEnds_frame hi h
  refine ⟨hregs, hmem, iff_of_true rfl herr, nofun, nofun, ?_⟩
  rintro r ⟨⟩
  exact ⟨hm, hr, nofun⟩

/-- Each end of the dispatch of a half is the end its outcome names. -/
theorem dispatchEnds_of_halfEnds {s t : State} {half : Half} {o : DispatchOutcome} (hi : Inv t)
    (h : DispatchFrame s t) (herr : s.err = false) (hirq : s.irqEn = true)
    (hends : HalfEnds half s t o) : dispatchEnds s (answer (.dispatched o) t) o := by
  obtain ⟨hregs, hmem⟩ := dispatchEnds_frame hi h
  refine ⟨hregs, hmem, ?_⟩
  cases hends with
  | normal _ hq hm hen hht htc =>
    exact ⟨by simp [herr], fun _ => ⟨hq, hm, hen.trans hirq, hht, htc⟩, nofun, nofun⟩
  | suspended hq hm hen hht htc =>
    exact ⟨by simp [herr], nofun, fun _ => ⟨hq, hm, hen, hht, htc⟩, nofun⟩
  | syncLoss hm hr =>
    refine ⟨by simp [herr], nofun, nofun, ?_⟩
    rintro r ⟨⟩
    exact ⟨hm, hr, nofun⟩
  | overrun _ hm hr =>
    refine ⟨by simp [herr], nofun, nofun, ?_⟩
    rintro r ⟨⟩
    exact ⟨hm, hr, nofun⟩

/-- A dispatch that is not refused ends as its outcome says. -/
theorem dispatchEnds_dispatchOp {s : State} (hi : Inv s) (hen : enterEnabled s = true)
    (hr : encLoopRefusal (s.cfg.h + 1) (seqEnterOp s) = none) :
    dispatchEnds s (answer (.dispatched (dispatchOutcome (dispatchOp s))) (dispatchOp s))
      (dispatchOutcome (dispatchOp s)) := by
  have hit : Inv (dispatchOp s) := hi.dispatchOp hen
  obtain ⟨hq, -, hirq, hflag⟩ := (enterEnabled_iff s).1 hen
  cases herr : s.err with
  | true =>
    have hop := dispatchOp_of_err hen herr
    rw [hop] at hit ⊢
    exact dispatchEnds_of_dmaError hit ((DispatchFrame.refl s).of_raiseFatal _ _ _ _) herr rfl rfl
  | false =>
    obtain ⟨half, hf⟩ := exists_half_due (hflag.resolve_left (by simp [herr]))
    obtain ⟨hframe, o, hends⟩ :=
      dispatchOp_of_half hi hq (seqEnterOp_of_half hen herr hf) hr
    rw [hends.dispatchOutcome_eq]
    exact dispatchEnds_of_halfEnds hit hframe herr hirq hends

/-- Settles O25: a dispatch that is not refused ends in one of `HalfEnds`, or at its entry, and is
refused for no reason but a duration. -/
theorem dispatchOutcomes : Obligations.DispatchOutcomes := by
  intro s hi hready hflag
  obtain ⟨hq, hm, hirq⟩ := hready
  have hen : enterEnabled s = true := (enterEnabled_iff s).2 ⟨hq, hm, hirq, hflag⟩
  have hanswers : (exec .dispatch s = .refused .durationOverflow ∧ ¬ DurationsFit s) ∨
      ∃ t o, exec .dispatch s = .next t ∧ t.out = .dispatched o ∧ dispatchEnds s t o :=
    (execDispatch_answers hi hen).imp_right fun ⟨hr, hnext⟩ =>
      ⟨_, _, hnext, rfl, dispatchEnds_dispatchOp hi hen hr⟩
  exact ⟨fun hfits => hanswers.resolve_left fun h => h.2 (durationsFit_of_dispatchFits hq hfits),
    hanswers.imp_left And.left⟩

/-- Settles O26: the dispatch takes half 0, and with `TC` set its end is not `Normal`. -/
theorem bothFlagsNeverNormal : Obligations.BothFlagsNeverNormal := by
  intro s hi hready herr hht htc
  obtain ⟨hq, hm, hirq⟩ := hready
  have hen : enterEnabled s = true := (enterEnabled_iff s).2 ⟨hq, hm, hirq, .inr (.inl hht)⟩
  have hanswers := execDispatch_answers hi hen
  refine ⟨fun hfits => ?_, fun t ht => ?_⟩
  · obtain ⟨-, hnext⟩ :=
      hanswers.resolve_left fun h => h.2 (durationsFit_of_dispatchFits hq hfits)
    exact ⟨_, hnext⟩
  · have ht' : execDispatch s = .next t := ht
    obtain ⟨hr, hnext⟩ := hanswers.resolve_left fun h => by simp [ht'] at h
    obtain ⟨-, o, hends⟩ :=
      dispatchOp_of_half hi hq (seqEnterOp_of_half hen herr (.inl ⟨rfl, hht⟩)) hr
    rw [ht', hends.dispatchOutcome_eq] at hnext
    cases hnext
    refine ⟨o, rfl, ?_⟩
    cases hends with
    | normal hother => simp [otherFlag, htc] at hother
    | suspended => exact .inr (.inl rfl)
    | syncLoss => exact .inr (.inr rfl)
    | overrun => exact .inl rfl

end Sys2Proof.Proofs
end

section
/-! SUPPORT. What a step may do to a dispatch in progress whose other flag is set
(44_dma_interrupt_sequencer.md R151, R154): row by row, it stays in progress or ends otherwise than
`Normal`. -/

namespace Sys2Proof.Proofs

open Sys2Proof.Machine Sys2Proof.Claims

/-- The ends of a step that finds the other flag of the dispatch in progress set, `RESET` apart. -/
def HeldOrEnded (s t : State) : Prop :=
  (overdue t ∧ t.curHalf = s.curHalf) ∨
  (s.seqState = .encode ∧ t.mode = .suspended ∧ t.seqState = .idle) ∨
  (s.seqState = .encode ∧ t.mode = .fatal ∧ t.fatalReason = .syncLoss) ∨
  (s.seqState = .check ∧ t.mode = .fatal ∧ t.fatalReason = .overrun)

/-- The dispatch in progress goes on, and no flag is cleared. -/
structure GoesOn (s t : State) : Prop where
  mode : t.mode = s.mode
  curHalf : t.curHalf = s.curHalf
  busy : s.seqState ≠ .idle → t.seqState ≠ .idle
  ht : s.ht = true → t.ht = true
  tc : s.tc = true → t.tc = true

theorem held_of_goesOn {s t : State} (hs : overdue s) (h : GoesOn s t) : HeldOrEnded s t := by
  obtain ⟨hm, hq, hflag⟩ := hs
  refine .inl ⟨⟨h.mode.trans hm, h.busy hq, ?_⟩, h.curHalf⟩
  rw [h.curHalf]
  exact hflag.imp (And.imp_right h.tc) (And.imp_right h.ht)

section
variable {s t : State}

theorem held_refl (hs : overdue s) : HeldOrEnded s s := .inl ⟨hs, rfl⟩

theorem held_answer (hs : overdue s) (a : Answer) : HeldOrEnded s (answer a s) :=
  held_of_goesOn hs ⟨rfl, rfl, id, id, id⟩

/-! ### The DMA -/

theorem held_execSmp {w : SampleWord} (hs : overdue s) (h : execSmp w s = .next t) :
    HeldOrEnded s t := by
  unfold execSmp at h
  split at h
  · cases h
  split at h
  · split at h <;> cases h
    exact held_of_goesOn hs ⟨rfl, rfl, id, fun h => by simp [h], fun h => by simp [h]⟩
  · cases h; exact held_refl hs

theorem held_execDmaerr (hs : overdue s) (h : execDmaerr s = .next t) : HeldOrEnded s t := by
  unfold execDmaerr at h
  split at h <;> cases h
  · exact held_of_goesOn hs ⟨rfl, rfl, id, id, id⟩
  · exact held_refl hs

/-! ### SEQ -/

/-- No dispatch is entered while one is in progress (44 R146). -/
theorem entryRows_of_overdue (hs : overdue s) :
    ∀ i ∈ [Instr.seqEnter, .dispErr, .dispHalf, .dispFull, .dispatch], exec i s = .next s := by
  obtain ⟨-, hq, -⟩ := hs
  exact (entryWaits s fun ⟨⟨hidle, _⟩, _⟩ => hq hidle).1

theorem held_seqClearOp (hs : overdue s) : HeldOrEnded s (seqClearOp s) := by
  obtain ⟨hm, -, hflag⟩ := id hs
  unfold seqClearOp
  split
  · refine .inl ⟨⟨(clearFlag_mode _ _).trans hm, nofun, ?_⟩, clearFlag_curHalf _ _⟩
    rcases hflag with ⟨hh, htc⟩ | ⟨hh, hht⟩
    · exact .inl ⟨(clearFlag_curHalf _ _).trans hh, by simp [hh, htc]⟩
    · exact .inr ⟨(clearFlag_curHalf _ _).trans hh, by simp [hh, hht]⟩
  · exact held_refl hs

theorem held_seqCheckOp (hs : overdue s) : HeldOrEnded s (seqCheckOp s) := by
  obtain ⟨-, -, hflag⟩ := id hs
  cases he : stepEnabled s .check with
  | false => rw [seqCheckOp_of_disabled he]; exact held_refl hs
  | true =>
    rw [seqCheckOp_of_other_set he ((otherFlag_eq_iff true).2 hflag)]
    exact .inr (.inr (.inr ⟨((stepEnabled_iff _ _).1 he).1, rfl, rfl⟩))

theorem held_encStepOp (hs : overdue s) : HeldOrEnded s (encStepOp s) := by
  cases he : stepEnabled s .encode with
  | false => rw [encStepOp_of_disabled he]; exact held_refl hs
  | true =>
    obtain ⟨hq, -⟩ := (stepEnabled_iff _ _).1 he
    rcases encStepOp_cases he with ⟨-, -, hop⟩ | ⟨-, -, -, hop⟩ | ⟨-, -, -, -, hop⟩ |
      ⟨bs, l, -, -, hop⟩ | ⟨e, -, hop⟩ <;> rw [hop]
    case inl => exact held_of_goesOn hs ⟨rfl, rfl, fun _ => nofun, id, id⟩
    case inr.inl => exact .inr (.inr (.inl ⟨hq, rfl, rfl⟩))
    case inr.inr.inl => exact .inr (.inl ⟨hq, rfl, rfl⟩)
    case inr.inr.inr.inl => exact held_of_goesOn hs ⟨rfl, rfl, id, id, id⟩
    case inr.inr.inr.inr => exact held_of_goesOn hs ⟨rfl, rfl, id, id, id⟩

/-- What `HeldOrEnded` reads of the first state is where its dispatch stands. -/
theorem HeldOrEnded.of_same_place {u : State} (h : HeldOrEnded u t) (hq : u.seqState = s.seqState)
    (hh : u.curHalf = s.curHalf) : HeldOrEnded s t := by
  unfold HeldOrEnded
  rwa [← hq, ← hh]

/-- `ENC_STEP`s one after another: each but the last stays in `S_ENCODE`, in progress (41 R90). -/
theorem held_encLoop : ∀ (n : Nat) {s : State}, overdue s → HeldOrEnded s (encLoop n s)
  | 0, _, hs => held_refl hs
  | n + 1, s, hs => by
    cases he : stepEnabled s .encode with
    | false => rw [encLoop_of_disabled _ he]; exact held_refl hs
    | true =>
      rw [encLoop]
      have hstep := held_encStepOp hs
      cases he' : stepEnabled (encStepOp s) .encode with
      | false => rwa [encLoop_of_disabled n he']
      | true =>
        obtain ⟨hq, -⟩ := (stepEnabled_iff _ _).1 he
        obtain ⟨hq', hm'⟩ := (stepEnabled_iff _ _).1 he'
        obtain ⟨hover, hhalf⟩ : overdue (encStepOp s) ∧ (encStepOp s).curHalf = s.curHalf := by
          rcases hstep with h | ⟨-, h, -⟩ | ⟨-, h, -⟩ | ⟨-, h, -⟩
          · exact h
          all_goals simp [hm'] at h
        exact (held_encLoop n hover).of_same_place (hq'.trans hq.symm) hhalf

theorem held_execSeq (hs : overdue s) (h : execSeq s = .next t) : HeldOrEnded s t := by
  obtain ⟨-, hbusy, -⟩ := id hs
  cases hq : s.seqState with
  | idle => exact absurd hq hbusy
  | encode =>
    rw [execSeq_of_encode hq] at h
    obtain ⟨-, rfl⟩ := encStepOutcome_next h
    exact held_encStepOp hs
  | clear => rw [execSeq_of_clear hq] at h; cases h; exact held_seqClearOp hs
  | check => rw [execSeq_of_check hq] at h; cases h; exact held_seqCheckOp hs

theorem held_execSeqWrite (hs : overdue s) (h : execSeqWrite s = .next t) : HeldOrEnded s t := by
  rcases execSeqWrite_cases s with ⟨e, -, -, -, hx⟩ | ⟨bs, l, p, -, -, -, -, hx⟩ | hx <;>
    rw [hx] at h
  · cases h; exact held_of_goesOn hs ⟨rfl, rfl, id, id, id⟩
  · cases h; exact held_of_goesOn hs ⟨rfl, rfl, id, id, id⟩
  · exact held_execSeq hs h

theorem held_execEncodeHalf {half : Half} (hs : overdue s) (h : execEncodeHalf half s = .next t) :
    HeldOrEnded s t := by
  unfold execEncodeHalf at h
  split at h
  · split at h <;> cases h
    exact held_encLoop _ hs
  · cases h; exact held_refl hs

theorem held_readRecord {k v : Nat} (hs : overdue s) (h : readRecord k v s = .next t) :
    HeldOrEnded s t := by
  unfold readRecord at h
  split at h <;> cases h <;> exact held_answer hs _

/-! ### Every row -/

/-- Every operation that can be fetched, but `RESET`. -/
theorem held_exec {i : Instr} (hi : i.isInner = false) (hr : i ≠ .reset) (hs : overdue s)
    (h : exec i s = .next t) : HeldOrEnded s t := by
  obtain ⟨-, hbusy, -⟩ := id hs
  cases i
  case nop | seqNone => cases h; exact held_refl hs
  case arm =>
    rw [exec_arm_of_disabled fun harm => hbusy ((armEnabled_iff s).1 harm).1] at h
    cases h; exact held_refl hs
  case smp w => exact held_execSmp hs h
  case dmaerr => exact held_execDmaerr hs h
  case seq => exact held_execSeq hs h
  case reset => exact absurd rfl hr
  case seqEnter | dispErr | dispHalf | dispFull | dispatch =>
    rw [entryRows_of_overdue hs _ (by simp)] at h
    cases h; exact held_refl hs
  case encStep =>
    obtain ⟨-, rfl⟩ := encStepOutcome_next h
    exact held_encStepOp hs
  case seqClear => cases h; exact held_seqClearOp hs
  case seqCheck => cases h; exact held_seqCheckOp hs
  case encodeHalf half => exact held_execEncodeHalf hs h
  case rd | rdeb | scan | level | vdec | parse =>
    simp only [exec, execRd, execRdeb, execScan, execLevel, execVdec, execParse] at h
    split at h <;> cases h <;> exact held_answer hs _
  case deposit | vlen | venc => cases h; exact held_answer hs _
  case reservedEv8 | reservedEv9 | reservedEv10 | reservedEv11 | reservedEv12 | reservedEv13 |
      reservedEv14 | reservedEv15 => cases h
  case ebappend | throttle | fatal => cases hi
  case rec1 | rec2 | rec3 | rec4 | rec5 | rec6 | rec7 | rec8 | rec9 | rec10 =>
    exact held_readRecord hs h

end

end Sys2Proof.Proofs
end

section
/-! PROOFS. The other flag is held until `SEQ_CHECK`. -/

namespace Sys2Proof.Proofs

open Sys2Proof.Machine Sys2Proof.Claims

/-- What a step runs: nothing, a visible write, or the operation its item decodes to (30 R70). -/
theorem step_next_cases {s t : State} (h : step s = .next t) : t = s ∨
    ∃ f rest, s.stimulus = f :: rest ∧ (execSeqWrite (taking s rest) = .next t ∨
      ∃ i, decode f = .ok i ∧ exec i (taking s rest) = .next t) := by
  cases hs : s.stimulus with
  | nil => simp only [step, hs] at h; cases h; exact .inl rfl
  | cons f rest =>
    refine .inr ⟨f, rest, rfl, ?_⟩
    by_cases hf : f = .seqWrite
    · subst hf
      exact .inl (step_of_seqWrite hs ▸ h)
    · obtain ⟨hrun, -, hrefuse⟩ := stepRunsDecodedInstruction
      cases hd : decode f with
      | ok i => exact .inr ⟨i, rfl, hrun s f rest i hs hd ▸ h⟩
      | error e => rw [hrefuse s f rest e hs hf hd] at h; cases h

/-- Settles O58: the entry takes half 0 with `TC` set, and from there on each row keeps the dispatch
in progress or ends it otherwise than `Normal`. -/
theorem otherFlagHeldUntilCheck : Obligations.OtherFlagHeldUntilCheck := by
  refine ⟨fun s hready herr hht htc => ?_, fun s t hs h => ?_⟩
  · obtain ⟨hq, hm, hirq⟩ := hready
    have hen : enterEnabled s = true := (enterEnabled_iff s).2 ⟨hq, hm, hirq, .inr (.inl hht)⟩
    refine ⟨enterHalf .half0 s, ?_, ⟨rfl, nofun, .inl ⟨rfl, htc⟩⟩, rfl⟩
    rw [← seqEnterOp_of_half hen herr (.inl ⟨rfl, hht⟩)]
    exact execSeq_of_idle hq
  · have hheld : HeldOrEnded s t ∨
        (t.mode = .idle ∧ ∃ f rest, s.stimulus = f :: rest ∧ decode f = .ok .reset) := by
      rcases step_next_cases h with rfl | ⟨f, rest, hstim, hwrite | ⟨i, hdec, hexec⟩⟩
      · exact .inl (held_refl hs)
      · exact .inl (held_execSeqWrite (s := taking s rest) hs hwrite)
      · by_cases hi : i = .reset
        · subst hi
          cases hexec
          exact .inr ⟨rfl, f, rest, hstim, hdec⟩
        · exact .inl (held_exec (s := taking s rest) (decode_not_inner hdec) hi hs hexec)
    simpa only [HeldOrEnded, or_assoc] using hheld

end Sys2Proof.Proofs
end

section
/-! SUPPORT. The invariant of 45_ping_pong_buffer_arbiter.md R168 and R170 under every effect: each
effect of `Work` and `Move` keeps `BufferInv`. -/

namespace Sys2Proof.Machine

/-! ### Where the buffer and its flags are left alone -/

/-- The fields in which `BufferInv` says what has been written: `PP`, the pointer and the flags. -/
structure SameBuffer (s t : State) : Prop where
  cfg : t.cfg = s.cfg
  pp : t.pp = s.pp
  wrPtr : t.wrPtr = s.wrPtr
  ht : t.ht = s.ht
  tc : t.tc = s.tc

theorem sameBuffer_encStepOp (s : State) : SameBuffer s (encStepOp s) := by
  obtain ⟨hcfg, hpp, hptr, -, hht, htc, -⟩ := encStepOp_frame s
  exact ⟨hcfg, hpp, hptr, hht, htc⟩

/-- An effect that leaves the buffer and its flags alone keeps what they say, provided it does not
begin in `S_CHECK` unless it ends the serving of dispatches. -/
theorem BufferInv.of_sameBuffer {s t : State} (h : BufferInv s) (hi : Inv t)
    (hb : SameBuffer s t)
    (hown : t.mode = .running → t.seqState = .encode ∨ t.seqState = .clear →
      ownFlag t t.curHalf = true)
    (hserves : modeServes t.mode = true → modeServes s.mode = true ∧ s.seqState ≠ .check) :
    BufferInv t := by
  obtain ⟨hcfg, hpp, hptr, hht, htc⟩ := hb
  refine ⟨hi, ?_, ?_, ?_, hown, fun hm h1 h2 => .inl ?_, fun hm h1 h2 => .inl ?_⟩
  · rw [hptr, hpp]; exact h.written
  · rw [hht, halfWritten, hcfg, hpp]; exact h.htWritten
  · rw [htc, halfWritten, hcfg, hpp]; exact h.tcWritten
  all_goals
    obtain ⟨hms, hq⟩ := hserves hm
    rw [hcfg, hptr] at h2
  · rw [hht] at h1
    rw [htc]
    exact (h.htAhead hms h1 h2).resolve_right fun ⟨_, hcheck⟩ => hq hcheck
  · rw [htc] at h1
    rw [hht]
    exact (h.tcAhead hms h1 h2).resolve_right fun ⟨_, hcheck⟩ => hq hcheck

/-- An effect that ends the serving of dispatches and leaves the buffer alone (41 R95, 60 R186). -/
theorem BufferInv.of_not_serving {s t : State} (h : BufferInv s) (hi : Inv t)
    (hb : SameBuffer s t) (hm : modeServes t.mode = false) : BufferInv t :=
  h.of_sameBuffer hi hb (fun hrun => by simp [hrun, modeServes] at hm)
    (fun hserves => by simp [hm] at hserves)

/-- An effect within `S_ENCODE` that stays in the dispatch of the same half. -/
theorem BufferInv.of_encode {s t : State} (h : BufferInv s) (he : stepEnabled s .encode = true)
    (hi : Inv t) (hb : SameBuffer s t) (hh : t.curHalf = s.curHalf) : BufferInv t := by
  obtain ⟨hq, hm⟩ := (stepEnabled_iff s .encode).1 he
  refine h.of_sameBuffer hi hb (fun _ _ => ?_) (fun _ => ⟨by rw [hm]; rfl, by simp [hq]⟩)
  have hown := h.ownSet hm (.inl hq)
  rw [hh]
  cases hc : s.curHalf with
  | half0 => rw [hc] at hown; exact hb.ht.trans hown
  | half1 => rw [hc] at hown; exact hb.tc.trans hown

/-- With nothing written since the pointer was set back and no flag set there is nothing to say. -/
theorem bufferInv_of_empty {s : State} (hi : Inv s) (hq : s.seqState = .idle) (hp : s.wrPtr = 0)
    (hht : s.ht = false) (htc : s.tc = false) : BufferInv s where
  base := hi
  written := fun i hlt => absurd (hp ▸ hlt) (Nat.not_lt_zero i)
  htWritten := fun h => by simp [hht] at h
  tcWritten := fun h => by simp [htc] at h
  ownSet := fun _ h => by simp [hq] at h
  htAhead := fun _ h => by simp [hht] at h
  tcAhead := fun _ h => by simp [htc] at h

/-! ### Each effect keeps it -/

theorem sampleOp_read_isSome {s : State} {w : SampleWord} {i : Nat}
    (h : i = s.wrPtr ∨ (Memory.read s.pp i).isSome = true) :
    (Memory.read (sampleOp w s).pp i).isSome = true := by
  rw [sampleOp_pp, Memory.read_write]
  split
  · rfl
  · exact h.resolve_left ‹_›

/-- A sample clears no flag (43 R128). -/
theorem ownFlag_sampleOp {s : State} {w : SampleWord} {half : Half} (h : ownFlag s half = true) :
    ownFlag (sampleOp w s) half = true := by
  cases half with
  | half0 => exact (Bool.or_eq_true _ _).mpr (.inl h)
  | half1 => exact (Bool.or_eq_true _ _).mpr (.inl h)

/-- A sample completes the half whose flag it sets, because the slots below the pointer have been
written; and where it sets the pointer back into a half, it sets the flag of the other (45 R170). -/
theorem BufferInv.sample {s : State} (h : BufferInv s) {w : SampleWord}
    (hm : modeSamples s.mode = true) (hw : w < 2 ^ s.cfg.w) : BufferInv (sampleOp w s) := by
  have hptr : s.wrPtr < 2 * s.cfg.h := h.base.ptrLt
  have hturn : s.wrPtr + 1 = 2 * s.cfg.h ∧ (s.wrPtr + 1) % (2 * s.cfg.h) = 0 ∨
      s.wrPtr + 1 < 2 * s.cfg.h ∧ (s.wrPtr + 1) % (2 * s.cfg.h) = s.wrPtr + 1 := by
    rcases Nat.lt_or_ge (s.wrPtr + 1) (2 * s.cfg.h) with hlt | hge
    · exact .inr ⟨hlt, Nat.mod_eq_of_lt hlt⟩
    · have heq : s.wrPtr + 1 = 2 * s.cfg.h := by omega
      exact .inl ⟨heq, by rw [heq, Nat.mod_self]⟩
  have hbelow : ∀ i, i < s.wrPtr + 1 →
      (Memory.read (sampleOp w s).pp i).isSome = true := fun i hi =>
    sampleOp_read_isSome ((Nat.lt_succ_iff_lt_or_eq.1 hi).symm.imp_right (h.written i))
  have hhalf : ∀ half, halfWritten s half → halfWritten (sampleOp w s) half :=
    fun half hhalf i hi => sampleOp_read_isSome (.inr (hhalf i hi))
  refine ⟨h.base.sample hm hw, ?written, ?htWritten, ?tcWritten, ?ownSet, ?htAhead, ?tcAhead⟩
  case written =>
    intro i hi
    rw [sampleOp_wrPtr] at hi
    exact hbelow i (by omega)
  case htWritten =>
    intro hht
    simp only [sampleOp_ht, Bool.or_eq_true, decide_eq_true_eq] at hht
    rcases hht with hold | hend
    · exact hhalf _ (h.htWritten hold)
    · exact fun i hi => hbelow _ (by simp only [halfCode, sampleOp_cfg] at hi ⊢; omega)
  case tcWritten =>
    intro htc
    simp only [sampleOp_tc, Bool.or_eq_true, decide_eq_true_eq] at htc
    rcases htc with hold | hend
    · exact hhalf _ (h.tcWritten hold)
    · exact fun i hi => hbelow _ (by simp only [halfCode, sampleOp_cfg] at hi ⊢; omega)
  case ownSet =>
    intro hrun hq
    exact ownFlag_sampleOp (h.ownSet hrun hq)
  case htAhead =>
    intro hserves hht hlt
    simp only [sampleOp_ht, sampleOp_tc, sampleOp_wrPtr, sampleOp_cfg, Bool.or_eq_true,
      decide_eq_true_eq] at hht hlt ⊢
    rcases hturn with ⟨hend, -⟩ | ⟨-, hnext⟩
    · exact .inl (.inr hend)
    · have hold := hht.resolve_right (by omega)
      exact (h.htAhead hserves hold (by omega)).imp_left .inl
  case tcAhead =>
    intro hserves htc hge
    simp only [sampleOp_ht, sampleOp_tc, sampleOp_wrPtr, sampleOp_cfg, Bool.or_eq_true,
      decide_eq_true_eq] at htc hge ⊢
    by_cases hend : s.wrPtr + 1 = s.cfg.h
    · exact .inl (.inr hend)
    · have hold := htc.resolve_right (by omega)
      exact (h.tcAhead hserves hold (by omega)).imp_left .inl

/-- The entry takes a half whose flag is set (44 R148, R149). -/
theorem BufferInv.enter {s : State} (h : BufferInv s) {half : Half} (he : enterEnabled s = true)
    (hown : ownFlag s half = true) : BufferInv (enterHalf half s) := by
  obtain ⟨hq, hm, -, -⟩ := (enterEnabled_iff s).1 he
  refine h.of_sameBuffer (h.base.enter half he) ⟨rfl, rfl, rfl, rfl, rfl⟩ (fun _ _ => ?_)
    (fun _ => ⟨(modeServes_iff _).2 hm, by simp [hq]⟩)
  cases half <;> exact hown

/-- Behind `SEQ_CLEAR` only the flag of the other half can be set, and the DMA may be back inside
that half with the own flag cleared until `SEQ_CHECK` (44 R150, 45 R170). -/
theorem BufferInv.clear {s : State} (h : BufferInv s) (he : stepEnabled s .clear = true) :
    BufferInv { clearFlag s.curHalf s with seqState := .check } := by
  have hi := h.base.clear he s.curHalf
  cases hc : s.curHalf with
  | half0 =>
    rw [hc] at hi
    exact { h with
      base := hi
      htWritten := nofun
      ownSet := fun _ hq => by simp at hq
      htAhead := nofun
      tcAhead := fun _ _ _ => .inr ⟨hc, rfl⟩ }
  | half1 =>
    rw [hc] at hi
    exact { h with
      base := hi
      tcWritten := nofun
      ownSet := fun _ hq => by simp at hq
      htAhead := fun _ _ _ => .inr ⟨hc, rfl⟩
      tcAhead := nofun }

/-- A dispatch ends with the other flag clear, so what a flag says of the DMA needs no exception any
more (44 R151). -/
theorem BufferInv.finish {s : State} (h : BufferInv s) (he : stepEnabled s .check = true)
    (hother : otherFlag s s.curHalf = false) : BufferInv { s with seqState := .idle } :=
  { h with
    base := h.base.finish he
    ownSet := fun _ hq => by simp at hq
    htAhead := fun hm hht hlt => .inl ((h.htAhead hm hht hlt).resolve_right fun ⟨hh, _⟩ => by
      rw [hh] at hother; exact absurd (hht.symm.trans hother) nofun)
    tcAhead := fun hm htc hge => .inl ((h.tcAhead hm htc hge).resolve_right fun ⟨hh, _⟩ => by
      rw [hh] at hother; exact absurd (htc.symm.trans hother) nofun) }

theorem BufferInv.work {s t : State} (h : BufferInv s) (hst : Work s t) : BufferInv t := by
  have hi : Inv t := h.base.work hst
  cases hst with
  | answer a => exact { h with base := hi }
  | sample w hm hw _ => exact h.sample hm hw
  | dmaerr hm => exact { h with base := hi }
  | dmaFatal _ _ => exact h.of_not_serving hi ⟨rfl, rfl, rfl, rfl, rfl⟩ rfl
  | enter half he _ hown _ => exact h.enter he hown
  | encode he _ =>
    obtain ⟨-, -, -, -, -, -, -, hh, -⟩ := encStepOp_frame s
    exact h.of_encode he hi (sameBuffer_encStepOp s) hh
  | start bs l p he _ _ _ => exact h.of_encode he hi ⟨rfl, rfl, rfl, rfl, rfl⟩ rfl
  | advance e he _ _ => exact h.of_encode he hi ⟨rfl, rfl, rfl, rfl, rfl⟩ rfl
  | clear he => exact h.clear he
  | finish he hother => exact h.finish he hother
  | overrun _ _ => exact h.of_not_serving hi ⟨rfl, rfl, rfl, rfl, rfl⟩ rfl

theorem BufferInv.move {s t : State} (h : BufferInv s) (hst : Move s t) : BufferInv t := by
  have hi : Inv t := h.base.move hst
  cases hst with
  | take rest => exact { h with base := hi }
  | work _ hw => exact h.work hw
  | arm o hq hm => exact bufferInv_of_empty hi hq rfl rfl rfl
  | reset => exact bufferInv_of_empty hi rfl rfl rfl rfl

end Sys2Proof.Machine
end

section
/-! PROOFS. Every step keeps what the flags and the write pointer say, and a DMA back inside the half
being processed is never missed. -/

namespace Sys2Proof.Proofs

open Sys2Proof.Machine Sys2Proof.Claims

/-- Settles O3: every step is a sequence of moves, and each move keeps `BufferInv`. -/
theorem stepKeepsBufferInvariant : Obligations.StepKeepsBufferInvariant := by
  intro s t hs hst
  exact step_keeps (fun _ _ hm h => h.move hm) hs hst

/-- A DMA back inside the half being processed, before `SEQ_CLEAR`, has set the other flag
(45 R170). -/
theorem overdue_of_dmaInside {s : State} (hs : BufferInv s) (hm : s.mode = .running)
    (hq : s.seqState = .encode ∨ s.seqState = .clear) (hin : dmaInside s s.curHalf) :
    overdue s := by
  have hserves : modeServes s.mode = true := (modeServes_iff _).2 (.inr hm)
  have hcheck : s.seqState ≠ .check := by rcases hq with hq | hq <;> simp [hq]
  have hown := hs.ownSet hm hq
  refine ⟨hm, by rcases hq with hq | hq <;> simp [hq], ?_⟩
  cases hh : s.curHalf with
  | half0 =>
    rw [hh] at hown hin
    exact .inl ⟨rfl, (hs.htAhead hserves hown hin).resolve_right fun ⟨_, h⟩ => hcheck h⟩
  | half1 =>
    rw [hh] at hown hin
    exact .inr ⟨rfl, (hs.tcAhead hserves hown hin).resolve_right fun ⟨_, h⟩ => hcheck h⟩

/-- Of the ends that `OtherFlagHeldUntilCheck` leaves a step, only the first is in mode RUNNING. -/
theorem overdue_of_eventStep {s t : State} (hs : overdue s) (h : eventStep s t)
    (ht : t.mode = .running) : overdue t := by
  obtain ⟨-, hheld⟩ := otherFlagHeldUntilCheck
  have hstep : ∃ items, step { s with stimulus := items } = .next t := by
    rcases h with ⟨e, i, -, -, hstep⟩ | hstep <;> exact ⟨_, hstep⟩
  obtain ⟨items, hstep⟩ := hstep
  rcases hheld { s with stimulus := items } t hs hstep with
    ⟨hover, -⟩ | ⟨-, hm, -⟩ | ⟨-, hm, -⟩ | ⟨-, hm, -⟩ | ⟨hm, -⟩
  · exact hover
  all_goals simp [ht] at hm

theorem overdue_of_runningChain : ∀ {run : List State} {s : State}, overdue s →
    runningChain s run → ∀ t ∈ run, overdue t
  | [], _, _, _, _, ht => by cases ht
  | u :: run, s, hs, ⟨hstep, hmode, hrest⟩, t, ht => by
    have hu : overdue u := overdue_of_eventStep hs hstep hmode
    rcases List.mem_cons.1 ht with rfl | ht
    · exact hu
    · exact overdue_of_runningChain hu hrest t ht

/-- Settles O53: the other flag is set at the start, and by O58 it stays so, with the dispatch in
progress, along any run that stays in RUNNING. -/
theorem overrunNeverMissed : Obligations.OverrunNeverMissed := by
  intro s run hs hm hq hin hrun t ht
  have hover : overdue s := overdue_of_dmaInside hs hm hq hin
  obtain ⟨htm, hbusy, hflag⟩ := overdue_of_runningChain hover hrun t ht
  refine ⟨hbusy, fun hcheck => ⟨seqCheckOp t, rfl, ?_⟩⟩
  rw [seqCheckOp_of_other_set ((stepEnabled_iff _ _).2 ⟨hcheck, htm⟩)
    ((otherFlag_eq_iff true).2 hflag)]
  rfl

end Sys2Proof.Proofs
end

section
/-! SUPPORT. The free values of unwritten words (93_implementation_defined.md U2): an `ENC_STEP` of a
written half is the same in every epoch. -/

namespace Sys2Proof.Machine

/-- The state with the free values of another epoch. -/
def withEpoch (epoch : Nat) (s : State) : State := { s with epoch := epoch }

@[simp] theorem withEpoch_cfg (epoch : Nat) (s : State) : (withEpoch epoch s).cfg = s.cfg := rfl

@[simp] theorem withEpoch_lastValue (epoch : Nat) (s : State) :
    (withEpoch epoch s).lastValue = s.lastValue := rfl

@[simp] theorem withEpoch_bytes (epoch : Nat) (s : State) :
    (withEpoch epoch s).bytes = s.bytes := rfl

@[simp] theorem withEpoch_durAcc (epoch : Nat) (s : State) :
    (withEpoch epoch s).durAcc = s.durAcc := rfl

@[simp] theorem withEpoch_scanPos (epoch : Nat) (s : State) :
    (withEpoch epoch s).scanPos = s.scanPos := rfl

@[simp] theorem withEpoch_emission (epoch : Nat) (s : State) :
    (withEpoch epoch s).emission = s.emission := rfl

@[simp] theorem halfBase_withEpoch (epoch : Nat) (s : State) :
    halfBase (withEpoch epoch s) = halfBase s := rfl

@[simp] theorem stepEnabled_withEpoch (epoch : Nat) (s : State) (q : SeqState) :
    stepEnabled (withEpoch epoch s) q = stepEnabled s q := rfl

/-- The epoch reaches an `ENC_STEP` only through its arm. -/
theorem applyArm_withEpoch (arm : EncArm) (epoch : Nat) (s : State) :
    applyArm arm (withEpoch epoch s) = withEpoch epoch (applyArm arm s) := by
  cases arm <;> rfl

/-- A written word of `PP` reads as what was written (20 R52). -/
theorem ppWord_of_read {s : State} {i : Nat} {w : SampleWord}
    (h : Memory.read s.pp i = some w) : ppWord s i = w := by
  simp only [ppWord, h]

section
variable {s : State}

/-- A written word is the same in every epoch (93 U2). -/
theorem ppWord_withEpoch {k : Nat} (epoch : Nat) (h : halfWritten s s.curHalf) (hk : k < s.cfg.h) :
    ppWord (withEpoch epoch s) (halfBase s + k) = ppWord s (halfBase s + k) := by
  obtain ⟨w, hw⟩ := Option.isSome_iff_exists.1 (h k hk)
  exact (ppWord_of_read (s := withEpoch epoch s) hw).trans (ppWord_of_read hw).symm

theorem edgePos_withEpoch (epoch : Nat) (h : halfWritten s s.curHalf) :
    edgePos (withEpoch epoch s) = edgePos s := by
  refine congrArg (· - halfBase s) (scanLoop_congr _ _ fun i hlow hhigh => ?_)
  simp only [halfBase_withEpoch, withEpoch_cfg, withEpoch_scanPos] at hlow hhigh
  obtain ⟨k, rfl⟩ : ∃ k, i = halfBase s + k := ⟨i - halfBase s, by omega⟩
  rw [ppWord_withEpoch epoch h (by omega)]

theorem spanDuration_withEpoch (epoch : Nat) (h : halfWritten s s.curHalf) :
    spanDuration (withEpoch epoch s) = spanDuration s := by
  simp only [spanDuration, withEpoch_durAcc, withEpoch_scanPos, edgePos_withEpoch epoch h]

theorem encRefusal_withEpoch (epoch : Nat) (h : halfWritten s s.curHalf) :
    encRefusal (withEpoch epoch s) = encRefusal s := by
  simp only [encRefusal, durationFits, stepEnabled_withEpoch, halfBase_withEpoch, withEpoch_cfg,
    withEpoch_scanPos, withEpoch_emission, withEpoch_durAcc, edgePos_withEpoch epoch h]

/-- At the end of the half the word behind it plays no part; an edge is inside the half. -/
theorem scanArm_withEpoch (epoch : Nat) (hs : s.scanPos ≤ s.cfg.h)
    (h : halfWritten s s.curHalf) : scanArm (withEpoch epoch s) = scanArm s := by
  by_cases hend : edgePos s = s.cfg.h
  · simp only [scanArm, edgePos_withEpoch epoch h, spanDuration_withEpoch epoch h, withEpoch_cfg,
      if_pos hend]
  · have hle := edgePos_le hs
    have hword := ppWord_withEpoch epoch h (show edgePos s < s.cfg.h by omega)
    simp only [scanArm, edgePos_withEpoch epoch h, spanDuration_withEpoch epoch h, withEpoch_cfg,
      withEpoch_bytes, withEpoch_lastValue, halfBase_withEpoch, hword]

theorem encArm_withEpoch (epoch : Nat) (hs : s.scanPos ≤ s.cfg.h) (h : halfWritten s s.curHalf) :
    encArm (withEpoch epoch s) = encArm s := by
  simp only [encArm, withEpoch_emission, scanArm_withEpoch epoch hs h]

end

/-- While a half is being encoded all its words are written: its flag is still set (45 R168). -/
theorem BufferInv.curHalf_written {s : State} (h : BufferInv s) (hm : s.mode = .running)
    (hq : s.seqState = .encode ∨ s.seqState = .clear) : halfWritten s s.curHalf := by
  have hown := h.ownSet hm hq
  cases hh : s.curHalf with
  | half0 => rw [hh] at hown; exact h.htWritten hown
  | half1 => rw [hh] at hown; exact h.tcWritten hown

end Sys2Proof.Machine
end

section
/-! PROOFS. SEQ never observes the unspecified contents of `PP`. -/

namespace Sys2Proof.Proofs

open Sys2Proof.Machine Sys2Proof.Claims

/-- Settles O54: an enabled `ENC_STEP` reads words of the half being processed only, and all of them
are written. -/
theorem unwrittenWordsNeverObserved : Obligations.UnwrittenWordsNeverObserved := by
  intro s t epoch hs hnext
  obtain ⟨hr, rfl⟩ := encStepOutcome_next hnext
  change encStepOutcome (withEpoch epoch s) = .next (withEpoch epoch (encStepOp s))
  cases he : stepEnabled s .encode with
  | false => rw [encStepOp_of_disabled he]; exact encStepOutcome_of_disabled he
  | true =>
    obtain ⟨hq, hm⟩ := (stepEnabled_iff s .encode).1 he
    have hw : halfWritten s s.curHalf := hs.curHalf_written hm (.inl hq)
    rw [encStepOutcome, encRefusal_withEpoch epoch hw, hr]
    simp only [encStepOp, stepEnabled_withEpoch, he, if_true,
      encArm_withEpoch epoch hs.base.scanLe hw, applyArm_withEpoch]

end Sys2Proof.Proofs
end

section
/-! SUPPORT. The big-step encoder sample by sample (41_run_length_encoder.md R101): where it ends
`Done` it is a fold, so a stream may be cut into halves. -/

namespace Sys2Proof.Machine

/-- What `enc` of 41 R101 makes of one sample, where it goes on to the next. -/
def bigTake (c : Config) (b : BigState) (x : SampleWord) : Option BigState :=
  if levelOf c x = b.level then
    if b.dur.toNat + 1 < 2 ^ 60 then some { b with dur := b.dur + 1 } else none
  else if x &&& c.reservedMask ≠ 0 then none
  else if c.c - b.n < maxRec then none
  else
    let r := vencOf (recordValueOf b.dur b.level)
    some { out := b.out ++ r, n := b.n + r.length, level := levelOf c x, dur := durReset }

/-- The big-step encoder ends `Done` where it goes on at every sample, whatever the index of the
first (41 R101). -/
theorem bigEncode_eq_done_iff {c : Config} {b' : BigState} : ∀ (xs : List SampleWord) (j : Nat)
    (b : BigState), bigEncode c xs j b = .done b' ↔ xs.foldlM (bigTake c) b = some b'
  | [], _, b => by simp [bigEncode]
  | x :: xs, j, b => by
    rw [bigEncode, List.foldlM_cons, bigTake]
    split
    · split
      · exact bigEncode_eq_done_iff xs _ _
      · simp
    split
    · simp
    split
    · simp
    · exact bigEncode_eq_done_iff xs _ _

end Sys2Proof.Machine
end

section
/-! SUPPORT. One half of an uninterrupted capture: the samples of the half from its first slot on
(43_sample_buffer_controller.md R128, R129), and its dispatch (44_dma_interrupt_sequencer.md R145). -/

namespace Sys2Proof.Machine

open Sys2Proof.Claims

/-! ### The samples of a half -/

/-- A list of samples keeps the invariant (10 R37). -/
theorem Inv.sampleAll : ∀ {ws : List SampleWord} {s : State}, Inv s → modeSamples s.mode = true →
    (∀ w ∈ ws, w < 2 ^ s.cfg.w) → Inv (sampleAll ws s)
  | [], _, h, _, _ => h
  | w :: ws, s, h, hm, hws => by
    rw [sampleAll_cons]
    exact Inv.sampleAll (ws := ws) (h.sample hm (hws w List.mem_cons_self)) hm
      fun v hv => hws v (List.mem_cons_of_mem w hv)

section
variable {s : State} (hp : s.wrPtr < 2 * s.cfg.h)
include hp

/-- The pointer goes around the buffer (43 R129). -/
theorem sampleAll_wrPtr_mod (ws : List SampleWord) :
    (sampleAll ws s).wrPtr = (s.wrPtr + ws.length) % (2 * s.cfg.h) := by
  induction ws using List.reverseRecOn with
  | nil => exact (Nat.mod_eq_of_lt hp).symm
  | append_singleton ws w ih =>
    rw [sampleAll_concat, sampleOp_wrPtr, ih, sampleAll_cfg, Nat.mod_add_mod, List.length_append,
      List.length_singleton, Nat.add_assoc]

/-- Up to the end of the buffer the samples are written one after another (43 R128). -/
theorem sampleAll_pp {ws : List SampleWord} (hlap : s.wrPtr + ws.length ≤ 2 * s.cfg.h) :
    (sampleAll ws s).pp = Memory.writeList s.pp s.wrPtr ws := by
  induction ws using List.reverseRecOn with
  | nil => rfl
  | append_singleton ws w ih =>
    rw [List.length_append, List.length_singleton] at hlap
    rw [sampleAll_concat, sampleOp_pp, ih (by omega), sampleAll_wrPtr_mod hp,
      Nat.mod_eq_of_lt (by omega), ← Memory.writeList_append]
    rfl

/-- `HT` is set by the sample in the last slot of half 0 (10 R21). -/
theorem sampleAll_ht_of_lap {ws : List SampleWord} (hlap : s.wrPtr + ws.length ≤ 2 * s.cfg.h) :
    (sampleAll ws s).ht =
      (s.ht || decide (s.wrPtr < s.cfg.h ∧ s.cfg.h ≤ s.wrPtr + ws.length)) := by
  induction ws using List.reverseRecOn with
  | nil => simp [sampleAll]
  | append_singleton ws w ih =>
    rw [List.length_append, List.length_singleton] at hlap ⊢
    rw [sampleAll_concat, sampleOp_ht, ih (by omega), sampleAll_wrPtr_mod hp, sampleAll_cfg,
      Nat.mod_eq_of_lt (by omega), Bool.or_assoc, ← Bool.decide_or]
    congr 2
    simp only [eq_iff_iff]
    omega

/-- `TC` is set by the sample in the last slot of half 1 (10 R22). -/
theorem sampleAll_tc_of_lap {ws : List SampleWord} (hlap : s.wrPtr + ws.length ≤ 2 * s.cfg.h) :
    (sampleAll ws s).tc = (s.tc || decide (2 * s.cfg.h ≤ s.wrPtr + ws.length)) := by
  induction ws using List.reverseRecOn with
  | nil => simp [sampleAll, hp]
  | append_singleton ws w ih =>
    rw [List.length_append, List.length_singleton] at hlap ⊢
    rw [sampleAll_concat, sampleOp_tc, ih (by omega), sampleAll_wrPtr_mod hp, sampleAll_cfg,
      Nat.mod_eq_of_lt (by omega), Bool.or_assoc, ← Bool.decide_or]
    congr 2
    simp only [eq_iff_iff]
    omega

end

/-- The half the DMA turns to behind this one (45 R165). -/
def otherHalf : Half → Half
  | .half0 => .half1
  | .half1 => .half0

/-- A half ends within the buffer (45 R166). -/
theorem halfCode_mul_add_le (half : Half) (n : Nat) : halfCode half * n + n ≤ 2 * n := by
  have hcode := halfCode_lt half
  calc halfCode half * n + n = (halfCode half + 1) * n := (Nat.succ_mul _ _).symm
    _ ≤ 2 * n := Nat.mul_le_mul_right n hcode

section
variable {s : State} {half : Half} {ws : List SampleWord} (hh : 1 ≤ s.cfg.h)
  (hp : s.wrPtr = halfCode half * s.cfg.h) (hlen : ws.length = s.cfg.h)
include hh hp hlen

/-- The samples of one half do not turn the pointer before the last of them. -/
theorem half_in_lap : s.wrPtr < 2 * s.cfg.h ∧ s.wrPtr + ws.length ≤ 2 * s.cfg.h := by
  have hle := halfCode_mul_add_le half s.cfg.h
  rw [← hp] at hle
  omega

/-- The samples of one half bring the pointer to the other (43 R129). -/
theorem sampleAll_half_wrPtr :
    (sampleAll ws s).wrPtr = halfCode (otherHalf half) * s.cfg.h := by
  obtain ⟨hlt, -⟩ := half_in_lap hh hp hlen
  rw [sampleAll_wrPtr_mod hlt, hp, hlen]
  cases half with
  | half0 =>
    simp only [otherHalf, halfCode, Nat.zero_mul, Nat.zero_add, Nat.one_mul]
    exact Nat.mod_eq_of_lt (by omega)
  | half1 =>
    simp only [otherHalf, halfCode, Nat.zero_mul, Nat.one_mul, ← Nat.two_mul, Nat.mod_self]

/-- The last sample of a half sets its flag (43 R128). -/
theorem ownFlag_sampleAll_half : ownFlag (sampleAll ws s) half = true := by
  obtain ⟨hlt, hlap⟩ := half_in_lap hh hp hlen
  cases half with
  | half0 =>
    have h0 : s.wrPtr = 0 := by simpa [halfCode] using hp
    simp [ownFlag, sampleAll_ht_of_lap hlt hlap, h0, hlen, Nat.lt_of_succ_le hh]
  | half1 =>
    have h1 : s.wrPtr = s.cfg.h := by simpa [halfCode] using hp
    simp [ownFlag, sampleAll_tc_of_lap hlt hlap, h1, hlen, Nat.two_mul]

/-- No sample of a half sets the flag of the other (43 R128). -/
theorem otherFlag_sampleAll_half : otherFlag (sampleAll ws s) half = otherFlag s half := by
  obtain ⟨hlt, hlap⟩ := half_in_lap hh hp hlen
  cases half with
  | half0 =>
    have h0 : s.wrPtr = 0 := by simpa [halfCode] using hp
    have hend : ¬ (2 * s.cfg.h ≤ s.cfg.h) := by omega
    simp [otherFlag, sampleAll_tc_of_lap hlt hlap, h0, hlen, hend]
  | half1 =>
    have h1 : s.wrPtr = s.cfg.h := by simpa [halfCode] using hp
    simp [otherFlag, sampleAll_ht_of_lap hlt hlap, h1]

/-- The words of the half are then the samples (45 R166). -/
theorem halfWords_sampleAll_half : halfWords (sampleAll ws s) half = ws := by
  obtain ⟨hlt, hlap⟩ := half_in_lap hh hp hlen
  rw [halfWords, sampleAll_cfg]
  refine List.ext_getElem (by simp [hlen]) fun i hi hi' => ?_
  rw [List.getElem_map, List.getElem_range]
  refine ppWord_of_read ?_
  rw [sampleAll_pp hlt hlap, Memory.read_writeList, if_pos (by omega), ← hp,
    Nat.add_sub_cancel_left, List.getElem?_eq_getElem hi']

end

/-! ### The dispatch of a half -/

/-- The encoder's registers and `EB` are where the big-step encoder stands at `b`; `m` was `EB`, and
`a` was `bytes`, before the first byte it has put out (41 R101). -/
structure EncodedTo (m : List Host.Cell) (a : Nat) (b : BigState) (s : State) : Prop where
  eb : s.eb = Memory.writeList m a b.out
  count : b.n = a + b.out.length
  bytes : s.bytes = b.n
  level : s.lastValue = b.level
  dur : s.lastDuration = b.dur

/-- Samples write nothing that the encoder owns (43 R128). -/
theorem EncodedTo.sampleAll {m : List Host.Cell} {a : Nat} {b : BigState} {s : State}
    (h : EncodedTo m a b s) (ws : List SampleWord) : EncodedTo m a b (sampleAll ws s) := by
  rw [sampleAll_frame]
  exact { h with }

/-- `seq_state`, mode and flags behind a half that is done, where the other flag is clear (44 R150,
R151). -/
theorem dispatchTail_of_done {half : Half} {s : State} (hq : s.seqState = .clear)
    (hm : s.mode = .running) (hh : s.curHalf = half) (hother : otherFlag s half = false) :
    dispatchTail s = { s with ht := false, tc := false, seqState := .idle } := by
  rw [dispatchTail, seqClearOp_of_enabled ((stepEnabled_iff _ _).2 ⟨hq, hm⟩) hh]
  refine (seqCheckOp_of_other_clear (by simp [hm]) ?_).trans ?_
  · simp only [clearFlag_curHalf, hh]
    cases half <;> exact hother
  · cases half <;> simp only [otherFlag] at hother <;> simp [clearFlag, hother]

/-- The big-step encoder over the half whose dispatch begins (41 R101, 44 R148). -/
theorem bigRest_enterHalf (half : Half) (s : State) (out : List Byte) :
    bigRest (enterHalf half s) out = bigEncode s.cfg (halfWords s half) 0
      { out := out, n := s.bytes, level := s.lastValue, dur := s.lastDuration } := by
  rw [bigRest, enterHalf_scanPos, ← halfWords_eq_wordsFrom]
  rfl

/-- Where the big-step encoder ends `Done` on the words of the half, the `ENC_STEP`s of its dispatch
are not refused and end the half (41 R101). -/
theorem encLoop_entered_of_done {s : State} {half : Half} {m : List Host.Cell} {a : Nat}
    {b b' : BigState} (hi : Inv s) (hq : s.seqState = .idle) (hat : EncodedTo m a b s)
    (hbig : (halfWords s half).foldlM (bigTake s.cfg) b = some b') :
    encLoopRefusal (s.cfg.h + 1) (enterHalf half s) = none ∧
      leavesBigStep m a (enterHalf half s) (encLoop (s.cfg.h + 1) (enterHalf half s))
        (.done b') := by
  obtain ⟨heb, hcount, hbytes, hlevel, hdur⟩ := hat
  have he : stepEnabled (enterHalf half s) .encode = true := (stepEnabled_iff _ _).2 ⟨rfl, rfl⟩
  have hnew : (enterHalf half s).emission = none := hi.emission_none (by simp [hq])
  have hrest : bigRest (enterHalf half s) b.out = .done b' := by
    rw [bigRest_enterHalf, hbytes, hlevel, hdur]
    exact (bigEncode_eq_done_iff _ _ _).2 hbig
  constructor
  · refine (encLoopRefusal_cases _ (Nat.zero_le _)).resolve_right fun hover => ?_
    have hlong := (encLoopRefusal_iff_tooLong _ (s := enterHalf half s) b.out hi.wf he hnew
      (Nat.zero_le _) (Nat.lt_succ_self _)).1 hover
    rw [hrest] at hlong
    cases hlong
  · rw [← hrest]
    exact leavesBigStep_encLoop _ b.out hi.wf he hnew (Nat.zero_le _) (Nat.lt_succ_self _) heb
      (hbytes.trans hcount)

/-- A dispatch of the one half that is due, on whose words the big-step encoder ends `Done`, ends
`Normal` where that encoder stands (44 R145, 45 R171). -/
theorem exec_dispatch_of_done {s : State} {half : Half} {m : List Host.Cell} {a : Nat}
    {b b' : BigState} (hi : Inv s) (hready : ready s) (herr : s.err = false)
    (hown : ownFlag s half = true) (hother : otherFlag s half = false) (hat : EncodedTo m a b s)
    (hbig : (halfWords s half).foldlM (bigTake s.cfg) b = some b') :
    b'.n = a + b'.out.length ∧ exec .dispatch s = .next { s with
      eb := Memory.writeList m a b'.out, bytes := b'.n, lastValue := b'.level,
      lastDuration := b'.dur, durAcc := b'.dur, scanPos := s.cfg.h, curHalf := half,
      mode := .running, seqState := .idle, ht := false, tc := false,
      out := .dispatched .normal } := by
  obtain ⟨hq, hm, hirq⟩ := hready
  have hdue : (half = .half0 ∧ s.ht = true) ∨ (half = .half1 ∧ s.ht = false ∧ s.tc = true) := by
    cases half with
    | half0 => exact .inl ⟨rfl, hown⟩
    | half1 => exact .inr ⟨rfl, hother, hown⟩
  have hen : enterEnabled s = true := (enterEnabled_iff s).2
    ⟨hq, hm, hirq, .inr (hdue.imp And.right fun ⟨_, _, htc⟩ => htc)⟩
  have hent : seqEnterOp s = enterHalf half s := seqEnterOp_of_half hen herr hdue
  obtain ⟨hr, hcount, hdone⟩ := encLoop_entered_of_done hi hq hat hbig
  obtain ⟨-, hnext⟩ := (execDispatch_answers hi hen).resolve_left fun ⟨hover, _⟩ => by
    rw [execDispatch_refused_iff hen, hent, hr] at hover
    cases hover
  refine ⟨hcount, hnext.trans ?_⟩
  rw [dispatchOp, hent, hdone, dispatchTail_of_done rfl rfl rfl (by cases half <;> exact hother)]
  rfl

/-! ### Half after half -/

/-- Between two dispatches: the DMA is at the start of the half, and nothing is pending. -/
structure AwaitsHalf (half : Half) (s : State) : Prop where
  inv : Inv s
  ready : ready s
  ptr : s.wrPtr = halfCode half * s.cfg.h
  err : s.err = false
  ht : s.ht = false
  tc : s.tc = false

theorem runOps_append : ∀ (is js : List Instr) (s : State),
    runOps (is ++ js) s = (runOps is s).bind (runOps js)
  | [], _, _ => rfl
  | i :: is, js, s => by
    rw [List.cons_append, runOps, runOps]
    split
    · exact runOps_append is js _
    · rfl
    · rfl

theorem runOps_singleton {i : Instr} {s t : State} (h : exec i s = .next t) :
    runOps [i] s = some t := by
  simp only [runOps, h]

/-- A half captured and dispatched takes the block from the start of the half to the start of the
other, and the encoder as far as the big step over its samples (45 R171). -/
theorem runOps_half {half : Half} {s : State} {ws : List SampleWord} {m : List Host.Cell} {a : Nat}
    {b b' : BigState} (hs : AwaitsHalf half s) (hat : EncodedTo m a b s)
    (hlen : ws.length = s.cfg.h) (hws : ∀ w ∈ ws, w < 2 ^ s.cfg.w)
    (hbig : ws.foldlM (bigTake s.cfg) b = some b') :
    ∃ t, runOps (ws.map Instr.smp ++ [Instr.dispatch]) s = some t ∧ t.cfg = s.cfg ∧
      AwaitsHalf (otherHalf half) t ∧ EncodedTo m a b' t := by
  obtain ⟨hi, hready, hp, herr, hht, htc⟩ := hs
  obtain ⟨-, -, -, -, -, hh⟩ := hi.wf
  have hm : modeSamples s.mode = true := by
    obtain ⟨-, hserves, -⟩ := hready
    exact (modeSamples_iff _).2 (hserves.imp_right .inl)
  obtain ⟨hlt, -⟩ := half_in_lap hh hp hlen
  have hi' : Inv (sampleAll ws s) := hi.sampleAll hm hws
  have hother : otherFlag (sampleAll ws s) half = false := by
    rw [otherFlag_sampleAll_half hh hp hlen]
    cases half with
    | half0 => exact htc
    | half1 => exact hht
  have hready' : Claims.ready (sampleAll ws s) := by rw [sampleAll_frame]; exact hready
  have herr' : (sampleAll ws s).err = false := by rw [sampleAll_frame]; exact herr
  obtain ⟨hcount, hnext⟩ := exec_dispatch_of_done hi' hready' herr'
    (ownFlag_sampleAll_half hh hp hlen) hother (hat.sampleAll ws)
    (by rwa [halfWords_sampleAll_half hh hp hlen, sampleAll_cfg])
  have hrun : runOps (ws.map Instr.smp ++ [Instr.dispatch]) s =
      runOps [Instr.dispatch] (sampleAll ws s) := by
    rw [runOps_append, runOps_smp ws hm hlt hws, Option.bind_some]
  obtain ⟨-, -, hirq⟩ := hready'
  refine ⟨_, hrun.trans (runOps_singleton hnext), sampleAll_cfg ws s,
    ⟨?_, ⟨rfl, .inr rfl, hirq⟩, ?_, herr', rfl, rfl⟩, ⟨rfl, hcount, rfl, rfl, rfl⟩⟩
  · have hworks := works_exec (i := .dispatch) rfl nofun nofun hnext
    exact works_keep (fun _ _ hw h => h.work hw) hi' hworks
  · simp only [sampleAll_cfg]
    exact sampleAll_half_wrPtr hh hp hlen

/-- Half after half, with the big-step encoder over all their samples (45 R171). -/
theorem runOps_capture {m : List Host.Cell} {a : Nat} {b' : BigState} :
    ∀ (halves : List (List SampleWord)) {half : Half} {b : BigState} {s : State},
      AwaitsHalf half s → EncodedTo m a b s →
      (∀ ws ∈ halves, ws.length = s.cfg.h ∧ ∀ w ∈ ws, w < 2 ^ s.cfg.w) →
      halves.flatten.foldlM (bigTake s.cfg) b = some b' →
      ∃ half' t, runOps (halves.flatMap fun ws => ws.map Instr.smp ++ [Instr.dispatch]) s = some t ∧
        AwaitsHalf half' t ∧ EncodedTo m a b' t
  | [], half, b, s, hs, hat, _, hbig => by
    rw [List.flatten_nil, List.foldlM_nil] at hbig
    cases hbig
    exact ⟨half, s, rfl, hs, hat⟩
  | ws :: halves, half, b, s, hs, hat, hall, hbig => by
    rw [List.flatten_cons, List.foldlM_append] at hbig
    obtain ⟨b1, hfirst, hrest⟩ := Option.bind_eq_some_iff.1 hbig
    obtain ⟨hlen, hws⟩ := hall ws List.mem_cons_self
    obtain ⟨t, hrun, hcfg, ht, hat'⟩ := runOps_half hs hat hlen hws hfirst
    obtain ⟨half', u, hrun', hu, hat''⟩ := runOps_capture halves ht hat'
      (by rw [hcfg]; exact fun vs hvs => hall vs (List.mem_cons_of_mem ws hvs)) (by rwa [hcfg])
    refine ⟨half', u, ?_, hu, hat''⟩
    rw [List.flatMap_cons, runOps_append, hrun]
    exact hrun'

end Sys2Proof.Machine
end

section
/-! PROOFS. Capturing half after half is one big step over all the samples. -/

namespace Sys2Proof.Proofs

open Sys2Proof.Machine Sys2Proof.Claims

/-- Settles O34, by induction over the halves in `runOps_capture`. -/
theorem captureIsBigStep : Obligations.CaptureIsBigStep := by
  intro s halves b hi hready hp herr hht htc hall hbig
  have hs : AwaitsHalf .half0 s :=
    ⟨hi, hready, hp.trans (Nat.zero_mul s.cfg.h).symm, herr, hht, htc⟩
  have hat : EncodedTo s.eb s.bytes
      { out := [], n := s.bytes, level := s.lastValue, dur := s.lastDuration } s :=
    ⟨rfl, rfl, rfl, rfl, rfl⟩
  obtain ⟨-, t, hrun, ⟨-, hready', -, herr', hht', htc'⟩, heb, -, hbytes, hlevel, hdur⟩ :=
    runOps_capture halves hs hat hall ((bigEncode_eq_done_iff _ _ _).1 hbig)
  exact ⟨t, hrun, hready', herr', hht', htc', hbytes, hlevel, hdur, ebStored_of_writeList heb⟩

end Sys2Proof.Proofs
end

section
/-! SUPPORT. FATAL keeps the state (60_exceptions.md R186, R188): SEQ takes no step and the DMA is
off, so that the answers are all that is left of `Work`. -/

namespace Sys2Proof.Machine

/-- Where the DMA is off nothing writes `PP` or moves the write pointer (43 R128). -/
theorem Work.buffer_eq_of_not_samples {s t : State} (hoff : modeSamples s.mode ≠ true)
    (h : Work s t) : t.pp = s.pp ∧ t.wrPtr = s.wrPtr := by
  cases h with
  | sample w hm _ _ => exact absurd hm hoff
  | encode _ _ => exact ⟨(sameBuffer_encStepOp s).pp, (sameBuffer_encStepOp s).wrPtr⟩
  | clear _ => exact ⟨clearFlag_pp _ _, clearFlag_wrPtr _ _⟩
  | _ => exact ⟨rfl, rfl⟩

/-- `t` is `s` but for what is put out. -/
def AnswerOnly (s t : State) : Prop := t = { s with out := t.out }

theorem AnswerOnly.refl (s : State) : AnswerOnly s s := rfl

theorem AnswerOnly.mode_eq {s t : State} (h : AnswerOnly s t) : t.mode = s.mode := by
  rw [h]

theorem AnswerOnly.trans {s t u : State} (h : AnswerOnly s t) (h' : AnswerOnly t u) :
    AnswerOnly s u := Eq.trans h' (by rw [h])

/-- FATAL is quiet, and the DMA, which may write in a quiet mode, is off in it. -/
theorem Work.answerOnly_of_fatal {s t : State} (hm : s.mode = .fatal) (h : Work s t) :
    AnswerOnly s t := by
  obtain ⟨hrest, hflags⟩ := h.dmaOnly (.inr (.inl hm))
  obtain ⟨hht, htc, herr, hsync⟩ := hflags (by simp [hm])
  obtain ⟨hpp, hptr⟩ := h.buffer_eq_of_not_samples (not_modeSamples_of_away (.inr hm))
  exact hrest.trans (by rw [hpp, hptr, hsync, hht, htc, herr])

theorem Works.answerOnly_of_fatal {s t : State} (hm : s.mode = .fatal) (h : Works s t) :
    AnswerOnly s t :=
  works_keep (P := AnswerOnly s)
    (fun _ _ hw hu => hu.trans (hw.answerOnly_of_fatal (hu.mode_eq.trans hm))) (.refl s) h

end Sys2Proof.Machine
end

section
/-! PROOFS. FATAL is terminal. -/

namespace Sys2Proof.Proofs

open Sys2Proof.Machine Sys2Proof.Claims

/-- Settles O48: `RESET` leaves FATAL, `ARM` is not enabled in it, and every other item works within
the session, where FATAL leaves nothing but answers. -/
theorem fatalIsTerminal : Obligations.FatalIsTerminal := by
  intro s t f rest hm hstim hstep
  obtain ⟨hrun, -, -⟩ := stepRunsDecodedInstruction
  have hdecoded : ∀ i, decode f = .ok i → step s = exec i (s.taken rest) :=
    fun i => hrun s f rest i hstim
  have hfatal : (s.taken rest).mode = .fatal := hm
  by_cases hreset : decode f = .ok .reset
  · rw [hdecoded _ hreset] at hstep
    cases hstep
    exact .inl ⟨hreset, rfl⟩
  right
  by_cases harm : decode f = .ok .arm
  · have hoff : armEnabled (s.taken rest) ≠ true := fun h => ((armEnabled_iff _).1 h).2 hfatal
    rw [hdecoded _ harm, exec_arm_of_disabled hoff] at hstep
    cases hstep
    rfl
  · have hworks : Works (s.taken rest) t := works_step hstim harm hreset hstep
    exact hworks.answerOnly_of_fatal hfatal

end Sys2Proof.Proofs
end
